-- ==== Sys2Proof/Word.lean ====
section
/-! DEFINITION. The word, byte and block types of the engine (R8, R10, R49, R50). -/

namespace Sys2Proof

/-- A byte (R10). -/
abbrev Byte := BitVec 8

/-- A 32-bit register value (R8: register width 32). -/
abbrev Word := BitVec 32

/-- A byte string of fixed length (R10). -/
abbrev Bytes (n : Nat) := Vector Byte n

/-- A 16-byte block: the keystream buffer and the cipher's input and output (R8, R50). -/
abbrev Block := Bytes 16

/-- An 8-byte half of the counter block: the header or the counter field (R49). -/
abbrev Half := Bytes 8

/-- The number of byte addresses of the data space (R8, R71: ADDR_W = 32). -/
abbrev dataSpaceBytes : Nat := 2 ^ 32

end Sys2Proof
end

