-- ==== Sys2Proof/Config.lean ====
section
/-! DEFINITION. What a platform fixes (the OPEN parameters of R8) and the free values of the model. -/

namespace Sys2Proof

/-- A stretch of data addresses: `len` bytes from `base`. -/
structure Region where
  base : Nat
  len : Nat
deriving DecidableEq, Repr

/-- The platform the engine sits on (R8, 92_eei_decisions.md D2 and D16). `dead` are the addresses whose
P_BUSOK is false; `devices` are the registers with side effects of R79. Both are lists of regions so that
State stays plain data: every predicate on the 2^32 addresses is such a list. `coherent` is P_COHERENT (R88) and
`instances` is P_INSTANCES (R90, R238). DESIGN CHOICE, log 5, 6, 8, 9, 10. -/
structure Platform where
  regBase : Nat
  dead : List Region
  devices : List Region
  coherent : Bool
  instances : Nat
deriving DecidableEq, Repr

/-- Which function P_CIPHER is (R8, R14, D22). `identity` is the test cipher ID of 95_test_vectors.md;
`device` is the real collaborator, under the key schedule the host programmed. DESIGN CHOICE, log 7. -/
inductive Collaborator where
  | identity
  | device (schedule : Nat)
deriving DecidableEq, Repr

namespace Config

/-- FREE VALUE. A byte the spec leaves unspecified (U2, U3, U5, U6 of 93_implementation_defined.md), one for
each draw. DESIGN CHOICE, safe, log 4. -/
opaque freeByte : Nat → Byte

/-- FREE VALUE. A 32-bit value the spec leaves unspecified (U1: R52), one for each draw. DESIGN CHOICE, safe,
log 4. -/
opaque freeWord : Nat → Word

/-- FREE VALUE. What a byte of data memory holds before any write (U7), one for each address. DESIGN CHOICE,
safe, log 3. -/
opaque initialByte : Nat → Byte

/-- FREE VALUE. The external block cipher P_CIPHER under a key schedule (R8, R14): key size and request data to response
data, as the cipher port carries them (R56 (3)). DESIGN CHOICE, safe, log 7. -/
opaque deviceCipher : Nat → Word → BitVec 128 → BitVec 128

end Config

end Sys2Proof
end

