-- ==== Sys2Proof/Syntax.lean ====
section
/-! DEFINITION. The commands of the opcode map (R103), one constructor per row of spec/opcode_table.json. -/

namespace Sys2Proof

/-- A command. No command carries an operand: every operand is read from a register (R101, R102). -/
inductive Instr where
  /-- R137 -/
  | nop
  /-- R155 -/
  | initCb
  /-- R156 -/
  | encodeIdx
  /-- R171 -/
  | genKs
  /-- R201 -/
  | hdrLoad
  /-- R202 -/
  | hdrStore
  /-- R173, R174 -/
  | encrypt
  /-- R175, R176 -/
  | decrypt
deriving DecidableEq, Repr

end Sys2Proof
end

