-- ==== Sys2Proof/WellFormed.lean ====
section
/-! DEFINITION. Which command words, commands and register transactions have the form the spec gives them. -/

namespace Sys2Proof

/-- The reserved field of a command word, bits [31:8], is zero (R101). -/
def reservedZero (w : Word) : Bool := w.extractLsb' 8 24 == 0

/-- The opcode is one of the map (R103). -/
def opcodeAssigned (w : Word) : Bool :=
  [0x00, 0x01, 0x02, 0x03, 0x04, 0x05, 0x10, 0x11].contains (w.extractLsb' 0 8).toNat

/-- A word of the opcode map (R103, R105). -/
def wellFormedWord (w : Word) : Bool := reservedZero w && opcodeAssigned w

/-- Every command is well formed: there is one format and it has no operand field to check (R101, R102). -/
def Instr.wellFormed : Instr → Bool
  | .nop | .initCb | .encodeIdx | .genKs | .hdrLoad | .hdrStore | .encrypt | .decrypt => true

/-- A register transaction of the form of R100 and R80: 32 bits wide, at a multiple of 4, in the window. -/
def wellFormedTransaction (offset width : Nat) : Bool :=
  width == 4 && offset % 4 == 0 && decide (offset < 256)

end Sys2Proof
end

