-- ==== Sys2Proof/Decode.lean ====
section
/-! DEFINITION. Decoding a command word (R101 to R106) and encoding a command, from the opcode map of R103. -/

namespace Sys2Proof

/-- Why a word is ILLEGAL (R104, R105). -/
inductive DecodeError where
  /-- a non-zero bit in [31:8] (E1 of 93_implementation_defined.md) -/
  | reservedField
  /-- an opcode outside the map (E2) -/
  | reservedOpcode
  /-- fewer than the four bytes of a command word -/
  | truncated
deriving DecidableEq, Repr

/-- The opcode map (R103): one opcode for each command. -/
def opcode : Instr → BitVec 8
  | .nop => 0x00
  | .initCb => 0x01
  | .encodeIdx => 0x02
  | .genKs => 0x03
  | .hdrLoad => 0x04
  | .hdrStore => 0x05
  | .encrypt => 0x10
  | .decrypt => 0x11

/-- The command that an opcode selects, if any (R104). -/
def ofOpcode (op : BitVec 8) : Option Instr :=
  match op.toNat with
  | 0x00 => some .nop
  | 0x01 => some .initCb
  | 0x02 => some .encodeIdx
  | 0x03 => some .genKs
  | 0x04 => some .hdrLoad
  | 0x05 => some .hdrStore
  | 0x10 => some .encrypt
  | 0x11 => some .decrypt
  | _ => none

/-- Decode of R104, total on every 32-bit word; an error is the verdict ILLEGAL. -/
def decodeWord (w : Word) : Except DecodeError Instr :=
  if w.extractLsb' 8 24 = 0 then
    match ofOpcode (w.extractLsb' 0 8) with
    | some i => .ok i
    | none => .error .reservedOpcode
  else .error .reservedField

/-- The little-endian word of four bytes (R77). -/
def wordOfBytes (b0 b1 b2 b3 : Byte) : Word := b3 ++ b2 ++ b1 ++ b0

/-- The four bytes of a word, least significant first (R77). -/
def bytesOfWord (w : Word) : List Byte :=
  [w.extractLsb' 0 8, w.extractLsb' 8 8, w.extractLsb' 16 8, w.extractLsb' 24 8]

/-- Decode a command from bytes and give the rest; every command is one word (R106). -/
def decode : List Byte → Except DecodeError (Instr × List Byte)
  | b0 :: b1 :: b2 :: b3 :: rest =>
    match decodeWord (wordOfBytes b0 b1 b2 b3) with
    | .ok i => .ok (i, rest)
    | .error e => .error e
  | _ => .error .truncated

/-- The word of a command: opcode in [7:0], zeros in [31:8] (R101, R103). -/
def encode (i : Instr) : Word := (0 : BitVec 24) ++ opcode i

/-- The command word whose low `nbits` bits are those of `w`, every bit above them 0. -/
def tableWord (nbits w : Nat) : Word := BitVec.ofNat 32 (w % 2 ^ nbits)

/-- The command this decoder reads from an opcode-table word, through the bytes the host's bus carries. -/
def decodeTableWord (nbits w : Nat) : Option Instr :=
  match decode (bytesOfWord (tableWord nbits w)) with
  | .ok (i, _) => some i
  | .error _ => none

end Sys2Proof
end

