-- ==== Sys2Proof/Machine/Ports.lean ====
section
/-! DEFINITION. The engine's ports (R56): register names (10_state.md section 2), sequencer positions and requests
(R53, R174, R176), and the inputs the outside gives the machine (R7). -/

namespace Sys2Proof.Machine

/-- The registers of the register map; `cb i` and `ks i` are CB0 to CB3 and KS0 to KS3 (R33 to R48). -/
inductive Reg where
  | ctrl | status | cmd | keyBits | srcAddr | dstAddr | len | outLen
  | nonceLo | nonceHi | nonceRnd | seqLo | seqHi | shift | idx
  | cb (i : Fin 4)
  | ks (i : Fin 4)
  | reserved
deriving DecidableEq, Repr

/-- A position in a command's action list (R174, R176). The commands of one action stand at `a0`; GEN_KS has
`a0`, `b2`, `a3`; HDR_LOAD and HDR_STORE have `a0`, `a2`, `a3`. -/
inductive Action where
  | a0 | a1 | a2 | b1 | b2 | b3 | b4 | a3
deriving DecidableEq, Repr

/-- What the sequencer waits for: an answer of the cipher or of the data memory (R53, R83, R89). -/
inductive Request where
  | cipher (keyBits : Word) (block : Block)
  | read (addr len : Nat)
  | write (addr : Nat) (bytes : List Byte)
deriving DecidableEq, Repr

/-- The sequencer while a command runs (R53): the accepted word, the position in its action list, the block
index b, the block read at B3 and not yet written (R174), and the outstanding request. -/
structure Running where
  word : Word
  action : Action
  block : Nat
  latch : List Byte
  outstanding : Option Request
deriving DecidableEq, Repr

/-- The sequencer phase (R53). -/
inductive Phase where
  | idle
  | busy (r : Running)
deriving DecidableEq, Repr

/-- Who accesses data memory beside this engine (R7, R90): the host past its caches or another master of the bus, or
the engine instance with a number; this engine is number 0. Log 9. -/
inductive Master where
  | bus
  | engine (k : Nat)
deriving DecidableEq, Repr

/-- What the host or its cache does to cached copies of data memory (R88). Log 10. -/
inductive CacheOp where
  | fill | writeBack | invalidate
deriving DecidableEq, Repr

/-- One input of the machine (R7, R56). DESIGN CHOICE, log 1. -/
inductive Event where
  /-- a host write of `width` bytes at a platform address (R56 (1), R100) -/
  | hostWrite (addr width : Nat) (data : Word)
  /-- a host read of `width` bytes at a platform address -/
  | hostRead (addr width : Nat)
  /-- a host write of `w` to CMD together with the whole run of the command (R135, log 2) -/
  | command (w : Word)
  /-- the pseudo-operation `wait` of R108 -/
  | wait
  /-- the engine-side agent whose move is due moves (R7, log 17) -/
  | progress
  /-- the reset input (R250, R251) -/
  | reset
  /-- another master writes data memory (R84, R90) -/
  | masterWrite (who : Master) (addr : Nat) (bytes : List Byte)
  /-- another master reads data memory (R84, R90) -/
  | masterRead (who : Master) (addr len : Nat)
  /-- another engine instance accepts a command word; the ranges are those it will access, empty where a check before
  the first access fails (R90, R225) -/
  | otherAccepts (k : Nat) (w : Word) (src dst : Region)
  /-- the host of another engine instance reads its STATUS with BUSY = 0, or resets it (R84, R90, R251) -/
  | otherEnds (k : Nat)
  /-- the host stores to data memory through its caches (R84, R88) -/
  | hostStore (addr : Nat) (bytes : List Byte)
  /-- the host loads from data memory through its caches (R84, R88) -/
  | hostLoad (addr len : Nat)
  /-- a range of the host's caches is filled, written back or invalidated (R88) -/
  | hostCache (op : CacheOp) (addr len : Nat)
  /-- the host programs the cipher collaborator (R170, R257) -/
  | programCipher (c : Collaborator)
  /-- a cipher response to a request sent before a reset (R251) -/
  | staleCipherResponse (b : Block)
  /-- a cipher collaborator that reports an error (F3 of 93_implementation_defined.md) -/
  | cipherError
deriving DecidableEq, Repr

/-- What a command has changed: the bytes of data memory it has written, and whether it has replaced CB[0..8) and KS.
Log 11. -/
structure Progress where
  written : Region
  header : Bool
  ks : Bool
deriving DecidableEq, Repr

/-- A command accepted since its engine's host last read STATUS with BUSY = 0: the ranges no other agent may touch (R84,
R256), what it had changed when it ended, and what was touched all the same since its results were last settled.
Log 11. -/
structure Window where
  word : Word
  src : Region
  dst : Region
  progress : Progress
  readRaces : List Nat
  writeRaces : List Nat
  keyRaced : Bool
deriving DecidableEq, Repr

/-- An open command of another engine instance: the instance, and the command's window with what it is taken to change
(R84, R90). Log 9. -/
structure OtherCommand where
  owner : Nat
  window : Window
deriving DecidableEq, Repr

end Sys2Proof.Machine
end

