-- ==== Sys2Proof/Machine/State.lean ====
section
/-! DEFINITION. The state of one engine and its surroundings (R30), the reasons a step can stop, and reset. -/

namespace Sys2Proof.Machine

/-- CTRL (R33). The reserved bits hold no state (R48). -/
structure Ctrl where
  seqPresent : Bool
  ie : Bool
deriving DecidableEq, Repr

/-- The stored bits of STATUS (R34). BUSY is the phase (R53). -/
structure Status where
  done : Bool
  err : Bool
  ovr : Bool
  errcode : BitVec 4
deriving DecidableEq, Repr

/-- CB (R49): bytes [0..8) are the header, bytes [8..16) the counter field. -/
structure CounterBlock where
  header : Half
  counter : Half
deriving DecidableEq, Repr

/-- Data memory: what has been written, as (address, byte) pairs with strictly rising addresses. An address that
is not listed has not been written and holds a free byte (U7, log 3). -/
abbrev Memory := List Host.Cell

/-- The host's caches where the platform does not keep them coherent (R88): copies of data memory that were read, and
bytes that the host stored and has not written back. Log 10. -/
structure HostCache where
  clean : Memory
  dirty : Memory
deriving DecidableEq, Repr

structure State where
  ctrl : Ctrl
  status : Status
  keyBits : Word
  srcAddr : Word
  dstAddr : Word
  len : Word
  outLen : Word
  nonceLo : Word
  nonceHi : Word
  nonceRnd : BitVec 16
  seqLo : Word
  seqHi : Word
  idx : Word
  cb : CounterBlock
  ks : Block
  phase : Phase
  /-- data memory (R70 (b)) -/
  mem : Memory
  platform : Platform
  /-- P_CIPHER as the host programmed it (R170) -/
  cipher : Collaborator
  /-- the open hazard windows, newest first (R84) -/
  windows : List Window
  /-- the open commands of the platform's other engine instances (R84, R90; log 9) -/
  others : List OtherCommand
  /-- the host has written IDX since the last acceptance (R84, R261; log 14) -/
  idxWritten : Bool
  hostCache : HostCache
  /-- the data the slave port gave the last host read (R100) -/
  response : Option Word
  /-- the bytes data memory gave another master's last read (R84) -/
  dataResponse : List Byte
  /-- the inputs still to come, next first (log 1) -/
  events : List Event
  /-- MODEL'S OWN: how many free values have been drawn (log 4) -/
  draws : Nat
deriving DecidableEq, Repr

/-- Reasons the machine stops. The spec gives the engine no trap (R220); both are the model's own and safe:
nothing is claimed of a run past them. -/
inductive Fault where
  /-- An access at or past 2^32, where the data space has no address (R71). Raised by another agent's access, and by
  an engine access only in states that no run reaches (R72 is checked first). Safe. -/
  | outsideDataSpace
  /-- The sequencer stands at a position that its command's action list does not have. Raised by `progress`, only in
  states that no run reaches. Safe. -/
  | noSuchAction
deriving DecidableEq, Repr

/-- Inputs the model refuses. All are safe: no claim is made about a run that contains one. -/
inductive Refusal where
  /-- An instruction without a meaning yet. Raised by exec only. Safe. -/
  | notModelled (mnemonic : String)
  /-- A register access that is not 32 bits wide or not at a multiple of 4 (F1, R80). Raised by host accesses. Safe. -/
  | registerAccessForm
  /-- A command's buffer lies on a device register with side effects (F2, R79). Raised by the engine's accesses. Safe. -/
  | deviceBuffer
  /-- The cipher collaborator reported an error (F3). Raised by the input of that name. Safe. -/
  | cipherFailed
deriving DecidableEq, Repr

/-- Sixteen, or any number of, zero bytes (R10). -/
def zeroBytes (n : Nat) : Bytes n := Vector.replicate n 0

/-- The machine right after reset, in a system where nothing has happened yet: the engine as R250 says; no byte of
data memory written (log 3) and none cached; a coherent platform with one engine and without dead or device regions
(log 5, 6, 8, 9, 10); the external cipher (log 7). -/
def State.reset : State where
  ctrl := ⟨false, false⟩
  status := ⟨false, false, false, 0⟩
  keyBits := 0
  srcAddr := 0
  dstAddr := 0
  len := 0
  outLen := 0
  nonceLo := 0
  nonceHi := 0
  nonceRnd := 0
  seqLo := 0
  seqHi := 0
  idx := 0
  cb := ⟨zeroBytes 8, zeroBytes 8⟩
  ks := zeroBytes 16
  phase := .idle
  mem := []
  platform := ⟨0, [], [], true, 1⟩
  cipher := .device 0
  windows := []
  others := []
  idxWritten := false
  hostCache := ⟨[], []⟩
  response := none
  dataResponse := []
  events := []
  draws := 0

end Sys2Proof.Machine
end

