-- ==== Sys2Proof/Machine/Bytes.lean ====
section
/-! DEFINITION. Byte strings and byte orders (R9, R10, R77). -/

namespace Sys2Proof.Machine

/-- le16 (R10). -/
def le16 (v : BitVec 16) : Bytes 2 := #v[v.extractLsb' 0 8, v.extractLsb' 8 8]

/-- le32 (R10): least significant byte first. -/
def le32 (v : Word) : Bytes 4 :=
  #v[v.extractLsb' 0 8, v.extractLsb' 8 8, v.extractLsb' 16 8, v.extractLsb' 24 8]

/-- be32 (R10): most significant byte first. -/
def be32 (v : Word) : Bytes 4 :=
  #v[v.extractLsb' 24 8, v.extractLsb' 16 8, v.extractLsb' 8 8, v.extractLsb' 0 8]

/-- le32val (R10), the inverse of le32. -/
def le32val (b : Bytes 4) : Word := wordOfBytes b[0] b[1] b[2] b[3]

/-- `B ++ C` (R10) for strings of fixed length. -/
def joinBytes {n m : Nat} (b : Bytes n) (c : Bytes m) : Bytes (n + m) :=
  ⟨⟨b.toList ++ c.toList⟩, by simp⟩

/-- Bytes 4k to 4k+3 of a half (R77). -/
def halfWord (h : Half) : Fin 2 → Bytes 4
  | 0 => #v[h[0], h[1], h[2], h[3]]
  | 1 => #v[h[4], h[5], h[6], h[7]]

/-- Bytes 4i to 4i+3 of a block (R47, R77). -/
def blockWord (b : Block) : Fin 4 → Bytes 4
  | 0 => #v[b[0], b[1], b[2], b[3]]
  | 1 => #v[b[4], b[5], b[6], b[7]]
  | 2 => #v[b[8], b[9], b[10], b[11]]
  | 3 => #v[b[12], b[13], b[14], b[15]]

/-- A block on the cipher port: byte i on bits [8i+7:8i] (R56 (3), R170). -/
def portData (b : Block) : BitVec 128 :=
  b[15] ++ b[14] ++ b[13] ++ b[12] ++ b[11] ++ b[10] ++ b[9] ++ b[8] ++ b[7] ++ b[6] ++ b[5] ++ b[4] ++ b[3] ++ b[2] ++
    b[1] ++ b[0]

/-- The block that port data carries (R56 (3), R170). -/
def portBlock (v : BitVec 128) : Block := Vector.ofFn fun i => v.extractLsb' (8 * i.val) 8

/-- The sixteen bytes of CB (R49). -/
def CounterBlock.bytes (cb : CounterBlock) : Block := joinBytes cb.header cb.counter

/-- The first eight bytes of a byte string, as a header. Every use gives it eight bytes. -/
def halfOfList (bs : List Byte) : Half :=
  #v[bs.getD 0 0, bs.getD 1 0, bs.getD 2 0, bs.getD 3 0, bs.getD 4 0, bs.getD 5 0, bs.getD 6 0, bs.getD 7 0]

/-- `B xor K` (R10); the result is as long as the shorter string. -/
def xorBytes (b k : List Byte) : List Byte := List.zipWith (· ^^^ ·) b k

end Sys2Proof.Machine
end

