-- ==== Sys2Proof/Machine/Packing.lean ====
section
/-! DEFINITION. The counter-block codec's functions (R150 to R154) and the block functions (R172). -/

namespace Sys2Proof.Machine

/-- bitlength (R150; bitlength(0) = 0 by C1 of 90_conflicts.md). -/
def bitLength (s : BitVec 64) : Nat := if s = 0 then 0 else 1 + Nat.log2 s.toNat

/-- lz64 (R150). -/
def lz64 (s : BitVec 64) : Nat := 64 - bitLength s

/-- shiftOf (R151). -/
def shiftOf (p : Bool) (s : BitVec 64) : Nat := if p then lz64 s else 8

/-- shr (R9): zero for a shift of 64 or more. -/
def shr (v : BitVec 64) (s : Nat) : BitVec 64 := if 64 ≤ s then 0 else v >>> s

/-- seqWord (R152): the low 32 bits of the shifted sequence; an absent sequence is 0. -/
def seqWord (p : Bool) (s : BitVec 64) : Word :=
  (shr (if p then s else 0) (shiftOf p s)).setWidth 32

/-- packNonce (R153). -/
def packNonce (n : BitVec 64) (r : BitVec 16) : Half :=
  joinBytes (joinBytes (le16 (BitVec.ofNat 16 (n.toNat % 1000))) (le16 r))
    (le32 (BitVec.ofNat 32 (n.toNat / 1000)))

/-- encodeCounter (R154): the sequence word, then the low 32 bits of the index, each big-endian. -/
def encodeCounter (i : Nat) (p : Bool) (s : BitVec 64) : Half :=
  joinBytes (be32 (seqWord p s)) (be32 (BitVec.ofNat 32 i))

/-- blockCount (R172). -/
def blockCount (m : Nat) : Nat := (m + 15) / 16

/-- blockLen (R172). -/
def blockLen (m b : Nat) : Nat := min 16 (m - 16 * b)

/-- P_CIPHER (R8, R14): the test cipher ID, or the external device under its key schedule. -/
def pCipher : Collaborator → Word → Block → Block
  | .identity, _, b => b
  | .device schedule, kb, b => portBlock (Config.deviceCipher schedule kb (portData b))

/-- The keystream of block b of a packet with header h: Cipher(kb, h ++ encodeCounter(b, p, s)) (R172). -/
def keystream (c : Collaborator) (kb : Word) (h : Half) (p : Bool) (s : BitVec 64) (b : Nat) : Block :=
  pCipher c kb (joinBytes h (encodeCounter b p s))

/-- ctrBody (R172): byte j of the body is XORed with byte j mod 16 of the keystream of block j div 16. -/
def ctrBody (c : Collaborator) (kb : Word) (h : Half) (x : List Byte) (p : Bool) (s : BitVec 64) : List Byte :=
  (List.range (blockCount x.length)).flatMap fun b =>
    xorBytes ((x.drop (16 * b)).take (blockLen x.length b))
      ((keystream c kb h p s b).toList.take (blockLen x.length b))

end Sys2Proof.Machine
end

