-- ==== Sys2Proof/Machine/Flags.lean ====
section
/-! DEFINITION. STATUS: its bits, its clearing, the error codes and the interrupt (R34, R54, R55, R221). -/

namespace Sys2Proof.Machine

/-- The error codes of R221. -/
inductive ErrCode where
  | illegal | keysize | short | range | overlap | bus
deriving DecidableEq, Repr

/-- ERRCODE of an error (R221). -/
def errNumber : ErrCode → BitVec 4
  | .illegal => 1
  | .keysize => 2
  | .short => 3
  | .range => 4
  | .overlap => 5
  | .bus => 6

/-- STATUS.BUSY: the sequencer is not idle (R53). -/
def State.busy (s : State) : Bool := decide (s.phase ≠ .idle)

/-- STATUS as the host reads it (R34): BUSY, DONE, ERR, OVR, zeros, ERRCODE, zeros. -/
def State.statusWord (s : State) : Word :=
  (0 : BitVec 20) ++ s.status.errcode ++ (0 : BitVec 4) ++ BitVec.ofBool s.status.ovr ++
    BitVec.ofBool s.status.err ++ BitVec.ofBool s.status.done ++ BitVec.ofBool s.busy

/-- A host write to STATUS (R34): write one to clear DONE, ERR (and with it ERRCODE) and OVR. -/
def Status.clear (st : Status) (w : Word) : Status where
  done := st.done && !w.getLsbD 1
  err := st.err && !w.getLsbD 2
  ovr := st.ovr && !w.getLsbD 3
  errcode := if w.getLsbD 2 then 0 else st.errcode

/-- Flags at acceptance (R130): DONE, ERR and ERRCODE fall, OVR stays. -/
def Status.accepted (st : Status) : Status := { st with done := false, err := false, errcode := 0 }

/-- Flags at successful completion (R132). -/
def Status.completed (st : Status) : Status := { st with done := true }

/-- Flags at completion with an error (R133). -/
def Status.failed (st : Status) (c : ErrCode) : Status := { st with err := true, errcode := errNumber c }

/-- A write was dropped (R51, R131, R228). -/
def Status.overrun (st : Status) : Status := { st with ovr := true }

/-- The interrupt output (R55, R232). -/
def State.irq (s : State) : Bool := s.ctrl.ie && (s.status.done || s.status.err)

end Sys2Proof.Machine
end

