-- ==== Sys2Proof/Machine/Operands.lean ====
section
/-! DEFINITION. Operand assembly (R102), range and overlap (R72, R73) and the checks before a command's first access
(R223 to R226, in the order of R229). -/

namespace Sys2Proof.Machine

/-- NONCE, from its register pair (R41, R102). -/
def State.nonce (s : State) : BitVec 64 := s.nonceHi ++ s.nonceLo

/-- SEQ, from its register pair (R43, R102). -/
def State.seq (s : State) : BitVec 64 := s.seqHi ++ s.seqLo

/-- A byte address of the data space (R71). -/
def State.src (s : State) : Nat := s.srcAddr.toNat

/-- A byte address of the data space (R71). -/
def State.dst (s : State) : Nat := s.dstAddr.toNat

/-- LEN as a number (R39). -/
def State.length (s : State) : Nat := s.len.toNat

/-- The header ENCRYPT and INIT_CB use (R153). -/
def State.packedNonce (s : State) : Half := packNonce s.nonce s.nonceRnd

/-- A legal key size (R36). -/
def legalKeyBits (kb : Word) : Bool := kb == 128 || kb == 192 || kb == 256

/-- valid(a, n) (R72). -/
def validRange (a n : Nat) : Bool := decide (a + n ≤ dataSpaceBytes)

/-- overlap(a, n, c, m) (R73). -/
def overlap (a n c m : Nat) : Bool := decide (0 < n ∧ 0 < m ∧ a < c + m ∧ c < a + n)

/-- The first check that fails, in the order of the list (R229). -/
def firstError : List (Bool × ErrCode) → Option ErrCode
  | [] => none
  | (passes, c) :: rest => if passes then firstError rest else some c

/-- GEN_KS: KEYSIZE (R171, R229). -/
def genKsCheck (s : State) : Option ErrCode := firstError [(legalKeyBits s.keyBits, .keysize)]

/-- HDR_LOAD: RANGE (R201, R229). -/
def hdrLoadCheck (s : State) : Option ErrCode := firstError [(validRange s.src 8, .range)]

/-- HDR_STORE: RANGE (R202, R229). -/
def hdrStoreCheck (s : State) : Option ErrCode := firstError [(validRange s.dst 8, .range)]

/-- ENCRYPT: KEYSIZE, RANGE of the source, RANGE of the destination, OVERLAP (R173, R229). -/
def encryptCheck (s : State) : Option ErrCode :=
  firstError
    [(legalKeyBits s.keyBits, .keysize),
     (validRange s.src s.length, .range),
     (validRange s.dst (s.length + 8), .range),
     (!overlap s.src s.length s.dst (s.length + 8), .overlap)]

/-- DECRYPT: KEYSIZE, SHORT, RANGE of the source, RANGE of the destination, OVERLAP (R175, R229). -/
def decryptCheck (s : State) : Option ErrCode :=
  firstError
    [(legalKeyBits s.keyBits, .keysize),
     (decide (8 ≤ s.length), .short),
     (validRange s.src s.length, .range),
     (validRange s.dst (s.length - 8), .range),
     (!overlap s.src s.length s.dst (s.length - 8), .overlap)]

/-- What ENCRYPT and DECRYPT transform: a body of `bodyLen` bytes from `inBase` to `outBase` (R172, R200). -/
structure StreamJob where
  bodyLen : Nat
  inBase : Nat
  outBase : Nat
deriving DecidableEq, Repr

/-- ENCRYPT's body: LEN bytes at SRC_ADDR, to DST_ADDR + 8 (R173, R200). -/
def State.encryptJob (s : State) : StreamJob := ⟨s.length, s.src, s.dst + 8⟩

/-- DECRYPT's body: LEN - 8 bytes at SRC_ADDR + 8, to DST_ADDR (R175, R200). -/
def State.decryptJob (s : State) : StreamJob := ⟨s.length - 8, s.src + 8, s.dst⟩

end Sys2Proof.Machine
end

