-- ==== Sys2Proof/Machine/Ops.lean ====
section
/-! DEFINITION. The shared operations: data memory (R70 to R75), free draws, the cipher exchange (R170), acceptance
(R130), completion (R132) and ending with an error (R133, this engine's exceptions: R220). -/

namespace Sys2Proof.Machine

/-! Data memory as a list of (address, byte) pairs with strictly rising addresses. -/

/-- The byte written last at an address, if any. -/
def Memory.find : Memory → Nat → Option Byte
  | [], _ => none
  | c :: m, a => if c.1 = a then some c.2 else Memory.find m a

/-- The byte held at an address (R74); one never written holds a free byte (U7, log 3). -/
def Memory.byte (m : Memory) (a : Nat) : Byte := (Memory.find m a).getD (Config.initialByte a)

/-- Write one byte; the list keeps its canonical form. -/
def Memory.store : Memory → Nat → Byte → Memory
  | [], a, b => [(a, b)]
  | c :: m, a, b =>
    if a < c.1 then (a, b) :: c :: m
    else if a = c.1 then (a, b) :: m
    else c :: Memory.store m a b

/-- The n bytes at a, a + 1, … (R12, R74). -/
def Memory.bytes (m : Memory) (a n : Nat) : List Byte := (List.range n).map fun i => Memory.byte m (a + i)

/-- Byte i of the string to a + i (R12, R75). -/
def Memory.storeBytes : Memory → Nat → List Byte → Memory
  | m, _, [] => m
  | m, a, b :: bs => Memory.storeBytes (Memory.store m a b) (a + 1) bs

/-- Forget the n bytes at a, a + 1, …: they are no longer listed. -/
def Memory.erase (m : Memory) (a n : Nat) : Memory := m.filter fun c => !decide (a ≤ c.1 ∧ c.1 < a + n)

/-- The canonical form: addresses strictly rising and inside the data space. An address not listed reads as no
written value, so no entry can equal it (log 3). -/
abbrev Memory.wf (m : Memory) : Prop := m.Pairwise (fun c d => c.1 < d.1) ∧ ∀ c ∈ m, c.1 < dataSpaceBytes

/-- The address lies in the region. -/
def inRegion (r : Region) (a : Nat) : Bool := decide (r.base ≤ a ∧ a < r.base + r.len)

/-- P_BUSOK (R8, D16; log 5). -/
def State.busOk (s : State) (a : Nat) : Bool := s.platform.dead.all fun r => !inRegion r a

/-- The address is a device register with side effects (R79; log 8). -/
def State.isDevice (s : State) (a : Nat) : Bool := s.platform.devices.any fun r => inRegion r a

/-- Every address of [a, a + n) satisfies a test. -/
def allInRange (a n : Nat) (test : Nat → Bool) : Bool := (List.range n).all fun i => test (a + i)

/-- What becomes of an access of n bytes at a. -/
inductive Verdict where
  | ok
  | busError
  | device
  | outside
deriving DecidableEq, Repr

/-- R74 and R75: an access succeeds iff every byte answers. A device register is refused (R79, F2; log 8). An access
that leaves the data space is none of the engine's (R71). -/
def State.verdict (s : State) (a n : Nat) : Verdict :=
  if dataSpaceBytes < a + n then .outside
  else if !allInRange a n (fun x => !s.isDevice x) then .device
  else if allInRange a n s.busOk then .ok
  else .busError

/-- Put a free byte at each address of a list, in order (R75, R251, R256; log 4). -/
def State.scramble : List Nat → State → State
  | [], s => s
  | a :: as, s =>
    State.scramble as { s with mem := Memory.store s.mem a (Config.freeByte s.draws), draws := s.draws + 1 }

/-- The addresses a, …, a + n - 1. -/
def addresses (a n : Nat) : List Nat := (List.range n).map (a + ·)

/-! How a command goes on. -/

/-- A command after one of its actions: it goes on in a state, or the step is over. -/
inductive Flow where
  | cont (s : State)
  | stop (o : Host.Outcome State Fault Refusal)

/-- Run the rest of a command, unless it is over. -/
def Flow.andThen : Flow → (State → Host.Outcome State Fault Refusal) → Host.Outcome State Fault Refusal
  | .cont s, k => k s
  | .stop o, _ => o

/-- MemRead (R12, R74): the bytes go to `k`; after a bus error `bus` ends the command. -/
def State.readThen (s : State) (a n : Nat) (bus : State → State) (k : List Byte → Flow) : Flow :=
  match s.verdict a n with
  | .ok => k (Memory.bytes s.mem a n)
  | .busError => .stop (.next (bus s))
  | .device => .stop (.refused .deviceBuffer)
  | .outside => .stop (.fault .outsideDataSpace)

/-- MemWrite (R12, R75): after a bus error every byte of the access is free and `bus` ends the command. -/
def State.writeThen (s : State) (a : Nat) (bs : List Byte) (bus : State → State) (k : State → Flow) : Flow :=
  match s.verdict a bs.length with
  | .ok => k { s with mem := Memory.storeBytes s.mem a bs }
  | .busError => .stop (.next (bus (State.scramble (addresses a bs.length) s)))
  | .device => .stop (.refused .deviceBuffer)
  | .outside => .stop (.fault .outsideDataSpace)

/-- KS <- Cipher(KEY_BITS, CB) (R14, R170). -/
def State.cipherExchange (s : State) : State := { s with ks := pCipher s.cipher s.keyBits s.cb.bytes }

/-- `complete` (R132). -/
def State.complete (s : State) : State := { s with status := s.status.completed, phase := .idle }

/-- `raise Error(c)` (R13, R133, R220): the one way a command ends with an error. -/
def State.raiseError (c : ErrCode) (s : State) : State :=
  { s with status := s.status.failed c, phase := .idle }

/-- `fail(c)` of ENCRYPT and DECRYPT (R173, R175): KS and OUT_LEN are zeroed, then the error is raised. -/
def State.failStream (c : ErrCode) (s : State) : State :=
  ({ s with ks := zeroBytes 16, outLen := 0 } : State).raiseError c

/-- The ranges a command will access (R225), none when a check before the first access fails. -/
def State.ranges (s : State) : Except DecodeError Instr → Region × Region
  | .ok .hdrLoad => if hdrLoadCheck s = none then (⟨s.src, 8⟩, ⟨0, 0⟩) else (⟨0, 0⟩, ⟨0, 0⟩)
  | .ok .hdrStore => if hdrStoreCheck s = none then (⟨0, 0⟩, ⟨s.dst, 8⟩) else (⟨0, 0⟩, ⟨0, 0⟩)
  | .ok .encrypt =>
    if encryptCheck s = none then (⟨s.src, s.length⟩, ⟨s.dst, s.length + 8⟩) else (⟨0, 0⟩, ⟨0, 0⟩)
  | .ok .decrypt =>
    if decryptCheck s = none then (⟨s.src, s.length⟩, ⟨s.dst, s.length - 8⟩) else (⟨0, 0⟩, ⟨0, 0⟩)
  | _ => (⟨0, 0⟩, ⟨0, 0⟩)

/-- The address belongs to a range of the window (R84). -/
def Window.watches (w : Window) (a : Nat) : Bool := inRegion w.src a || inRegion w.dst a

/-- Note the addresses of a window's ranges among those that another agent has read (R84). -/
def Window.noteReads (w : Window) (as : List Nat) : Window :=
  { w with readRaces := w.readRaces ++ as.filter w.watches }

/-- Note the addresses of a window's ranges among those that another agent has written (R84, R256). -/
def Window.noteWrites (w : Window) (as : List Nat) : Window :=
  { w with writeRaces := w.writeRaces ++ as.filter w.watches }

/-- Two commands of different instances open at the same time: where the ranges overlap, the other, `v`, is taken to read
its source and to write its destination (R90). DESIGN CHOICE of form, log 9. -/
def Window.meet (w v : Window) : Window :=
  (w.noteReads (addresses v.src.base v.src.len)).noteWrites (addresses v.dst.base v.dst.len)

/-- A command of another instance meets one that opens beside it (R90). -/
def OtherCommand.meet (o : OtherCommand) (v : Window) : OtherCommand := { o with window := o.window.meet v }

/-- The hazard window that the acceptance of a word opens (R84, R90, R256, R261; log 9, 11). -/
def State.newWindow (s : State) (w : Word) : Window :=
  (s.others.map OtherCommand.window).foldl Window.meet
    ⟨w, (s.ranges (decodeWord w)).1, (s.ranges (decodeWord w)).2, ⟨⟨0, 0⟩, false, false⟩, [], [], false⟩

/-- Acceptance of a command word (R130): DONE, ERR and ERRCODE fall, the sequencer stands at its first action. The open
commands of the other instances meet it, and it meets them (R90). -/
def State.accept (s : State) (w : Word) : State :=
  { s with
    status := s.status.accepted
    phase := .busy ⟨w, .a0, 0, [], none⟩
    windows := s.newWindow w :: s.windows
    others := s.others.map fun o => o.meet (s.newWindow w)
    idxWritten := false }

/-- A host write is dropped while BUSY = 1 (R51, R131, R228). -/
def State.dropWrite (s : State) : State := { s with status := s.status.overrun }

end Sys2Proof.Machine
end

