-- ==== Sys2Proof/Machine/Control.lean ====
section
/-! DEFINITION. NOP (R137) and the effect of an ILLEGAL word (R138). A meaning runs after acceptance (R130). -/

namespace Sys2Proof.Machine

/-- NOP (R137). -/
def execNop (s : State) : Host.Outcome State Fault Refusal := .next s.complete

/-- ILLEGAL (R138, R222): the effect of an accepted word outside the opcode map. -/
def execIllegal (s : State) : Host.Outcome State Fault Refusal := .next (s.raiseError .illegal)

end Sys2Proof.Machine
end

