-- ==== Sys2Proof/Machine/Codec.lean ====
section
/-! DEFINITION. INIT_CB (R155) and ENCODE_IDX (R156). -/

namespace Sys2Proof.Machine

/-- CB[0..8) <- h (R11). -/
def State.setHeader (s : State) (h : Half) : State := { s with cb := { s.cb with header := h } }

/-- CB[8..16) <- h (R11). -/
def State.setCounter (s : State) (h : Half) : State := { s with cb := { s.cb with counter := h } }

/-- INIT_CB (R155). -/
def execInitCb (s : State) : Host.Outcome State Fault Refusal :=
  .next (s.setHeader s.packedNonce).complete

/-- ENCODE_IDX (R156). -/
def execEncodeIdx (s : State) : Host.Outcome State Fault Refusal :=
  .next (s.setCounter (encodeCounter s.idx.toNat s.ctrl.seqPresent s.seq)).complete

end Sys2Proof.Machine
end

