-- ==== Sys2Proof/Machine/Framing.lean ====
section
/-! DEFINITION. HDR_LOAD (R201) and HDR_STORE (R202). -/

namespace Sys2Proof.Machine

/-- HDR_LOAD (R201): the header is taken verbatim (R203). -/
def execHdrLoad (s : State) : Host.Outcome State Fault Refusal :=
  match hdrLoadCheck s with
  | some c => .next (s.raiseError c)
  | none =>
    (s.readThen s.src 8 (State.raiseError .bus) fun h => .cont (s.setHeader (halfOfList h))).andThen
      fun s' => .next s'.complete

/-- HDR_STORE (R202). -/
def execHdrStore (s : State) : Host.Outcome State Fault Refusal :=
  match hdrStoreCheck s with
  | some c => .next (s.raiseError c)
  | none =>
    (s.writeThen s.dst s.cb.header.toList (State.raiseError .bus) .cont).andThen
      fun s' => .next s'.complete

end Sys2Proof.Machine
end

