-- ==== Sys2Proof/Machine/Stream.lean ====
section
/-! DEFINITION. GEN_KS (R171), ENCRYPT (R173) and DECRYPT (R175). -/

namespace Sys2Proof.Machine

/-- GEN_KS (R171). -/
def execGenKs (s : State) : Host.Outcome State Fault Refusal :=
  match genKsCheck s with
  | some c => .next (s.raiseError c)
  | none => .next s.cipherExchange.complete

/-- IDX <- b and CB[8..16) <- encodeCounter(b, p, s): action B1(b) of R174 and R176. -/
def State.startBlock (s : State) (b : Nat) : State :=
  ({ s with idx := BitVec.ofNat 32 b } : State).setCounter (encodeCounter b s.ctrl.seqPresent s.seq)

/-- One iteration of the block loop, the same in ENCRYPT and DECRYPT (R173, R175, R177): actions B1 to B4. -/
def streamBlock (j : StreamJob) (b : Nat) (s : State) : Flow :=
  let s' := (s.startBlock b).cipherExchange
  s'.readThen (j.inBase + 16 * b) (blockLen j.bodyLen b) (State.failStream .bus) fun x =>
    s'.writeThen (j.outBase + 16 * b) (xorBytes x (s'.ks.toList.take (blockLen j.bodyLen b)))
      (State.failStream .bus) .cont

/-- The block loop: `todo` blocks from block b on, in index order. -/
def streamBlocks (j : StreamJob) : (todo b : Nat) → State → Flow
  | 0, _, s => .cont s
  | todo + 1, b, s =>
    match streamBlock j b s with
    | .cont s' => streamBlocks j todo (b + 1) s'
    | .stop o => .stop o

/-- Action A3 of R174 and R176: IDX, KS and OUT_LEN at success, then completion. -/
def State.finishStream (s : State) (bodyLen outLen : Nat) : State :=
  ({ s with
    idx := BitVec.ofNat 32 (blockCount bodyLen)
    ks := zeroBytes 16
    outLen := BitVec.ofNat 32 outLen } : State).complete

/-- ENCRYPT's action A1: IDX <- 0 and CB[0..8) <- packNonce(NONCE, R) (R173, R174). -/
def State.encryptStart (s : State) : State := ({ s with idx := 0 } : State).setHeader s.packedNonce

/-- ENCRYPT (R173, R174). -/
def execEncrypt (s : State) : Host.Outcome State Fault Refusal :=
  match encryptCheck s with
  | some c => .next (s.failStream c)
  | none =>
    (s.encryptStart.writeThen s.dst s.packedNonce.toList (State.failStream .bus) fun s' =>
      streamBlocks s.encryptJob (blockCount s.encryptJob.bodyLen) 0 s').andThen
      fun s' => .next (s'.finishStream s.encryptJob.bodyLen (s.length + 8))

/-- DECRYPT (R175, R176). -/
def execDecrypt (s : State) : Host.Outcome State Fault Refusal :=
  match decryptCheck s with
  | some c => .next (s.failStream c)
  | none =>
    (State.readThen { s with idx := 0 } s.src 8 (State.failStream .bus) fun h =>
      streamBlocks s.decryptJob (blockCount s.decryptJob.bodyLen) 0
        (State.setHeader { s with idx := 0 } (halfOfList h))).andThen
      fun s' => .next (s'.finishStream s.decryptJob.bodyLen s.decryptJob.bodyLen)

end Sys2Proof.Machine
end

