-- ==== Sys2Proof/Machine/Dispatch.lean ====
section
/-! DEFINITION. One arm per command. A meaning is the command's whole action list after acceptance (R130, R135). -/

namespace Sys2Proof.Machine

def exec (i : Instr) (s : State) : Host.Outcome State Fault Refusal :=
  match i with
  | .nop => Sys2Proof.Machine.execNop s
  | .initCb => Sys2Proof.Machine.execInitCb s
  | .encodeIdx => Sys2Proof.Machine.execEncodeIdx s
  | .genKs => Sys2Proof.Machine.execGenKs s
  | .hdrLoad => Sys2Proof.Machine.execHdrLoad s
  | .hdrStore => Sys2Proof.Machine.execHdrStore s
  | .encrypt => Sys2Proof.Machine.execEncrypt s
  | .decrypt => Sys2Proof.Machine.execDecrypt s

end Sys2Proof.Machine
end

