-- ==== Sys2Proof/Machine/Sequencer.lean ====
section
/-! DEFINITION. The sequencer one action at a time (R53, R83, R89, R174, R176): the small-step reading of a command.
An access or a cipher exchange is two moves, the request and the answer (log 16). -/

namespace Sys2Proof.Machine

/-- Stand at a position of the action list, with nothing outstanding. -/
def State.goTo (s : State) (r : Running) (a : Action) : State :=
  { s with phase := .busy { r with action := a, outstanding := none } }

/-- Send a request to the cipher or to data memory (R83, R89). -/
def State.request (s : State) (r : Running) (q : Request) : State :=
  { s with phase := .busy { r with outstanding := some q } }

/-- Stand before block b, or at A3 when no block is left (R172, R174, R176). -/
def State.nextBlock (s : State) (r : Running) (j : StreamJob) (b : Nat) : State :=
  if b < blockCount j.bodyLen then s.goTo { r with block := b } .b1 else s.goTo r .a3

/-- What the first action does when the checks of R229 have been made. -/
def afterCheck (s : State) (r : Running) (fail : ErrCode → State → State) (next : Action) :
    Option ErrCode → Host.Outcome State Fault Refusal
  | some c => .next (fail c s)
  | none => .next (s.goTo r next)

/-- The sequencer's move in GEN_KS (R171). -/
def genKsMove (r : Running) (s : State) : Host.Outcome State Fault Refusal :=
  match r.action with
  | .a0 => afterCheck s r State.raiseError .b2 (genKsCheck s)
  | .b2 => .next (s.request r (.cipher s.keyBits s.cb.bytes))
  | .a3 => .next s.complete
  | _ => .fault .noSuchAction

/-- The sequencer's move in HDR_LOAD (R201). -/
def hdrLoadMove (r : Running) (s : State) : Host.Outcome State Fault Refusal :=
  match r.action with
  | .a0 => afterCheck s r State.raiseError .a2 (hdrLoadCheck s)
  | .a2 => .next (s.request r (.read s.src 8))
  | .a3 => .next s.complete
  | _ => .fault .noSuchAction

/-- The sequencer's move in HDR_STORE (R202). -/
def hdrStoreMove (r : Running) (s : State) : Host.Outcome State Fault Refusal :=
  match r.action with
  | .a0 => afterCheck s r State.raiseError .a2 (hdrStoreCheck s)
  | .a2 => .next (s.request r (.write s.dst s.cb.header.toList))
  | .a3 => .next s.complete
  | _ => .fault .noSuchAction

/-- The sequencer's move in the block loop and at A3, the same in ENCRYPT and DECRYPT (R174, R176). -/
def streamMove (j : StreamJob) (outLen : Nat) (r : Running) (s : State) : Host.Outcome State Fault Refusal :=
  match r.action with
  | .b1 => .next ((s.startBlock r.block).goTo r .b2)
  | .b2 => .next (s.request r (.cipher s.keyBits s.cb.bytes))
  | .b3 => .next (s.request r (.read (j.inBase + 16 * r.block) (blockLen j.bodyLen r.block)))
  | .b4 =>
    .next (s.request r (.write (j.outBase + 16 * r.block)
      (xorBytes r.latch (s.ks.toList.take (blockLen j.bodyLen r.block)))))
  | .a3 => .next (s.finishStream j.bodyLen outLen)
  | _ => .fault .noSuchAction

/-- The sequencer's move in ENCRYPT (R174). -/
def encryptMove (r : Running) (s : State) : Host.Outcome State Fault Refusal :=
  match r.action with
  | .a0 => afterCheck s r State.failStream .a1 (encryptCheck s)
  | .a1 => .next (s.encryptStart.goTo r .a2)
  | .a2 => .next (s.request r (.write s.dst s.cb.header.toList))
  | _ => streamMove s.encryptJob (s.length + 8) r s

/-- The sequencer's move in DECRYPT (R176). -/
def decryptMove (r : Running) (s : State) : Host.Outcome State Fault Refusal :=
  match r.action with
  | .a0 => afterCheck s r State.failStream .a1 (decryptCheck s)
  | .a1 => .next (({ s with idx := 0 } : State).goTo r .a2)
  | .a2 => .next (s.request r (.read s.src 8))
  | _ => streamMove s.decryptJob s.decryptJob.bodyLen r s

/-- The sequencer performs the action it stands at; NOP, ILLEGAL, INIT_CB and ENCODE_IDX are one action (R134). -/
def sequencerMove (r : Running) (s : State) : Host.Outcome State Fault Refusal :=
  match decodeWord r.word with
  | .error _ => execIllegal s
  | .ok .nop => execNop s
  | .ok .initCb => execInitCb s
  | .ok .encodeIdx => execEncodeIdx s
  | .ok .genKs => genKsMove r s
  | .ok .hdrLoad => hdrLoadMove r s
  | .ok .hdrStore => hdrStoreMove r s
  | .ok .encrypt => encryptMove r s
  | .ok .decrypt => decryptMove r s

/-- The cipher collaborator answers: the response is stored in KS (R170). -/
def cipherMove (r : Running) (kb : Word) (b : Block) (s : State) : Host.Outcome State Fault Refusal :=
  match decodeWord r.word with
  | .ok .genKs => .next (({ s with ks := pCipher s.cipher kb b } : State).goTo r .a3)
  | .ok .encrypt | .ok .decrypt => .next (({ s with ks := pCipher s.cipher kb b } : State).goTo r .b3)
  | _ => .fault .noSuchAction

/-- How a bus error ends a command (R227, R231). -/
def State.busError (s : State) (r : Running) : State :=
  match decodeWord r.word with
  | .ok .encrypt | .ok .decrypt => s.failStream .bus
  | _ => s.raiseError .bus

/-- Data memory answers a read with data (R74, R174, R176, R201). -/
def afterRead (r : Running) (bs : List Byte) (s : State) : Host.Outcome State Fault Refusal :=
  match decodeWord r.word, r.action with
  | .ok .hdrLoad, .a2 => .next ((s.setHeader (halfOfList bs)).goTo r .a3)
  | .ok .decrypt, .a2 => .next ((s.setHeader (halfOfList bs)).nextBlock r s.decryptJob 0)
  | .ok .encrypt, .b3 | .ok .decrypt, .b3 => .next (s.goTo { r with latch := bs } .b4)
  | _, _ => .fault .noSuchAction

/-- Data memory has done a write (R75, R174, R176, R202). -/
def afterWrite (r : Running) (s : State) : Host.Outcome State Fault Refusal :=
  match decodeWord r.word, r.action with
  | .ok .hdrStore, .a2 => .next (s.goTo r .a3)
  | .ok .encrypt, .a2 => .next (s.nextBlock r s.encryptJob 0)
  | .ok .encrypt, .b4 => .next (s.nextBlock { r with latch := [] } s.encryptJob (r.block + 1))
  | .ok .decrypt, .b4 => .next (s.nextBlock { r with latch := [] } s.decryptJob (r.block + 1))
  | _, _ => .fault .noSuchAction

/-- Data memory answers a read (R74). -/
def readMove (r : Running) (a n : Nat) (s : State) : Host.Outcome State Fault Refusal :=
  match s.verdict a n with
  | .ok => afterRead r (Memory.bytes s.mem a n) s
  | .busError => .next (s.busError r)
  | .device => .refused .deviceBuffer
  | .outside => .fault .outsideDataSpace

/-- Data memory answers a write (R75). -/
def writeMove (r : Running) (a : Nat) (bs : List Byte) (s : State) : Host.Outcome State Fault Refusal :=
  match s.verdict a bs.length with
  | .ok => afterWrite r { s with mem := Memory.storeBytes s.mem a bs }
  | .busError => .next ((State.scramble (addresses a bs.length) s).busError r)
  | .device => .refused .deviceBuffer
  | .outside => .fault .outsideDataSpace

/-- The move of the engine-side agent whose move is due: whoever holds the outstanding request, else the sequencer.
An idle engine does nothing (R240; log 17). -/
def engineMove (s : State) : Host.Outcome State Fault Refusal :=
  match s.phase with
  | .idle => .next s
  | .busy r =>
    match r.outstanding with
    | none => sequencerMove r s
    | some (.cipher kb b) => cipherMove r kb b s
    | some (.read a n) => readMove r a n s
    | some (.write a bs) => writeMove r a bs s

end Sys2Proof.Machine
end

