-- ==== Sys2Proof/Machine/Hazards.lean ====
section
/-! DEFINITION. What other agents' accesses and a new cipher key do to a command's results (R84, R90, R256, R257), and
the reset input (R250, R251). Log 11, 12, 15. -/

namespace Sys2Proof.Machine

/-! ## Windows and races -/

/-- Nothing unsettled happened in the window. -/
def Window.quiet (w : Window) : Bool := w.readRaces.isEmpty && w.writeRaces.isEmpty && !w.keyRaced

/-- This agent may not touch the ranges of this command: it is not the instance that runs it (R84, R90). -/
def OtherCommand.forbids (o : OtherCommand) (who : Master) : Bool := decide (who ≠ .engine o.owner)

/-- The address is in a range of an open command that this agent may not touch now: a command of this engine, or of
another instance than the agent itself (R84, R90). -/
def State.watched (s : State) (who : Master) (a : Nat) : Bool :=
  (s.windows.any fun w => w.watches a) || s.others.any fun o => o.forbids who && o.window.watches a

/-- Note what this agent has done in the window of every command that it may not touch (R84, R90). -/
def State.noteFor (s : State) (who : Master) (note : Window → Window) : State :=
  { s with
    windows := s.windows.map note
    others := s.others.map fun o => if o.forbids who then { o with window := note o.window } else o }

/-- This agent has read these addresses (R84). -/
def State.noteReads (s : State) (who : Master) (as : List Nat) : State := s.noteFor who fun w => w.noteReads as

/-- This agent has written these addresses (R84, R256). -/
def State.noteWrites (s : State) (who : Master) (as : List Nat) : State := s.noteFor who fun w => w.noteWrites as

/-! ## What a command had changed when it ended -/

/-- Nothing. -/
def Progress.none : Progress := ⟨⟨0, 0⟩, false, false⟩

/-- What the command of a window has changed when it ends in this state (R132, R133, R231). The blocks before IDX are
written where a bus error ended it (R227); the header access was done if its bytes answer. -/
def State.endProgress (s : State) (w : Window) : Progress :=
  let bus := decide (s.status.errcode = errNumber .bus)
  let blocks := 16 * s.idx.toNat
  match decodeWord w.word with
  | .ok .initCb => ⟨⟨0, 0⟩, true, false⟩
  | .ok .genKs => ⟨⟨0, 0⟩, false, s.status.done⟩
  | .ok .hdrLoad => ⟨⟨0, 0⟩, s.status.done, false⟩
  | .ok .hdrStore => if s.status.done then ⟨w.dst, false, false⟩ else .none
  | .ok .encrypt =>
    if s.status.done then ⟨w.dst, true, true⟩
    else if bus && decide (s.verdict w.dst.base 8 = .ok) then ⟨⟨w.dst.base, 8 + blocks⟩, true, true⟩
    else ⟨⟨0, 0⟩, bus, true⟩
  | .ok .decrypt =>
    if s.status.done then ⟨w.dst, true, true⟩
    else if bus && decide (s.verdict w.src.base 8 = .ok) then ⟨⟨w.dst.base, blocks⟩, true, true⟩
    else ⟨⟨0, 0⟩, false, true⟩
  | _ => .none

/-- What the running command has written to data memory so far (R174, R176). CB and KS are not asked for: the reset
that ends the command this way sets both. -/
def Running.progress (r : Running) (w : Window) : Progress :=
  let upTo := fun header : Nat =>
    match r.action with
    | .a0 | .a1 | .a2 => Progress.none
    | .a3 => ⟨w.dst, false, false⟩
    | _ => ⟨⟨w.dst.base, header + 16 * r.block⟩, false, false⟩
  match decodeWord r.word with
  | .ok .hdrStore | .ok .decrypt => upTo 0
  | .ok .encrypt => upTo 8
  | _ => .none

/-- Record in the newest window what its command had changed. -/
def State.record (s : State) (p : Window → Progress) : State :=
  match s.windows with
  | [] => s
  | w :: ws => { s with windows := { w with progress := p w } :: ws }

/-- The command of the newest window has ended: record what it had changed. -/
def State.recordEnd (s : State) : State := s.record s.endProgress

/-! ## Which results are affected -/

/-- Results that are unspecified: bytes of data memory, places of CB[0..8), and KS. -/
structure Affected where
  mem : List Nat
  header : List Nat
  ks : Bool
deriving DecidableEq, Repr

/-- What the command of a window makes of affected bytes (R84, R256, R257). It takes those before it that it read, and
the races on its source, into its own results: the body byte computed from a source byte, every body byte for a header
byte of DECRYPT or a new key, CB[0..8) for a header it read from memory, KS or memory for the CB[0..8) that GEN_KS or
HDR_STORE used. Where it replaced CB[0..8) or KS, or surely replaced a byte (`replaced`), what was affected there before
is gone. Only what it wrote counts, and any byte of its destination that another agent wrote. DESIGN CHOICE, log 11. -/
def Window.flow (w : Window) (replaced : Region) (before : Affected) : Affected :=
  let source := (w.readRaces ++ w.writeRaces ++ before.mem).filter (inRegion w.src)
  let headerRead := (source.filter fun a => decide (a < w.src.base + 8)).map fun a => a - w.src.base
  let computed :=
    match decodeWord w.word with
    | .ok .encrypt =>
      if w.keyRaced then addresses (w.dst.base + 8) (w.dst.len - 8)
      else source.map fun a => w.dst.base + 8 + (a - w.src.base)
    | .ok .decrypt =>
      if w.keyRaced || !headerRead.isEmpty then addresses w.dst.base w.dst.len
      else source.map fun a => w.dst.base + (a - (w.src.base + 8))
    | .ok .hdrStore => before.header.map (w.dst.base + ·)
    | _ => []
  { mem :=
      (before.mem.filter fun a => !inRegion replaced a) ++
      (w.readRaces ++ computed).filter (inRegion w.progress.written) ++ w.writeRaces.filter (inRegion w.dst)
    header :=
      if w.progress.header then
        match decodeWord w.word with
        | .ok .hdrLoad | .ok .decrypt => headerRead
        | _ => []
      else before.header
    ks :=
      if w.progress.ks then
        match decodeWord w.word with
        | .ok .genKs => w.keyRaced || !before.header.isEmpty
        | _ => false
      else before.ks }

/-- What all commands since the last STATUS read make of the races, oldest command first; `replaced` says which bytes of
data memory each of them has surely replaced. -/
def affectedBy (replaced : Window → Region) (ws : List Window) : Affected :=
  ws.foldr (fun w => w.flow (replaced w)) ⟨[], [], false⟩

/-- What the races of this engine's open commands have affected: its windows record what each of them has written. -/
def State.affected (s : State) : Affected := affectedBy (fun w => w.progress.written) s.windows

/-! ## Free values for them -/

/-- Put a free byte at each of these places of CB[0..8). -/
def State.scrambleHeader : List Nat → State → State
  | [], s => s
  | i :: is, s =>
    State.scrambleHeader is
      { s with
        cb := { s.cb with header := s.cb.header.setIfInBounds i (Config.freeByte s.draws) }
        draws := s.draws + 1 }

/-- Sixteen free bytes in KS (R257, U6). -/
def State.scrambleKeystream (s : State) : State :=
  { s with ks := Vector.ofFn fun i => Config.freeByte (s.draws + i.val), draws := s.draws + 16 }

/-- Free values for affected results. -/
def State.free (s : State) (x : Affected) : State :=
  let s := State.scramble (x.mem.filter fun a => decide (a < dataSpaceBytes)) s
  let s := State.scrambleHeader x.header s
  if x.ks then s.scrambleKeystream else s

/-- Settle the races: the affected results take free values, and the races are forgotten. -/
def State.settle (s : State) : State :=
  if s.windows.all Window.quiet then s
  else
    { s.free s.affected with
      windows := s.windows.map fun w => { w with readRaces := [], writeRaces := [], keyRaced := false } }

/-- Races are settled as soon as the engine is idle; those met while a command runs, when it ends, in its results too
(DESIGN CHOICE, log 11). -/
def State.settleIfIdle (s : State) : State := if s.phase = .idle then s.settle else s

/-- The command of the newest window has ended: its results and the races it met are settled. -/
def State.endCommand (s : State) : State := s.recordEnd.settle

/-- A command run in one step has ended. -/
def ended : Host.Outcome State Fault Refusal → Host.Outcome State Fault Refusal
  | .next s => .next s.endCommand
  | .fault f => .fault f
  | .refused r => .refused r

/-- One move of the engine side; when it ends a command, races are settled. An idle engine does nothing. -/
def progress (s : State) : Host.Outcome State Fault Refusal :=
  match s.phase with
  | .idle => .next s
  | .busy _ =>
    match engineMove s with
    | .next s' => .next (if s'.phase = .idle then s'.endCommand else s')
    | .fault f => .fault f
    | .refused r => .refused r

/-- The host programs the cipher collaborator (R170); while BUSY = 1 the running command's keystream becomes
unspecified (R257; log 12). -/
def programCipher (c : Collaborator) (s : State) : State :=
  match s.phase, s.windows with
  | .busy _, w :: ws => { s with cipher := c, windows := { w with keyRaced := true } :: ws }
  | _, _ => { s with cipher := c }

/-! ## Reset -/

/-- The bytes of a data write in progress become unspecified (R251, U5). DESIGN CHOICE, log 8: so do those of a write that
is outstanding to a device register, and an outstanding read of one is dropped. Neither is refused, since a device
access is refused when it is answered. -/
def State.breakWrite (s : State) : State :=
  match s.phase with
  | .busy { outstanding := some (.write a bs), .. } =>
    State.scramble ((addresses a bs.length).filter fun x => decide (x < dataSpaceBytes)) s
  | _ => s

/-- A command that reset abandons has changed what it has written so far (R251). -/
def State.recordAbandoned (s : State) : State :=
  match s.phase with
  | .busy r => s.record r.progress
  | .idle => s

/-- The reset input (R250, R251): the engine's own state takes its reset values; data memory, the platform, the
cipher collaborator and what lies outside the engine stay (log 15). DESIGN CHOICE, log 15: reset is one momentary input.
The engine is out of reset (R253) at once, and there is no state in which reset is held. -/
def resetEngine (s : State) : State :=
  let t := s.breakWrite.recordAbandoned.settle
  { State.reset with
    mem := t.mem
    platform := t.platform
    cipher := t.cipher
    others := t.others
    hostCache := t.hostCache
    response := t.response
    dataResponse := t.dataResponse
    events := t.events
    draws := t.draws }

end Sys2Proof.Machine
end

