-- ==== Sys2Proof/Machine/Masters.lean ====
section
/-! DEFINITION. Other agents' accesses to data memory: other masters and engine instances (R84, R90, R256), and the
host through caches that the platform may not keep coherent (R88). Log 9, 10, 11, 26. -/

namespace Sys2Proof.Machine

/-- The platform has this master: engine instances are numbered from 0, this one, to P_INSTANCES - 1 (R238; log 9). -/
def State.hasMaster (s : State) : Master → Bool
  | .bus => true
  | .engine k => decide (1 ≤ k ∧ k < s.platform.instances)

/-- The byte of data memory that another agent sees: a free one in the ranges of commands that it may not touch (R84,
R90, R256). -/
def State.observe (who : Master) (s : State) (a : Nat) : Byte × State :=
  if s.watched who a then (Config.freeByte s.draws, { s with draws := s.draws + 1 }) else (Memory.byte s.mem a, s)

/-- Do something that gives a byte at each address in turn. -/
def readEach (byteAt : State → Nat → Byte × State) : List Nat → State → List Byte × State
  | [], s => ([], s)
  | a :: as, s => ((byteAt s a).1 :: (readEach byteAt as (byteAt s a).2).1, (readEach byteAt as (byteAt s a).2).2)

/-- An access that reaches past the data space stops the machine (R71; log 18). -/
def inSpace (a n : Nat) (s : State) : Host.Outcome State Fault Refusal :=
  if dataSpaceBytes < a + n then .fault .outsideDataSpace else .next s

/-- What this agent writes at the address is unspecified at once: what an instance writes to the ranges of another's
command (R90, U4), and what the host or the bus writes to another instance's destination (R256). -/
def State.spoils (s : State) (who : Master) (a : Nat) : Bool :=
  match who with
  | .bus => s.others.any fun o => inRegion o.window.dst a
  | .engine _ => s.watched who a

/-- Data memory after another agent has written these addresses: free bytes where that is unspecified, and races noted
(R84, R90, R256). -/
def State.afterWrites (s : State) (who : Master) (as : List Nat) : State :=
  ((State.scramble (as.filter (s.spoils who)) s).noteWrites who as).settleIfIdle

/-- Another master writes data memory (R84, R90, R256). A master the platform does not have does nothing. -/
def masterWrite (who : Master) (a : Nat) (bs : List Byte) (s : State) : Host.Outcome State Fault Refusal :=
  if s.hasMaster who then
    inSpace a bs.length
      (State.afterWrites { s with mem := Memory.storeBytes s.mem a bs } who (addresses a bs.length))
  else .next s

/-- Another master reads data memory (R84, R90, R256). -/
def masterRead (who : Master) (a n : Nat) (s : State) : Host.Outcome State Fault Refusal :=
  if s.hasMaster who then
    let read := readEach (State.observe who) (addresses a n) s
    inSpace a n (({ read.2 with dataResponse := read.1 } : State).noteReads who (addresses a n)).settleIfIdle
  else .next s

/-! ## The commands of the other engine instances (R90; log 9) -/

/-- What a command of another instance may change: all of its destination, and CB[0..8) where the command sets it and a
header it reads answers (R74, R155, R174, R176, R201). Its KS reaches no byte of data memory. DESIGN CHOICE, log 9. -/
def State.otherProgress (s : State) (w : Word) (src dst : Region) : Progress :=
  let header :=
    match decodeWord w with
    | .ok .initCb => true
    | .ok .encrypt => decide (0 < dst.len)
    | .ok .hdrLoad | .ok .decrypt => decide (8 ≤ src.len) && allInRange src.base 8 s.busOk
    | _ => false
  ⟨dst, header, false⟩

/-- The window of a command that instance `k` accepts: it meets the open commands of this engine and of third instances
(R90). -/
def State.otherWindow (s : State) (k : Nat) (w : Word) (src dst : Region) : Window :=
  (s.windows ++ (s.others.filter fun o => o.forbids (.engine k)).map OtherCommand.window).foldl Window.meet
    ⟨w, src, dst, s.otherProgress w src dst, [], [], false⟩

/-- Another engine instance accepts a command: where it overlaps an open command of this engine or of a third instance,
both have a race (R90). An instance the platform does not have does nothing. -/
def otherAccepts (k : Nat) (w : Word) (src dst : Region) (s : State) : State :=
  if s.hasMaster (.engine k) then
    let v := s.otherWindow k w src dst
    let t := s.noteFor (.engine k) fun x => x.meet v
    State.settleIfIdle { t with others := ⟨k, v⟩ :: t.others }
  else s

/-- The open commands of instance `k`, newest first. -/
def State.commandsOf (s : State) (k : Nat) : List Window :=
  (s.others.filter fun o => decide (o.owner = k)).map OtherCommand.window

/-- What the races of instance `k`'s open commands have affected. None of them is taken to have replaced a byte: a bus
error or a reset may have ended it before (R227, R251). DESIGN CHOICE, log 9. -/
def State.affectedOf (s : State) (k : Nat) : Affected := affectedBy (fun _ => ⟨0, 0⟩) (s.commandsOf k)

/-- The commands of another engine instance are over, and its host knows (R84, R90): what they made of races takes free
values in data memory (U3, U4). -/
def otherEnds (k : Nat) (s : State) : State :=
  State.scramble ((s.affectedOf k).mem.filter fun a => decide (a < dataSpaceBytes))
    { s with others := s.others.filter fun o => decide (o.owner ≠ k) }

/-! ## The host's caches (R88; log 10) -/

/-- The host's cached copy of a byte, if it has one. -/
def HostCache.find (c : HostCache) (a : Nat) : Option Byte :=
  match Memory.find c.dirty a with
  | some b => some b
  | none => Memory.find c.clean a

/-- The host keeps a copy of a byte. -/
def State.copy (s : State) (a : Nat) (b : Byte) : State :=
  { s with hostCache := { s.hostCache with clean := Memory.store s.hostCache.clean a b } }

/-- The byte a host load gives: a free one in a command's ranges (R84, R256), else its copy, else data memory's byte, of
which it keeps a copy. DESIGN CHOICE, log 10: a load in a command's ranges keeps no copy; a fill before it does. -/
def State.load (s : State) (a : Nat) : Byte × State :=
  if s.watched .bus a then s.observe .bus a
  else
    match s.hostCache.find a with
    | some b => (b, s)
    | none => (Memory.byte s.mem a, s.copy a (Memory.byte s.mem a))

/-- The host's cache takes a copy of each byte it does not hold. -/
def State.fill : List Nat → State → State
  | [], s => s
  | a :: as, s =>
    match s.hostCache.find a with
    | some _ => State.fill as s
    | none => State.fill as ((s.observe .bus a).2.copy a (s.observe .bus a).1)

/-- A stored byte goes to data memory, and a copy of it stays. -/
def State.putBack (s : State) (a : Nat) (b : Byte) : State :=
  { s with
    mem := Memory.store s.mem a b
    hostCache := ⟨Memory.store s.hostCache.clean a b, Memory.erase s.hostCache.dirty a 1⟩ }

/-- Put back each byte that was stored and not written back. -/
def State.writeBack : List Nat → State → State
  | [], s => s
  | a :: as, s =>
    match Memory.find s.hostCache.dirty a with
    | none => State.writeBack as s
    | some b => State.writeBack as (s.putBack a b)

/-- The host stores to data memory: on a coherent platform at once, else into its cache. DESIGN CHOICE, log 10: a store
that stays in the cache counts as the host's write (R84, R256) in every open command's ranges, of this engine and of
another instance alike, so data memory's byte in a destination becomes unspecified; the cached byte is the one stored,
which a later load gives and a write back puts into data memory. -/
def hostStore (a : Nat) (bs : List Byte) (s : State) : Host.Outcome State Fault Refusal :=
  if s.platform.coherent then masterWrite .bus a bs s
  else
    let t : State := { s with hostCache :=
      ⟨Memory.erase s.hostCache.clean a bs.length, Memory.storeBytes s.hostCache.dirty a bs⟩ }
    inSpace a bs.length (t.afterWrites .bus (addresses a bs.length))

/-- The host loads from data memory: on a coherent platform what it holds, else through its cache. -/
def hostLoad (a n : Nat) (s : State) : Host.Outcome State Fault Refusal :=
  if s.platform.coherent then masterRead .bus a n s
  else
    let read := readEach State.load (addresses a n) s
    inSpace a n (({ read.2 with dataResponse := read.1 } : State).noteReads .bus (addresses a n)).settleIfIdle

/-- A cache operation on a range, by the host's maintenance or by the cache of itself; on a coherent platform it shows
nothing. A byte filled in is a read of data memory, and a byte written back a write (R84). -/
def hostCacheOp (op : CacheOp) (a n : Nat) (s : State) : Host.Outcome State Fault Refusal :=
  if s.platform.coherent then .next s
  else
    match op with
    | .fill =>
      inSpace a n ((State.fill (addresses a n) s).noteReads .bus
        ((addresses a n).filter fun x => (s.hostCache.find x).isNone)).settleIfIdle
    | .writeBack =>
      inSpace a n ((State.writeBack (addresses a n) s).afterWrites .bus
        ((addresses a n).filter fun x => (Memory.find s.hostCache.dirty x).isSome))
    | .invalidate =>
      inSpace a n { s with hostCache :=
        ⟨Memory.erase s.hostCache.clean a n, Memory.erase s.hostCache.dirty a n⟩ }

end Sys2Proof.Machine
end

