-- ==== Sys2Proof/Machine/Registers.lean ====
section
/-! DEFINITION. The register slave port: the register map, host reads and host writes (R33 to R48, R51, R52, R80). -/

namespace Sys2Proof.Machine

/-- The register at a word index of the window, offset div 4 (10_state.md section 2, R100). -/
def regAt : Nat → Reg
  | 0x00 => .ctrl
  | 0x01 => .status
  | 0x02 => .cmd
  | 0x03 => .keyBits
  | 0x04 => .srcAddr
  | 0x05 => .dstAddr
  | 0x06 => .len
  | 0x07 => .outLen
  | 0x08 => .nonceLo
  | 0x09 => .nonceHi
  | 0x0A => .nonceRnd
  | 0x0B => .seqLo
  | 0x0C => .seqHi
  | 0x0D => .shift
  | 0x0E => .idx
  | 0x10 => .cb 0
  | 0x11 => .cb 1
  | 0x12 => .cb 2
  | 0x13 => .cb 3
  | 0x14 => .ks 0
  | 0x15 => .ks 1
  | 0x16 => .ks 2
  | 0x17 => .ks 3
  | _ => .reserved

/-- The offset of a register in the window; the reserved offset given is 0x3C (10_state.md section 2). -/
def regOffset : Reg → Nat
  | .ctrl => 0x00
  | .status => 0x04
  | .cmd => 0x08
  | .keyBits => 0x0C
  | .srcAddr => 0x10
  | .dstAddr => 0x14
  | .len => 0x18
  | .outLen => 0x1C
  | .nonceLo => 0x20
  | .nonceHi => 0x24
  | .nonceRnd => 0x28
  | .seqLo => 0x2C
  | .seqHi => 0x30
  | .shift => 0x34
  | .idx => 0x38
  | .cb i => 0x40 + 4 * i.val
  | .ks i => 0x50 + 4 * i.val
  | .reserved => 0x3C

/-- CTRL as read (R33). -/
def State.ctrlWord (s : State) : Word :=
  (0 : BitVec 30) ++ BitVec.ofBool s.ctrl.ie ++ BitVec.ofBool s.ctrl.seqPresent

/-- SHIFT as read (R44): computed at every read. -/
def State.shiftWord (s : State) : Word := BitVec.ofNat 32 (shiftOf s.ctrl.seqPresent s.seq)

/-- The value the rules give a register (R33 to R48). -/
def State.regValue (s : State) : Reg → Word
  | .ctrl => s.ctrlWord
  | .status => s.statusWord
  | .cmd => 0
  | .keyBits => s.keyBits
  | .srcAddr => s.srcAddr
  | .dstAddr => s.dstAddr
  | .len => s.len
  | .outLen => s.outLen
  | .nonceLo => s.nonceLo
  | .nonceHi => s.nonceHi
  | .nonceRnd => s.nonceRnd.setWidth 32
  | .seqLo => s.seqLo
  | .seqHi => s.seqHi
  | .shift => s.shiftWord
  | .idx => s.idx
  | .cb i => le32val (blockWord s.cb.bytes i)
  | .ks i => le32val (blockWord s.ks i)
  | .reserved => 0

/-- The registers a running command changes: their reads are unspecified while BUSY = 1 (R52, R258). -/
def Reg.intermediate : Reg → Bool
  | .cb _ | .ks _ | .idx | .outLen => true
  | _ => false

/-- The registers whose read is unspecified now: those of R52 while BUSY = 1, and until the host has read STATUS with
BUSY = 0 after the last accepted command (R261), but for an IDX that the host has written since (R84; log 14). -/
def State.unread (s : State) (g : Reg) : Bool :=
  g.intermediate && (s.busy || (!s.windows.isEmpty && !(decide (g = .idx) && s.idxWritten)))

/-- A host read of a register (R52, R80). Reading STATUS with BUSY = 0 closes the hazard windows (R84). -/
def readReg (g : Reg) (s : State) : State :=
  if s.unread g then { s with response := some (Config.freeWord s.draws), draws := s.draws + 1 }
  else if g = .status && !s.busy then { s with response := some s.statusWord, windows := [] }
  else { s with response := some (s.regValue g) }

/-- A read-write register other than STATUS and CMD takes a value (R33 to R45). The others ignore it (R48). -/
def State.setReg (s : State) (v : Word) : Reg → State
  | .ctrl => { s with ctrl := ⟨v.getLsbD 0, v.getLsbD 1⟩ }
  | .keyBits => { s with keyBits := v }
  | .srcAddr => { s with srcAddr := v }
  | .dstAddr => { s with dstAddr := v }
  | .len => { s with len := v }
  | .nonceLo => { s with nonceLo := v }
  | .nonceHi => { s with nonceHi := v }
  | .nonceRnd => { s with nonceRnd := v.setWidth 16 }
  | .seqLo => { s with seqLo := v }
  | .seqHi => { s with seqHi := v }
  | .idx => { s with idx := v, idxWritten := true }
  | .status | .cmd | .outLen | .shift | .cb _ | .ks _ | .reserved => s

/-- The registers whose writes are dropped while BUSY = 1, with OVR set (R51, R131). -/
def Reg.guarded : Reg → Bool
  | .ctrl | .cmd | .keyBits | .srcAddr | .dstAddr | .len | .nonceLo | .nonceHi | .nonceRnd | .seqLo | .seqHi
  | .idx => true
  | .status | .outLen | .shift | .cb _ | .ks _ | .reserved => false

/-- A host write of a register (R34, R48, R51, R130, R131). A word written to CMD while idle is accepted. -/
def writeReg (g : Reg) (v : Word) (s : State) : State :=
  if g.guarded && s.busy then s.dropWrite
  else
    match g with
    | .status => { s with status := s.status.clear v }
    | .cmd => s.accept v
    | g => s.setReg v g

/-- What a platform access is to this engine. -/
inductive Access where
  | elsewhere
  | refusedForm
  | reg (g : Reg)
deriving DecidableEq, Repr

/-- Decode an access from P_REGBASE (R56 (1), R80, R100). One that touches no byte of the window is not the engine's.
DESIGN CHOICE, log 6: one that touches a byte of it is an access to the window also where it starts below the base or
ends past the window, and of another width or alignment it is refused (F1). -/
def State.access (s : State) (addr width : Nat) : Access :=
  if s.platform.regBase + 256 ≤ addr || (addr < s.platform.regBase && addr + width ≤ s.platform.regBase) then .elsewhere
  else if addr < s.platform.regBase then .refusedForm
  else if wellFormedTransaction (addr - s.platform.regBase) width then
    .reg (regAt ((addr - s.platform.regBase) / 4))
  else .refusedForm

/-- A host write on the slave port. -/
def hostWrite (addr width : Nat) (v : Word) (s : State) : Host.Outcome State Fault Refusal :=
  match s.access addr width with
  | .elsewhere => .next s
  | .refusedForm => .refused .registerAccessForm
  | .reg g => .next (writeReg g v s)

/-- A host read on the slave port. -/
def hostRead (addr width : Nat) (s : State) : Host.Outcome State Fault Refusal :=
  match s.access addr width with
  | .elsewhere => .next s
  | .refusedForm => .refused .registerAccessForm
  | .reg g => .next (readReg g s)

end Sys2Proof.Machine
end

