-- ==== Sys2Proof/Machine/Events.lean ====
section
/-! DEFINITION. What each input does (R7, R56), and host scripts (R107 to R109). -/

namespace Sys2Proof.Machine

/-- An accepted word runs to completion: the one-step reading of R135 (log 2). -/
def runAccepted (w : Word) (s : State) : Host.Outcome State Fault Refusal :=
  match decodeWord w with
  | .ok i => exec i s
  | .error _ => execIllegal s

/-- A host write of a word to CMD together with the whole run of its command (R130, R131, R135). -/
def command (w : Word) (s : State) : Host.Outcome State Fault Refusal :=
  if s.busy then .next s.dropWrite else ended (runAccepted w (s.accept w))

/-- `wait` (R108): read STATUS; while BUSY, let the engine move and read again. -/
def waitIdle (s : State) : State :=
  let t := readReg .status s
  if s.busy then { t with events := .progress :: .wait :: t.events } else t

/-- One input. -/
def handle (e : Event) (s : State) : Host.Outcome State Fault Refusal :=
  match e with
  | .hostWrite addr width data => hostWrite addr width data s
  | .hostRead addr width => hostRead addr width s
  | .command w => command w s
  | .wait => .next (waitIdle s)
  | .progress => progress s
  | .reset => .next (resetEngine s)
  | .masterWrite who a bs => masterWrite who a bs s
  | .masterRead who a n => masterRead who a n s
  | .otherAccepts k w src dst => .next (otherAccepts k w src dst s)
  | .otherEnds k => .next (otherEnds k s)
  | .hostStore a bs => hostStore a bs s
  | .hostLoad a n => hostLoad a n s
  | .hostCache op a n => hostCacheOp op a n s
  | .programCipher c => .next (programCipher c s)
  | .staleCipherResponse _ => .next s
  | .cipherError => .refused .cipherFailed

/-- A line of a host script (R107, R108); `wrAt` and `rdAt` name a register by its offset. -/
inductive ScriptLine where
  | wr (g : Reg) (v : Word)
  | rd (g : Reg)
  | wrAt (offset : Nat) (v : Word)
  | rdAt (offset : Nat)
  | cmd (i : Instr)
  | wr64Nonce (v : BitVec 64)
  | wr64Seq (v : BitVec 64)
  | wait
  | clr
deriving DecidableEq, Repr

/-- A 32-bit write to a register, on a platform with this P_REGBASE. -/
def wrEvent (base : Nat) (g : Reg) (v : Word) : Event := .hostWrite (base + regOffset g) 4 v

/-- The expansion of a line (R108, R109); `wait` stays one input, which repeats itself. -/
def expandLine (base : Nat) : ScriptLine → List Event
  | .wr g v => [wrEvent base g v]
  | .rd g => [.hostRead (base + regOffset g) 4]
  | .wrAt offset v => [.hostWrite (base + offset) 4 v]
  | .rdAt offset => [.hostRead (base + offset) 4]
  | .cmd i => [wrEvent base .cmd (encode i)]
  | .wr64Nonce v => [wrEvent base .nonceLo (v.setWidth 32), wrEvent base .nonceHi (v.extractLsb' 32 32)]
  | .wr64Seq v => [wrEvent base .seqLo (v.setWidth 32), wrEvent base .seqHi (v.extractLsb' 32 32)]
  | .wait => [.wait]
  | .clr => [wrEvent base .status 0x0000000E]

/-- The inputs of a host script (R109). -/
def expandScript (base : Nat) (lines : List ScriptLine) : List Event := lines.flatMap (expandLine base)

end Sys2Proof.Machine
end

