-- ==== Sys2Proof/Machine/Step.lean ====
section
/-! DEFINITION. One step: the next input, or, when none is pending, the engine side's move. -/

namespace Sys2Proof.Machine

/-- One step (R7; log 1, log 17). -/
def step (s : State) : Host.Outcome State Fault Refusal :=
  match s.events with
  | [] => progress s
  | e :: rest => handle e { s with events := rest }

/-- The state in which the very next step accepts and runs the command word: the word is the next input, and the
engine is idle to accept it (log 1, log 24). -/
def State.withFetchWord (s : State) (nbits w : Nat) : State :=
  { s with phase := .idle, events := .command (tableWord nbits w) :: s.events }

end Sys2Proof.Machine
end

