-- ==== Sys2Proof/Safety.lean ====
section
/-! DEFINITION. What the claims call a good state: the invariant that every step keeps, and the conditions under which
a command runs undisturbed. -/

namespace Sys2Proof.Machine

/-- STATUS says at most one of DONE and ERR, ERRCODE is 0 exactly when ERR is 0 (R34), and no code is above 6
(R221, E3 of 93_implementation_defined.md). -/
def Status.Consistent (st : Status) : Prop :=
  (st.done = true → st.err = false) ∧ (st.err = false ↔ st.errcode = 0) ∧ st.errcode.toNat ≤ 6

/-- The request that may be outstanding at a position. -/
def Running.awaits (r : Running) (q : Request) : Prop := r.outstanding = none ∨ r.outstanding = some q

/-- A position in the block loop or at A3 (R174, R176). -/
def Running.streamLegal (r : Running) (s : State) (j : StreamJob) : Prop :=
  (r.block < blockCount j.bodyLen ∧
    ((r.action = .b1 ∧ r.outstanding = none) ∨
     (r.action = .b2 ∧ r.awaits (.cipher s.keyBits s.cb.bytes)) ∨
     (r.action = .b3 ∧ r.awaits (.read (j.inBase + 16 * r.block) (blockLen j.bodyLen r.block))) ∨
     (r.action = .b4 ∧ r.latch.length = blockLen j.bodyLen r.block ∧
       r.awaits (.write (j.outBase + 16 * r.block)
         (xorBytes r.latch (s.ks.toList.take (blockLen j.bodyLen r.block))))))) ∨
  (r.action = .a3 ∧ r.outstanding = none)

/-- The sequencer stands at a position of its command's action list, waiting for nothing else than that position's
own request (R53, R174, R176), and past its first action only if the checks of R229 passed. -/
def Running.Legal (r : Running) (s : State) : Prop :=
  (r.action = .a0 ∧ r.outstanding = none) ∨
  match decodeWord r.word with
  | .ok .genKs =>
    genKsCheck s = none ∧
      ((r.action = .b2 ∧ r.awaits (.cipher s.keyBits s.cb.bytes)) ∨ (r.action = .a3 ∧ r.outstanding = none))
  | .ok .hdrLoad =>
    hdrLoadCheck s = none ∧
      ((r.action = .a2 ∧ r.awaits (.read s.src 8)) ∨ (r.action = .a3 ∧ r.outstanding = none))
  | .ok .hdrStore =>
    hdrStoreCheck s = none ∧
      ((r.action = .a2 ∧ r.awaits (.write s.dst s.cb.header.toList)) ∨
       (r.action = .a3 ∧ r.outstanding = none))
  | .ok .encrypt =>
    encryptCheck s = none ∧
      ((r.action = .a1 ∧ r.outstanding = none) ∨ (r.action = .a2 ∧ r.awaits (.write s.dst s.cb.header.toList)) ∨
       r.streamLegal s s.encryptJob)
  | .ok .decrypt =>
    decryptCheck s = none ∧
      ((r.action = .a1 ∧ r.outstanding = none) ∨ (r.action = .a2 ∧ r.awaits (.read s.src 8)) ∨
       r.streamLegal s s.decryptJob)
  | _ => False

/-- While a command runs, DONE and ERR are 0 (R34), its position is legal and the newest hazard window is its own. -/
def State.PhaseOk (s : State) : Prop :=
  match s.phase with
  | .idle => s.windows.all Window.quiet = true
  | .busy r =>
    s.status.done = false ∧ s.status.err = false ∧ r.Legal s ∧
      ∃ w ws, s.windows = w :: ws ∧ w.word = r.word

/-- Both parts of the host's caches have the canonical form. -/
def HostCache.Wf (c : HostCache) : Prop := Memory.wf c.clean ∧ Memory.wf c.dirty

/-- The invariant of the machine. -/
def State.Inv (s : State) : Prop := Memory.wf s.mem ∧ s.hostCache.Wf ∧ s.status.Consistent ∧ s.PhaseOk

/-- Every byte of a range answers and is plain memory: no access in it meets a bus error (R74, R75) or a device
register (R79). -/
def State.Reachable (s : State) (a n : Nat) : Prop := ∀ i < n, s.busOk (a + i) = true ∧ s.isDevice (a + i) = false

/-- The bytes of data memory that a command may write (R75, R102, R200). -/
def destination (i : Instr) (s : State) : Region :=
  match i with
  | .hdrStore => ⟨s.dst, 8⟩
  | .encrypt => ⟨s.dst, s.length + 8⟩
  | .decrypt => ⟨s.dst, s.length - 8⟩
  | .nop | .initCb | .encodeIdx | .genKs | .hdrLoad => ⟨s.dst, 0⟩

/-- The inputs have run out and the engine is idle. -/
def State.settled (s : State) : Prop := s.events = [] ∧ s.phase = .idle

end Sys2Proof.Machine
end

