-- ==== Sys2Proof/Certificates/Slice0/Obligations.lean ====
section
/-! DEFINITION. The statements for the provers. Nothing here is about a program; a statement about a free value holds
for every value of it. -/

open Sys2Proof Sys2Proof.Machine

/-! ## Encoding -/

/-- The eight words of 30_encoding.md section 2, written out as their bytes, least significant first (R77; log 24),
decode to their commands; two words beside the map do not decode. -/
def Obligations.OpcodeMapWordsDecode : Prop :=
  decode [0x00, 0x00, 0x00, 0x00] = .ok (.nop, []) ∧ decode [0x01, 0x00, 0x00, 0x00] = .ok (.initCb, []) ∧
  decode [0x02, 0x00, 0x00, 0x00] = .ok (.encodeIdx, []) ∧ decode [0x03, 0x00, 0x00, 0x00] = .ok (.genKs, []) ∧
  decode [0x04, 0x00, 0x00, 0x00] = .ok (.hdrLoad, []) ∧ decode [0x05, 0x00, 0x00, 0x00] = .ok (.hdrStore, []) ∧
  decode [0x10, 0x00, 0x00, 0x00] = .ok (.encrypt, []) ∧ decode [0x11, 0x00, 0x00, 0x00] = .ok (.decrypt, []) ∧
  decode [0x10, 0x01, 0x00, 0x00] = .error .reservedField ∧ decode [0x06, 0x00, 0x00, 0x00] = .error .reservedOpcode

/-- R103: a word selects a command exactly when its reserved field is zero and its opcode is the command's. -/
def Obligations.WordSelectsCommandByOpcode : Prop :=
  ∀ w : Word,
    (decodeWord w = .ok .nop ↔ w.extractLsb' 8 24 = 0 ∧ w.extractLsb' 0 8 = 0x00) ∧
    (decodeWord w = .ok .initCb ↔ w.extractLsb' 8 24 = 0 ∧ w.extractLsb' 0 8 = 0x01) ∧
    (decodeWord w = .ok .encodeIdx ↔ w.extractLsb' 8 24 = 0 ∧ w.extractLsb' 0 8 = 0x02) ∧
    (decodeWord w = .ok .genKs ↔ w.extractLsb' 8 24 = 0 ∧ w.extractLsb' 0 8 = 0x03) ∧
    (decodeWord w = .ok .hdrLoad ↔ w.extractLsb' 8 24 = 0 ∧ w.extractLsb' 0 8 = 0x04) ∧
    (decodeWord w = .ok .hdrStore ↔ w.extractLsb' 8 24 = 0 ∧ w.extractLsb' 0 8 = 0x05) ∧
    (decodeWord w = .ok .encrypt ↔ w.extractLsb' 8 24 = 0 ∧ w.extractLsb' 0 8 = 0x10) ∧
    (decodeWord w = .ok .decrypt ↔ w.extractLsb' 8 24 = 0 ∧ w.extractLsb' 0 8 = 0x11)

/-- Decode and encode agree both ways: a command's bytes decode to it and leave the rest, and a word that decodes is
the word of what it decodes to. -/
def Obligations.DecodeAndEncodeAgree : Prop :=
  (∀ (i : Instr) (rest : List Byte), decode (bytesOfWord (encode i) ++ rest) = .ok (i, rest)) ∧
  ∀ (w : Word) (i : Instr), decodeWord w = .ok i → encode i = w

/-! ## One step, acceptance and the register port -/

/-- The next input is a command word that decodes to i, and the engine is idle: the step is exec of i on the accepted
state (R130: DONE, ERR and ERRCODE 0, OVR kept, BUSY set), and then `ended`, which settles the races of this and other
instances' commands and records what the command changed. The input list, the hazard windows with their record, the
other instances' open commands and `idxWritten` are the model's own (log 1, log 9, log 11, log 14). -/
def Obligations.StepRunsDecodedCommand : Prop :=
  ∀ (s : State) (w : Word) (i : Instr) (rest : List Event), s.events = .command w :: rest → s.phase = .idle →
    decodeWord w = .ok i →
    let opened := (s.others.map OtherCommand.window).foldl Window.meet
      ⟨w, (s.ranges (.ok i)).1, (s.ranges (.ok i)).2, ⟨⟨0, 0⟩, false, false⟩, [], [], false⟩
    step s = ended (exec i { s with
      events := rest
      status := ⟨false, false, s.status.ovr, 0⟩
      phase := .busy ⟨w, .a0, 0, [], none⟩
      windows := opened :: s.windows
      others := s.others.map fun o => o.meet opened
      idxWritten := false })

/-- A host write of CMD while idle accepts the word and does nothing else: the sequencer stands at its first action.
(`windows`, `others` and `idxWritten` are the model's own records, log 9, log 11 and log 14.) -/
def Obligations.CmdWriteWhileIdleIsAccepted : Prop :=
  ∀ (s : State) (w : Word) (rest : List Event), s.events = .hostWrite (s.platform.regBase + 0x08) 4 w :: rest →
    s.phase = .idle →
    step s = .next { s with
      events := rest
      status := ⟨false, false, s.status.ovr, 0⟩
      phase := .busy ⟨w, .a0, 0, [], none⟩
      windows := s.newWindow w :: s.windows
      others := s.others.map fun o => o.meet (s.newWindow w)
      idxWritten := false }

/-- R131: a write to CMD while a command runs is dropped and sets OVR, also when it stands for a whole command. -/
def Obligations.CmdWriteWhileBusyIsDropped : Prop :=
  ∀ (s : State) (w : Word) (rest : List Event),
    s.events = .hostWrite (s.platform.regBase + 0x08) 4 w :: rest ∨ s.events = .command w :: rest →
    s.phase ≠ .idle →
    step s = .next { s with events := rest, status := { s.status with ovr := true } }

/-- R138: every word outside the opcode map, offered while idle, ends at once with ERR and code 1 and changes nothing
else, where the invariant holds; offered while busy it is dropped and sets OVR, not ERR. (`windows` and `idxWritten`
are the model's own records, log 11 and log 14.) -/
def Obligations.IllegalWordEndsWithCodeOne : Prop :=
  ∀ (s : State) (w : Word) (rest : List Event), s.events = .command w :: rest →
    (w.extractLsb' 8 24 ≠ 0 ∨
      (w.extractLsb' 0 8).toNat ∉ [0x00, 0x01, 0x02, 0x03, 0x04, 0x05, 0x10, 0x11]) →
    ∃ t, step s = .next t ∧
      (s.Inv → s.phase = .idle → t = { s with
        events := rest, status := ⟨false, true, s.status.ovr, 1⟩, windows := t.windows, idxWritten := t.idxWritten }) ∧
      (s.phase ≠ .idle → t = { s with events := rest, status := { s.status with ovr := true } })

/-- R228: while BUSY = 1 a write to CMD or to a read-write register other than STATUS is dropped and sets OVR; it
changes nothing else, neither ERR nor the running command, and raises no interrupt. -/
def Obligations.OperandWritesWhileBusyAreDropped : Prop :=
  ∀ (s : State) (offset : Nat) (v : Word) (rest : List Event),
    s.events = .hostWrite (s.platform.regBase + offset) 4 v :: rest → s.phase ≠ .idle →
    offset ∈ [0x00, 0x08, 0x0C, 0x10, 0x14, 0x18, 0x20, 0x24, 0x28, 0x2C, 0x30, 0x38] →
    ∃ t, step s = .next t ∧ t = { s with events := rest, status := { s.status with ovr := true } } ∧ t.irq = s.irq

/-- While idle a write to a read-write register sets that register, CTRL to its two bits and NONCE_RND to its low
sixteen, and changes nothing else. (`idxWritten` is the model's own record, log 14.) -/
def Obligations.OperandWritesWhileIdleAreDone : Prop :=
  ∀ (s : State) (v : Word) (rest : List Event), s.phase = .idle →
    let write := fun offset => step { s with events := .hostWrite (s.platform.regBase + offset) 4 v :: rest }
    let s := { s with events := rest }
    write 0x00 = .next { s with ctrl := ⟨v.getLsbD 0, v.getLsbD 1⟩ } ∧
    write 0x0C = .next { s with keyBits := v } ∧
    write 0x10 = .next { s with srcAddr := v } ∧
    write 0x14 = .next { s with dstAddr := v } ∧
    write 0x18 = .next { s with len := v } ∧
    write 0x20 = .next { s with nonceLo := v } ∧
    write 0x24 = .next { s with nonceHi := v } ∧
    write 0x28 = .next { s with nonceRnd := v.extractLsb' 0 16 } ∧
    write 0x2C = .next { s with seqLo := v } ∧
    write 0x30 = .next { s with seqHi := v } ∧
    write 0x38 = .next { s with idx := v, idxWritten := true }

/-- A STATUS write clears DONE, ERR with ERRCODE, and OVR where it writes a one, whether or not a command runs, and
changes nothing else. -/
def Obligations.StatusWriteClearsWrittenOnes : Prop :=
  ∀ (s : State) (v : Word) (rest : List Event), s.events = .hostWrite (s.platform.regBase + 0x04) 4 v :: rest →
    ∃ t, step s = .next t ∧ t = { s with events := rest, status := t.status } ∧
      (t.status.done = true ↔ s.status.done = true ∧ v.getLsbD 1 = false) ∧
      (t.status.err = true ↔ s.status.err = true ∧ v.getLsbD 2 = false) ∧
      (t.status.ovr = true ↔ s.status.ovr = true ∧ v.getLsbD 3 = false) ∧
      t.status.errcode = if v.getLsbD 2 then 0 else s.status.errcode

/-- A STATUS read shows BUSY, DONE, ERR, OVR and ERRCODE at their places and zeros elsewhere; it changes nothing but
the port's answer, and with BUSY = 0 it closes the hazard windows (the windows are the model's, log 11). -/
def Obligations.StatusReadShowsTheFlags : Prop :=
  ∀ (s : State) (rest : List Event), s.events = .hostRead (s.platform.regBase + 0x04) 4 :: rest →
    ∃ v : Word, step s = .next { s with
        events := rest
        response := some v
        windows := if s.phase = .idle then [] else s.windows } ∧
      v.getLsbD 0 = decide (s.phase ≠ .idle) ∧ v.getLsbD 1 = s.status.done ∧ v.getLsbD 2 = s.status.err ∧
      v.getLsbD 3 = s.status.ovr ∧ v.extractLsb' 4 4 = 0 ∧ v.extractLsb' 8 4 = s.status.errcode ∧
      v.extractLsb' 12 20 = 0

/-- R48: reserved offsets read 0; writes to them and to the read-only registers have no effect at all, even while
BUSY = 1; the reserved fields of CTRL, STATUS and NONCE_RND read as 0 and ignore writes. -/
def Obligations.ReservedAndReadOnlyIgnoreWrites : Prop :=
  (∀ (s : State) (offset : Nat) (v : Word) (rest : List Event),
    s.events = .hostWrite (s.platform.regBase + offset) 4 v :: rest → offset % 4 = 0 →
    offset = 0x3C ∨ (0x60 ≤ offset ∧ offset ≤ 0xFC) ∨ offset = 0x1C ∨ offset = 0x34 ∨
      (0x40 ≤ offset ∧ offset < 0x60) →
    step s = .next { s with events := rest }) ∧
  (∀ (s : State) (offset : Nat) (rest : List Event),
    s.events = .hostRead (s.platform.regBase + offset) 4 :: rest → offset % 4 = 0 →
    offset = 0x3C ∨ (0x60 ≤ offset ∧ offset ≤ 0xFC) →
    step s = .next { s with events := rest, response := some 0 }) ∧
  (∀ s : State, (s.regValue .ctrl).extractLsb' 2 30 = 0 ∧ (s.regValue .status).extractLsb' 4 4 = 0 ∧
    (s.regValue .status).extractLsb' 12 20 = 0 ∧ (s.regValue .nonceRnd).extractLsb' 16 16 = 0) ∧
  ∀ (s : State) (v v' : Word),
    (v.extractLsb' 0 2 = v'.extractLsb' 0 2 → writeReg .ctrl v s = writeReg .ctrl v' s) ∧
    (v.extractLsb' 1 3 = v'.extractLsb' 1 3 → writeReg .status v s = writeReg .status v' s) ∧
    (v.extractLsb' 0 16 = v'.extractLsb' 0 16 → writeReg .nonceRnd v s = writeReg .nonceRnd v' s)

/-- A read or write transaction that touches a byte of the window is refused when it is not 32 bits wide at a multiple
of 4 inside it, also where it starts below the window (log 6); one that touches no byte of the window does nothing. -/
def Obligations.MalformedRegisterAccessIsRefused : Prop :=
  ∀ (s : State) (addr width : Nat) (v : Word) (rest : List Event),
    s.events = .hostWrite addr width v :: rest ∨ s.events = .hostRead addr width :: rest →
    (addr < s.platform.regBase + 256 → (addr < s.platform.regBase → s.platform.regBase < addr + width) →
      (addr < s.platform.regBase ∨ width ≠ 4 ∨ (addr - s.platform.regBase) % 4 ≠ 0) →
      step s = .refused .registerAccessForm) ∧
    (s.platform.regBase + 256 ≤ addr ∨ (addr < s.platform.regBase ∧ addr + width ≤ s.platform.regBase) →
      step s = .next { s with events := rest })

/-- A register read answers at every offset and changes nothing but the port's answer, the draw counter and the hazard
windows (the last two are the model's, log 4 and log 11). In every state, a running command or not, the answer is the
register's value, but for CB0 to CB3, KS0 to KS3, IDX and OUT_LEN; for these too once STATUS has been read with BUSY =
0, and for an IDX that the host has written since the last command (log 14). The values are given at each offset by the
fields of the state: CTRL has SEQ_PRESENT at bit 0 and IE at bit 1, CMD reads 0, NONCE_RND stands in bits 15 to 0; the
words CB0 to CB3 and KS0 to KS3 are those of BufferViewsAreLittleEndian. STATUS, SHIFT and the reserved offsets have
statements of their own. -/
def Obligations.RegisterReadHasNoSideEffect : Prop :=
  (∀ (s : State) (k : Nat) (rest : List Event), k < 64 →
    s.events = .hostRead (s.platform.regBase + 4 * k) 4 :: rest →
    ∃ t, step s = .next t ∧ t.response ≠ none ∧
      t = { s with events := rest, response := t.response, draws := t.draws, windows := t.windows } ∧
      ((regAt k).intermediate = false → t.response = some (s.regValue (regAt k)) ∧ t.draws = s.draws) ∧
      (s.phase = .idle → s.windows = [] → t.response = some (s.regValue (regAt k)) ∧ t.draws = s.draws) ∧
      (s.phase = .idle → s.idxWritten = true → 4 * k = 0x38 → t.response = some s.idx)) ∧
  ∀ (s : State) (rest : List Event),
    let reads := fun (offset : Nat) (v : Word) =>
      step { s with events := .hostRead (s.platform.regBase + offset) 4 :: rest } =
        .next { s with events := rest, response := some v }
    (∃ v : Word, reads 0x00 v ∧
      v.getLsbD 0 = s.ctrl.seqPresent ∧ v.getLsbD 1 = s.ctrl.ie ∧ v.extractLsb' 2 30 = 0) ∧
    reads 0x08 0 ∧ reads 0x0C s.keyBits ∧ reads 0x10 s.srcAddr ∧ reads 0x14 s.dstAddr ∧ reads 0x18 s.len ∧
    reads 0x20 s.nonceLo ∧ reads 0x24 s.nonceHi ∧
    (∃ v : Word, reads 0x28 v ∧ v.extractLsb' 0 16 = s.nonceRnd ∧ v.extractLsb' 16 16 = 0) ∧
    reads 0x2C s.seqLo ∧ reads 0x30 s.seqHi ∧
    (s.phase = .idle → s.windows = [] →
      reads 0x1C s.outLen ∧ reads 0x38 s.idx ∧
      ∀ i : Fin 4, reads (0x40 + 4 * i.val) (s.regValue (.cb i)) ∧ reads (0x50 + 4 * i.val) (s.regValue (.ks i)))

/-- R44: SHIFT reads 8 without a sequence and the leading zeros of SEQ with one, at most 64, at every read; it reads 8 after
reset. -/
def Obligations.ShiftReadsTheCurrentShift : Prop :=
  (∀ (s : State) (rest : List Event), s.events = .hostRead (s.platform.regBase + 0x34) 4 :: rest →
    ∃ v : Word, step s = .next { s with events := rest, response := some v } ∧
      v.toNat = (if s.ctrl.seqPresent then lz64 s.seq else 8) ∧ v.toNat ≤ 64) ∧
  State.reset.regValue .shift = 8

/-- CB0 to CB3 and KS0 to KS3 are the little-endian words of CB and KS. -/
def Obligations.BufferViewsAreLittleEndian : Prop :=
  ∀ (s : State) (i : Fin 4),
    (s.regValue (.cb i)).toNat =
      (s.cb.bytes.toList.getD (4 * i.val) 0).toNat + 256 * (s.cb.bytes.toList.getD (4 * i.val + 1) 0).toNat +
      65536 * (s.cb.bytes.toList.getD (4 * i.val + 2) 0).toNat +
      16777216 * (s.cb.bytes.toList.getD (4 * i.val + 3) 0).toNat ∧
    (s.regValue (.ks i)).toNat =
      (s.ks.toList.getD (4 * i.val) 0).toNat + 256 * (s.ks.toList.getD (4 * i.val + 1) 0).toNat +
      65536 * (s.ks.toList.getD (4 * i.val + 2) 0).toNat + 16777216 * (s.ks.toList.getD (4 * i.val + 3) 0).toNat

/-- R55: IRQ is IE and (DONE or ERR) in every state; it falls when the host clears DONE and ERR, when it clears IE, and
when a command is accepted; it is 0 after reset. -/
def Obligations.InterruptIsALevel : Prop :=
  (∀ s : State, s.irq = true ↔ s.ctrl.ie = true ∧ (s.status.done = true ∨ s.status.err = true)) ∧
  State.reset.irq = false ∧
  ∀ (s : State) (v : Word) (rest : List Event),
    (s.events = .hostWrite (s.platform.regBase + 0x04) 4 v :: rest → v.getLsbD 1 = true → v.getLsbD 2 = true →
      ∃ t, step s = .next t ∧ t.irq = false) ∧
    (s.events = .hostWrite (s.platform.regBase + 0x00) 4 v :: rest → v.getLsbD 1 = false → s.phase = .idle →
      ∃ t, step s = .next t ∧ t.irq = false) ∧
    (s.events = .hostWrite (s.platform.regBase + 0x08) 4 v :: rest → s.phase = .idle →
      ∃ t, step s = .next t ∧ t.irq = false)

/-! ## Counter-block codec -/

/-- R137: NOP completes and changes nothing else; run from idle in a state of the invariant it clears a stale error and
keeps OVR. (`windows` and `idxWritten` are the model's own records, log 11 and log 14.) -/
def Obligations.NopOnlyCompletes : Prop :=
  (∀ s : State, exec .nop s = .next { s with status := { s.status with done := true }, phase := .idle }) ∧
  ∀ (s : State) (rest : List Event), s.Inv → s.events = .command 0 :: rest → s.phase = .idle →
    ∃ t, step s = .next t ∧
      t = { s with
        events := rest, status := ⟨true, false, s.status.ovr, 0⟩, windows := t.windows, idxWritten := t.idxWritten }

/-- R155: INIT_CB puts the packed nonce in CB[0..8), completes, and changes nothing else. -/
def Obligations.InitCbPacksTheNonce : Prop :=
  ∀ s : State, exec .initCb s = .next { s with
    cb := ⟨packNonce (s.nonceHi ++ s.nonceLo) s.nonceRnd, s.cb.counter⟩
    status := { s.status with done := true }
    phase := .idle }

/-- After INIT_CB the host reads the milliseconds and the random value in CB0 and the seconds in CB1. -/
def Obligations.HeaderReadsBackThroughCb : Prop :=
  ∀ s t : State, exec .initCb s = .next t →
    (t.regValue (.cb 0)).toNat = (s.nonceHi ++ s.nonceLo).toNat % 1000 + 65536 * s.nonceRnd.toNat ∧
    (t.regValue (.cb 1)).toNat = (s.nonceHi ++ s.nonceLo).toNat / 1000 % 2 ^ 32

/-- R156: ENCODE_IDX puts the packed index and sequence in CB[8..16), completes, and changes nothing else. -/
def Obligations.EncodeIdxPacksTheCounter : Prop :=
  ∀ s : State, exec .encodeIdx s = .next { s with
    cb := ⟨s.cb.header, encodeCounter s.idx.toNat s.ctrl.seqPresent (s.seqHi ++ s.seqLo)⟩
    status := { s.status with done := true }
    phase := .idle }

/-- R153: the eight bytes of the packed nonce, by their values. -/
def Obligations.NoncePackingByteByByte : Prop :=
  ∀ (n : BitVec 64) (r : BitVec 16),
    let b := fun i : Fin 8 => ((packNonce n r)[i]).toNat
    b 0 + 256 * b 1 = n.toNat % 1000 ∧ b 1 ≤ 3 ∧ b 2 + 256 * b 3 = r.toNat ∧
      b 4 + 256 * b 5 + 65536 * b 6 + 16777216 * b 7 = n.toNat / 1000 % 2 ^ 32

/-- R150: the bit length of a 64-bit number and its leading zeros; the bit length of 0 is 0. -/
def Obligations.BitLengthBracketsTheSequence : Prop :=
  bitLength 0 = 0 ∧ lz64 0 = 64 ∧
  ∀ s : BitVec 64, s ≠ 0 → 1 ≤ bitLength s ∧ bitLength s ≤ 64 ∧ 2 ^ (bitLength s - 1) ≤ s.toNat ∧
    s.toNat < 2 ^ bitLength s ∧ lz64 s = 64 - bitLength s

/-- R152, R154: the counter field's bytes, by their values. -/
def Obligations.CounterPackingByteByByte : Prop :=
  ∀ (i : Nat) (p : Bool) (s : BitVec 64),
    let b := fun k : Fin 8 => ((encodeCounter i p s)[k]).toNat
    b 3 + 256 * b 2 + 65536 * b 1 + 16777216 * b 0 =
      (if p then s.toNat / 2 ^ (64 - bitLength s) % 2 ^ 32 else 0) ∧
    b 7 + 256 * b 6 + 65536 * b 5 + 16777216 * b 4 = i % 2 ^ 32

/-- R159: a sequence below 2^32 packs as 0, a longer one as the low 32 bits of its top bits, and no sequence packs as
sequence 0; the two differ only in the shift, 8 against 64. -/
def Obligations.SmallSequencesContributeNothing : Prop :=
  (∀ s : BitVec 64, s.toNat < 2 ^ 32 → seqWord true s = 0) ∧
  (∀ s : BitVec 64, 2 ^ 32 ≤ s.toNat →
    (seqWord true s).toNat = s.toNat / 2 ^ (bitLength s - (2 * bitLength s - 64)) % 2 ^ 32) ∧
  seqWord true (BitVec.ofNat 64 (2 ^ 63)) = 0 ∧
  ∀ (i : Nat) (s : BitVec 64), encodeCounter i false s = encodeCounter i true 0 ∧ shiftOf false s = 8 ∧
    shiftOf true 0 = 64

/-- R160: the counter field tells indexes apart modulo 2^32, so the counter blocks of one packet are distinct. -/
def Obligations.CounterBlocksOfAPacketAreDistinct : Prop :=
  (∀ (i j : Nat) (p : Bool) (s : BitVec 64),
    encodeCounter i p s = encodeCounter j p s ↔ i % 2 ^ 32 = j % 2 ^ 32) ∧
  ∀ (m i j : Nat) (h : Half) (p : Bool) (s : BitVec 64), m < 2 ^ 32 → i < blockCount m → j < blockCount m →
    joinBytes h (encodeCounter i p s) = joinBytes h (encodeCounter j p s) → i = j

/-- R205: two headers are equal exactly when the nonces agree modulo 1000 * 2^32 and the random values agree, and so
are the first eight output bytes of two successful ENCRYPTs. -/
def Obligations.HeadersDifferWhenNoncesDo : Prop :=
  (∀ (n n' : BitVec 64) (r r' : BitVec 16),
    packNonce n r = packNonce n' r' ↔ n.toNat % (1000 * 2 ^ 32) = n'.toNat % (1000 * 2 ^ 32) ∧ r = r') ∧
  ∀ s t s' t' : State, exec .encrypt s = .next t → s.status.err = false → t.status.err = false →
    exec .encrypt s' = .next t' → s'.status.err = false → t'.status.err = false →
    (Memory.bytes t.mem s.dstAddr.toNat 8 = Memory.bytes t'.mem s'.dstAddr.toNat 8 ↔
      (s.nonceHi ++ s.nonceLo).toNat % (1000 * 2 ^ 32) = (s'.nonceHi ++ s'.nonceLo).toNat % (1000 * 2 ^ 32) ∧
        s.nonceRnd = s'.nonceRnd)

/-! ## Keystream and framing commands -/

/-- GEN_KS with a legal key size puts the cipher's answer in KS and changes nothing else; with any other key size
it ends with KEYSIZE and KS keeps its value. -/
def Obligations.GenKsAsksTheCipher : Prop :=
  ∀ s : State,
    ((s.keyBits = 128 ∨ s.keyBits = 192 ∨ s.keyBits = 256) → exec .genKs s = .next { s with
      ks := pCipher s.cipher s.keyBits s.cb.bytes
      status := { s.status with done := true }
      phase := .idle }) ∧
    (s.keyBits ≠ 128 → s.keyBits ≠ 192 → s.keyBits ≠ 256 → exec .genKs s = .next { s with
      status := { s.status with err := true, errcode := 2 }
      phase := .idle })

/-- HDR_LOAD from eight answering bytes copies them verbatim into CB[0..8) and changes nothing else. -/
def Obligations.HdrLoadCopiesTheHeader : Prop :=
  ∀ s : State, s.srcAddr.toNat + 8 ≤ 2 ^ 32 → s.Reachable s.srcAddr.toNat 8 →
    ∃ h : Half, exec .hdrLoad s = .next { s with
        cb := ⟨h, s.cb.counter⟩
        status := { s.status with done := true }
        phase := .idle } ∧
      ∀ i : Fin 8, h[i] = Memory.byte s.mem (s.srcAddr.toNat + i.val)

/-- HDR_LOAD past the top of the data space ends with RANGE, and on a byte that does not answer with BUS; either way
nothing changes but STATUS. The second case is about plain memory (log 8). -/
def Obligations.HdrLoadErrorsChangeOnlyStatus : Prop :=
  ∀ s : State,
    (2 ^ 32 < s.srcAddr.toNat + 8 → exec .hdrLoad s = .next { s with
      status := { s.status with err := true, errcode := 4 }
      phase := .idle }) ∧
    (s.srcAddr.toNat + 8 ≤ 2 ^ 32 → (∀ i < 8, s.isDevice (s.srcAddr.toNat + i) = false) →
      (∃ i < 8, s.busOk (s.srcAddr.toNat + i) = false) → exec .hdrLoad s = .next { s with
      status := { s.status with err := true, errcode := 6 }
      phase := .idle })

/-- HDR_STORE to eight answering bytes writes CB[0..8) there, and no other byte, and changes nothing else. -/
def Obligations.HdrStoreWritesTheHeader : Prop :=
  ∀ s : State, s.dstAddr.toNat + 8 ≤ 2 ^ 32 → s.Reachable s.dstAddr.toNat 8 →
    ∃ m : Memory, exec .hdrStore s = .next { s with
        mem := m
        status := { s.status with done := true }
        phase := .idle } ∧
      (∀ i : Fin 8, Memory.byte m (s.dstAddr.toNat + i.val) = s.cb.header[i]) ∧
      ∀ a, a < s.dstAddr.toNat ∨ s.dstAddr.toNat + 8 ≤ a → Memory.byte m a = Memory.byte s.mem a

/-- HDR_STORE past the top of the data space ends with RANGE and changes nothing but STATUS; on a byte that does not
answer it ends with BUS, and only the eight destination bytes and the draw counter (log 4) may change besides. -/
def Obligations.HdrStoreErrorsKeepOtherMemory : Prop :=
  ∀ s : State,
    (2 ^ 32 < s.dstAddr.toNat + 8 → exec .hdrStore s = .next { s with
      status := { s.status with err := true, errcode := 4 }
      phase := .idle }) ∧
    (s.dstAddr.toNat + 8 ≤ 2 ^ 32 → (∀ i < 8, s.isDevice (s.dstAddr.toNat + i) = false) →
      (∃ i < 8, s.busOk (s.dstAddr.toNat + i) = false) → ∃ t, exec .hdrStore s = .next t ∧
      t = { s with
        mem := t.mem
        draws := t.draws
        status := { s.status with err := true, errcode := 6 }
        phase := .idle } ∧
      ∀ a, a < s.dstAddr.toNat ∨ s.dstAddr.toNat + 8 ≤ a → Memory.byte t.mem a = Memory.byte s.mem a)

/-- A command whose buffer touches a device register is refused by name once its checks pass and no access before has
ended it (F2; log 8): HDR_LOAD and HDR_STORE at their one access, where the device counts before a byte that does not
answer (log 19); ENCRYPT and DECRYPT, where every byte answers, with a device register anywhere in either range. -/
def Obligations.DeviceBuffersAreRefused : Prop :=
  ∀ s : State,
    (s.srcAddr.toNat + 8 ≤ 2 ^ 32 → (∃ i < 8, s.isDevice (s.srcAddr.toNat + i) = true) →
      exec .hdrLoad s = .refused .deviceBuffer) ∧
    (s.dstAddr.toNat + 8 ≤ 2 ^ 32 → (∃ i < 8, s.isDevice (s.dstAddr.toNat + i) = true) →
      exec .hdrStore s = .refused .deviceBuffer) ∧
    (encryptCheck s = none → (∀ i < s.len.toNat, s.busOk (s.srcAddr.toNat + i) = true) →
      (∀ i < s.len.toNat + 8, s.busOk (s.dstAddr.toNat + i) = true) →
      (∃ i < s.len.toNat, s.isDevice (s.srcAddr.toNat + i) = true) ∨
        (∃ i < s.len.toNat + 8, s.isDevice (s.dstAddr.toNat + i) = true) →
      exec .encrypt s = .refused .deviceBuffer) ∧
    (decryptCheck s = none → (∀ i < s.len.toNat, s.busOk (s.srcAddr.toNat + i) = true) →
      (∀ i < s.len.toNat - 8, s.busOk (s.dstAddr.toNat + i) = true) →
      (∃ i < s.len.toNat, s.isDevice (s.srcAddr.toNat + i) = true) ∨
        (∃ i < s.len.toNat - 8, s.isDevice (s.dstAddr.toNat + i) = true) →
      exec .decrypt s = .refused .deviceBuffer)

/-! ## ENCRYPT and DECRYPT -/

/-- ENCRYPT with a legal key size, valid ranges that share no byte, and answering plain memory: the LEN + 8 bytes at
DST_ADDR are the packed nonce and the transformed body, no other byte changes, IDX is the block count, OUT_LEN is
LEN + 8, KS is zero, CB is the last block's, DONE is set, and nothing else changes. -/
def Obligations.EncryptWritesHeaderAndBody : Prop :=
  ∀ s : State, (s.keyBits = 128 ∨ s.keyBits = 192 ∨ s.keyBits = 256) →
    s.srcAddr.toNat + s.len.toNat ≤ 2 ^ 32 → s.dstAddr.toNat + (s.len.toNat + 8) ≤ 2 ^ 32 →
    (s.len.toNat = 0 ∨ s.srcAddr.toNat + s.len.toNat ≤ s.dstAddr.toNat ∨
      s.dstAddr.toNat + (s.len.toNat + 8) ≤ s.srcAddr.toNat) →
    s.Reachable s.srcAddr.toNat s.len.toNat → s.Reachable s.dstAddr.toNat (s.len.toNat + 8) →
    ∃ t, exec .encrypt s = .next t ∧
      t = { s with
        mem := t.mem, idx := t.idx, outLen := t.outLen, ks := zeroBytes 16, cb := t.cb
        status := { s.status with done := true }, phase := .idle } ∧
      Memory.bytes t.mem s.dstAddr.toNat (s.len.toNat + 8) =
        (packNonce (s.nonceHi ++ s.nonceLo) s.nonceRnd).toList ++
        ctrBody s.cipher s.keyBits (packNonce (s.nonceHi ++ s.nonceLo) s.nonceRnd)
          (Memory.bytes s.mem s.srcAddr.toNat s.len.toNat) s.ctrl.seqPresent (s.seqHi ++ s.seqLo) ∧
      (∀ a, a < s.dstAddr.toNat ∨ s.dstAddr.toNat + (s.len.toNat + 8) ≤ a →
        Memory.byte t.mem a = Memory.byte s.mem a) ∧
      t.idx.toNat = (s.len.toNat + 15) / 16 ∧ t.outLen.toNat = s.len.toNat + 8 ∧
      t.cb.header = packNonce (s.nonceHi ++ s.nonceLo) s.nonceRnd ∧
      t.cb.counter = (if s.len.toNat = 0 then s.cb.counter else
        encodeCounter ((s.len.toNat + 15) / 16 - 1) s.ctrl.seqPresent (s.seqHi ++ s.seqLo))

/-- DECRYPT with a legal key size, LEN at least 8, valid ranges that share no byte, and answering plain memory: the
LEN - 8 bytes at DST_ADDR are the transformed body under the header found at SRC_ADDR, no other byte changes, IDX is
the block count, OUT_LEN is LEN - 8, KS is zero, CB is the last block's, DONE is set, and nothing else changes. -/
def Obligations.DecryptReadsHeaderAndWritesBody : Prop :=
  ∀ s : State, (s.keyBits = 128 ∨ s.keyBits = 192 ∨ s.keyBits = 256) → 8 ≤ s.len.toNat →
    s.srcAddr.toNat + s.len.toNat ≤ 2 ^ 32 → s.dstAddr.toNat + (s.len.toNat - 8) ≤ 2 ^ 32 →
    (s.len.toNat = 8 ∨ s.srcAddr.toNat + s.len.toNat ≤ s.dstAddr.toNat ∨
      s.dstAddr.toNat + (s.len.toNat - 8) ≤ s.srcAddr.toNat) →
    s.Reachable s.srcAddr.toNat s.len.toNat → s.Reachable s.dstAddr.toNat (s.len.toNat - 8) →
    ∃ t, exec .decrypt s = .next t ∧
      t = { s with
        mem := t.mem, idx := t.idx, outLen := t.outLen, ks := zeroBytes 16, cb := t.cb
        status := { s.status with done := true }, phase := .idle } ∧
      t.cb.header.toList = Memory.bytes s.mem s.srcAddr.toNat 8 ∧
      Memory.bytes t.mem s.dstAddr.toNat (s.len.toNat - 8) =
        ctrBody s.cipher s.keyBits t.cb.header (Memory.bytes s.mem (s.srcAddr.toNat + 8) (s.len.toNat - 8))
          s.ctrl.seqPresent (s.seqHi ++ s.seqLo) ∧
      (∀ a, a < s.dstAddr.toNat ∨ s.dstAddr.toNat + (s.len.toNat - 8) ≤ a →
        Memory.byte t.mem a = Memory.byte s.mem a) ∧
      t.idx.toNat = (s.len.toNat - 8 + 15) / 16 ∧ t.outLen.toNat = s.len.toNat - 8 ∧
      t.cb.counter = (if s.len.toNat = 8 then s.cb.counter else
        encodeCounter ((s.len.toNat - 8 + 15) / 16 - 1) s.ctrl.seqPresent (s.seqHi ++ s.seqLo))

/-- ENCRYPT's checks in their order: KEYSIZE, RANGE of the source, RANGE of the destination, OVERLAP. Each ends the
command with its code, KS zeroed and OUT_LEN 0, and changes nothing else. -/
def Obligations.EncryptChecksInOrder : Prop :=
  ∀ s : State,
    let legal := s.keyBits = 128 ∨ s.keyBits = 192 ∨ s.keyBits = 256
    let ends := fun code : BitVec 4 => exec .encrypt s = .next { s with
      ks := zeroBytes 16, outLen := 0, status := { s.status with err := true, errcode := code }, phase := .idle }
    (¬legal → ends 2) ∧
    (legal → 2 ^ 32 < s.srcAddr.toNat + s.len.toNat → ends 4) ∧
    (legal → s.srcAddr.toNat + s.len.toNat ≤ 2 ^ 32 → 2 ^ 32 < s.dstAddr.toNat + (s.len.toNat + 8) → ends 4) ∧
    (legal → s.srcAddr.toNat + s.len.toNat ≤ 2 ^ 32 → s.dstAddr.toNat + (s.len.toNat + 8) ≤ 2 ^ 32 →
      0 < s.len.toNat → s.srcAddr.toNat < s.dstAddr.toNat + (s.len.toNat + 8) →
      s.dstAddr.toNat < s.srcAddr.toNat + s.len.toNat → ends 5)

/-- DECRYPT's checks in their order: KEYSIZE, SHORT, RANGE of the source, RANGE of the destination, OVERLAP. Each ends
the command with its code, KS zeroed and OUT_LEN 0, and changes nothing else. -/
def Obligations.DecryptChecksInOrder : Prop :=
  ∀ s : State,
    let legal := s.keyBits = 128 ∨ s.keyBits = 192 ∨ s.keyBits = 256
    let ends := fun code : BitVec 4 => exec .decrypt s = .next { s with
      ks := zeroBytes 16, outLen := 0, status := { s.status with err := true, errcode := code }, phase := .idle }
    (¬legal → ends 2) ∧
    (legal → s.len.toNat < 8 → ends 3) ∧
    (legal → 8 ≤ s.len.toNat → 2 ^ 32 < s.srcAddr.toNat + s.len.toNat → ends 4) ∧
    (legal → 8 ≤ s.len.toNat → s.srcAddr.toNat + s.len.toNat ≤ 2 ^ 32 →
      2 ^ 32 < s.dstAddr.toNat + (s.len.toNat - 8) → ends 4) ∧
    (legal → 8 < s.len.toNat → s.srcAddr.toNat + s.len.toNat ≤ 2 ^ 32 →
      s.dstAddr.toNat + (s.len.toNat - 8) ≤ 2 ^ 32 → s.srcAddr.toNat < s.dstAddr.toNat + (s.len.toNat - 8) →
      s.dstAddr.toNat < s.srcAddr.toNat + s.len.toNat → ends 5)

/-- An ENCRYPT that its checks let run ends with BUS where some byte of either range does not answer and neither has a
device register (log 8). One that its checks let run and that ends with an error ends with BUS: KS is zero, OUT_LEN is
0, CB[0..8) is the packed nonce. Either the header write met a byte that does not answer, IDX is 0 and only the
header's bytes may change; or IDX is the index b of the block whose access did, and blocks before b are written. Where
that access is b's read, no byte past them changes; where it is b's write, only b's own bytes do. -/
def Obligations.EncryptBusErrorKeepsEarlierBlocks : Prop :=
  (∀ s : State, encryptCheck s = none → (∀ i < s.len.toNat, s.isDevice (s.srcAddr.toNat + i) = false) →
    (∀ i < s.len.toNat + 8, s.isDevice (s.dstAddr.toNat + i) = false) →
    (∃ i < s.len.toNat, s.busOk (s.srcAddr.toNat + i) = false) ∨
      (∃ i < s.len.toNat + 8, s.busOk (s.dstAddr.toNat + i) = false) →
    ∃ t, exec .encrypt s = .next t ∧ t.status.err = true ∧ t.status.errcode = 6) ∧
  ∀ s t : State, encryptCheck s = none → exec .encrypt s = .next t → s.status.err = false → t.status.err = true →
    t.status.errcode = 6 ∧ t.ks = zeroBytes 16 ∧ t.outLen = 0 ∧
    t.cb.header = packNonce (s.nonceHi ++ s.nonceLo) s.nonceRnd ∧
    ((t.idx = 0 ∧ t.cb.counter = s.cb.counter ∧ (∃ i < 8, s.busOk (s.dstAddr.toNat + i) = false) ∧
        ∀ a, a < s.dstAddr.toNat ∨ s.dstAddr.toNat + 8 ≤ a → Memory.byte t.mem a = Memory.byte s.mem a) ∨
     (t.idx.toNat < (s.len.toNat + 15) / 16 ∧
        t.cb.counter = encodeCounter t.idx.toNat s.ctrl.seqPresent (s.seqHi ++ s.seqLo) ∧
        Memory.bytes t.mem s.dstAddr.toNat (8 + 16 * t.idx.toNat) =
          (packNonce (s.nonceHi ++ s.nonceLo) s.nonceRnd).toList ++
          ctrBody s.cipher s.keyBits (packNonce (s.nonceHi ++ s.nonceLo) s.nonceRnd)
            (Memory.bytes s.mem s.srcAddr.toNat (16 * t.idx.toNat)) s.ctrl.seqPresent (s.seqHi ++ s.seqLo) ∧
        let size := min 16 (s.len.toNat - 16 * t.idx.toNat)
        (((∃ i < size, s.busOk (s.srcAddr.toNat + 16 * t.idx.toNat + i) = false) ∧
            ∀ a, a < s.dstAddr.toNat ∨ s.dstAddr.toNat + 8 + 16 * t.idx.toNat ≤ a →
              Memory.byte t.mem a = Memory.byte s.mem a) ∨
         ((∀ i < size, s.busOk (s.srcAddr.toNat + 16 * t.idx.toNat + i) = true) ∧
            (∃ i < size, s.busOk (s.dstAddr.toNat + 8 + 16 * t.idx.toNat + i) = false) ∧
            ∀ a, a < s.dstAddr.toNat ∨ s.dstAddr.toNat + 8 + 16 * t.idx.toNat + size ≤ a →
              Memory.byte t.mem a = Memory.byte s.mem a))))

/-- A DECRYPT that its checks let run ends with BUS where some byte of either range does not answer and neither has a
device register (log 8). One that its checks let run and that ends with an error ends with BUS: KS is zero and OUT_LEN
is 0. Either the header read met a byte that does not answer, and CB and memory are unchanged and IDX is 0; or IDX is
the index b of the block whose access did, CB is what the action list put there, and blocks before b are written. Where
that access is b's read, no byte past them changes; where it is b's write, only b's own bytes do. -/
def Obligations.DecryptBusErrorKeepsEarlierBlocks : Prop :=
  (∀ s : State, decryptCheck s = none → (∀ i < s.len.toNat, s.isDevice (s.srcAddr.toNat + i) = false) →
    (∀ i < s.len.toNat - 8, s.isDevice (s.dstAddr.toNat + i) = false) →
    (∃ i < s.len.toNat, s.busOk (s.srcAddr.toNat + i) = false) ∨
      (∃ i < s.len.toNat - 8, s.busOk (s.dstAddr.toNat + i) = false) →
    ∃ t, exec .decrypt s = .next t ∧ t.status.err = true ∧ t.status.errcode = 6) ∧
  ∀ s t : State, decryptCheck s = none → exec .decrypt s = .next t → s.status.err = false → t.status.err = true →
    t.status.errcode = 6 ∧ t.ks = zeroBytes 16 ∧ t.outLen = 0 ∧
    ((t.idx = 0 ∧ t.cb = s.cb ∧ t.mem = s.mem ∧ ∃ i < 8, s.busOk (s.srcAddr.toNat + i) = false) ∨
     (t.idx.toNat < (s.len.toNat - 8 + 15) / 16 ∧
        t.cb.header.toList = Memory.bytes s.mem s.srcAddr.toNat 8 ∧
        t.cb.counter = encodeCounter t.idx.toNat s.ctrl.seqPresent (s.seqHi ++ s.seqLo) ∧
        Memory.bytes t.mem s.dstAddr.toNat (16 * t.idx.toNat) =
          ctrBody s.cipher s.keyBits t.cb.header (Memory.bytes s.mem (s.srcAddr.toNat + 8) (16 * t.idx.toNat))
            s.ctrl.seqPresent (s.seqHi ++ s.seqLo) ∧
        let size := min 16 (s.len.toNat - 8 - 16 * t.idx.toNat)
        (((∃ i < size, s.busOk (s.srcAddr.toNat + 8 + 16 * t.idx.toNat + i) = false) ∧
            ∀ a, a < s.dstAddr.toNat ∨ s.dstAddr.toNat + 16 * t.idx.toNat ≤ a →
              Memory.byte t.mem a = Memory.byte s.mem a) ∨
         ((∀ i < size, s.busOk (s.srcAddr.toNat + 8 + 16 * t.idx.toNat + i) = true) ∧
            (∃ i < size, s.busOk (s.dstAddr.toNat + 16 * t.idx.toNat + i) = false) ∧
            ∀ a, a < s.dstAddr.toNat ∨ s.dstAddr.toNat + 16 * t.idx.toNat + size ≤ a →
              Memory.byte t.mem a = Memory.byte s.mem a))))

/-- OUT_LEN tells the output's length: LEN + 8 after a successful ENCRYPT, LEN - 8 after a successful DECRYPT, as
numbers that fit, and 0 after either ends with an error; no other command writes it. -/
def Obligations.OutLenTellsTheOutputLength : Prop :=
  (∀ s t : State, exec .encrypt s = .next t → s.status.err = false →
    t.outLen.toNat = if t.status.err then 0 else s.len.toNat + 8) ∧
  (∀ s t : State, exec .decrypt s = .next t → s.status.err = false →
    (t.status.err = false → 8 ≤ s.len.toNat) ∧ t.outLen.toNat = if t.status.err then 0 else s.len.toNat - 8) ∧
  ∀ (i : Instr) (s t : State), i ≠ .encrypt → i ≠ .decrypt → exec i s = .next t → t.outLen = s.outLen

/-- R204: after a successful ENCRYPT the first eight bytes at DST_ADDR are the packed nonce, whatever the plaintext,
LEN, KEY_BITS, the cipher, SEQ_PRESENT and SEQ. -/
def Obligations.EncryptHeaderIsThePackedNonce : Prop :=
  ∀ s t : State, exec .encrypt s = .next t → s.status.err = false → t.status.err = false →
    Memory.bytes t.mem s.dstAddr.toNat 8 = (packNonce (s.nonceHi ++ s.nonceLo) s.nonceRnd).toList

/-- The body transform is its own inverse and keeps the length. -/
def Obligations.BodyTransformIsItsOwnInverse : Prop :=
  ∀ (c : Collaborator) (kb : Word) (h : Half) (x : List Byte) (p : Bool) (s : BitVec 64),
    (ctrBody c kb h x p s).length = x.length ∧ ctrBody c kb h (ctrBody c kb h x p s) p s = x

/-- No integrity: bits flipped in a body come out flipped at the same places, and at no other. -/
def Obligations.BodyTransformIsMalleable : Prop :=
  ∀ (c : Collaborator) (kb : Word) (h : Half) (x d : List Byte) (p : Bool) (s : BitVec 64), d.length = x.length →
    ctrBody c kb h (xorBytes x d) p s = xorBytes (ctrBody c kb h x p s) d

/-- The blocks of a body cover it exactly: every block but the last is full, and the last one's length is
((M - 1) mod 16) + 1. -/
def Obligations.BlocksCoverTheBody : Prop :=
  ∀ m b : Nat, b < blockCount m →
    (b + 1 < blockCount m → blockLen m b = 16 ∧ 16 * (b + 1) < m) ∧
    (b + 1 = blockCount m → blockLen m b = (m - 1) % 16 + 1 ∧ 16 * b + blockLen m b = m)

/-- Round trip: after a successful ENCRYPT, a DECRYPT of its unmodified output in any later state u with the same key
size, sequence setting and cipher, into a range that passes its checks, where all of its memory answers, completes and
writes the plaintext. -/
def Obligations.DecryptUndoesEncrypt : Prop :=
  ∀ s t u : State, exec .encrypt s = .next t → s.status.err = false → t.status.err = false →
    u.keyBits = s.keyBits → u.cipher = s.cipher → u.ctrl.seqPresent = s.ctrl.seqPresent →
    u.seqHi ++ u.seqLo = s.seqHi ++ s.seqLo → u.srcAddr = s.dstAddr → u.len.toNat = s.len.toNat + 8 →
    Memory.bytes u.mem s.dstAddr.toNat (s.len.toNat + 8) = Memory.bytes t.mem s.dstAddr.toNat (s.len.toNat + 8) →
    u.dstAddr.toNat + s.len.toNat ≤ 2 ^ 32 →
    (s.len.toNat = 0 ∨ s.dstAddr.toNat + (s.len.toNat + 8) ≤ u.dstAddr.toNat ∨
      u.dstAddr.toNat + s.len.toNat ≤ s.dstAddr.toNat) →
    u.Reachable s.dstAddr.toNat (s.len.toNat + 8) → u.Reachable u.dstAddr.toNat s.len.toNat →
    ∃ v, exec .decrypt u = .next v ∧ v.status.err = u.status.err ∧ v.status.done = true ∧ v.outLen = s.len ∧
      Memory.bytes v.mem u.dstAddr.toNat s.len.toNat = Memory.bytes s.mem s.srcAddr.toNat s.len.toNat

/-! ## Rules over all commands -/

/-- No command changes a register that only the host writes, the platform, the cipher, or anything outside the engine
but data memory, and every command ends with the engine idle and OVR as it was. -/
def Obligations.CommandsKeepHostRegisters : Prop :=
  ∀ (i : Instr) (s t : State), exec i s = .next t →
    t = { s with
      idx := t.idx, outLen := t.outLen, cb := t.cb, ks := t.ks, mem := t.mem, draws := t.draws
      status := ⟨t.status.done, t.status.err, s.status.ovr, t.status.errcode⟩, phase := .idle }

/-- Every command that ends has set exactly one of DONE and ERR, given that acceptance cleared both: DONE with ERRCODE
0, or ERR with a code of 1 to 6; so IRQ follows CTRL.IE. -/
def Obligations.CommandsEndWithDoneOrErr : Prop :=
  ∀ (i : Instr) (s t : State), exec i s = .next t → s.status.done = false → s.status.err = false →
    s.status.errcode = 0 →
    ((t.status.done = true ∧ t.status.err = false ∧ t.status.errcode = 0) ∨
     (t.status.done = false ∧ t.status.err = true ∧ 1 ≤ t.status.errcode.toNat ∧ t.status.errcode.toNat ≤ 6)) ∧
    t.irq = s.ctrl.ie

/-- The engine writes no byte of data memory outside the range its command names, whether it succeeds or fails. -/
def Obligations.CommandsWriteOnlyTheirDestination : Prop :=
  ∀ (i : Instr) (s t : State), exec i s = .next t →
    ∀ a, inRegion (destination i s) a = false → Memory.byte t.mem a = Memory.byte s.mem a

/-- Only INIT_CB, HDR_LOAD, ENCRYPT and DECRYPT change CB[0..8); only ENCODE_IDX, ENCRYPT and DECRYPT change CB[8..16);
only GEN_KS, ENCRYPT and DECRYPT change KS; only ENCRYPT and DECRYPT change IDX. -/
def Obligations.OnlyTheirCommandsChangeBuffers : Prop :=
  ∀ (i : Instr) (s t : State), exec i s = .next t →
    (i ∉ [Instr.initCb, .hdrLoad, .encrypt, .decrypt] → t.cb.header = s.cb.header) ∧
    (i ∉ [Instr.encodeIdx, .encrypt, .decrypt] → t.cb.counter = s.cb.counter) ∧
    (i ∉ [Instr.genKs, .encrypt, .decrypt] → t.ks = s.ks) ∧
    (i ∉ [Instr.encrypt, .decrypt] → t.idx = s.idx)

/-- Every ENCRYPT and DECRYPT, successful or not, leaves KS zero. -/
def Obligations.StreamCommandsZeroKeystream : Prop :=
  ∀ (i : Instr) (s t : State), i = .encrypt ∨ i = .decrypt → exec i s = .next t → t.ks = zeroBytes 16

/-! ## Reset, invariant and the small-step sequencer -/

/-- What the reset input leaves in the engine, whatever it was doing, and what the engine starts with (R250); it leaves
the cipher alone, and data memory too but for a write in progress and races (R251; log 11, log 15). -/
def Obligations.ResetLeavesZeros : Prop :=
  let zeros := fun t : State =>
    t.ctrl = ⟨false, false⟩ ∧ t.status = ⟨false, false, false, 0⟩ ∧ t.statusWord = 0 ∧ t.keyBits = 0 ∧ t.srcAddr = 0 ∧
    t.dstAddr = 0 ∧ t.len = 0 ∧ t.outLen = 0 ∧ t.nonceLo = 0 ∧ t.nonceHi = 0 ∧ t.nonceRnd = 0 ∧ t.seqLo = 0 ∧
    t.seqHi = 0 ∧ t.idx = 0 ∧ t.cb = ⟨zeroBytes 8, zeroBytes 8⟩ ∧ t.ks = zeroBytes 16 ∧ t.phase = .idle ∧
    t.irq = false ∧ t.regValue .shift = 8
  zeros State.reset ∧
  ∀ (s : State) (rest : List Event), s.events = .reset :: rest →
    ∃ t, step s = .next t ∧ zeros t ∧ t.cipher = s.cipher ∧
      (s.windows.all Window.quiet = true →
        (∀ r a bs, s.phase = .busy r → r.outstanding ≠ some (.write a bs)) → t.mem = s.mem)

/-- The reset input puts the engine in its reset state whatever it was doing and changes no data memory but the bytes
of a write in progress, when no other agent has touched a command's ranges (races: log 11, log 15). -/
def Obligations.ResetInputRestoresTheEngine : Prop :=
  ∀ (s : State) (rest : List Event), s.events = .reset :: rest → s.windows.all Window.quiet = true →
    ∃ t, step s = .next t ∧
      t = { State.reset with
        mem := t.mem, platform := s.platform, cipher := s.cipher, others := s.others, hostCache := s.hostCache
        response := s.response, dataResponse := s.dataResponse, events := rest, draws := t.draws } ∧
      ∀ a, (∀ r b bs, s.phase = .busy r → r.outstanding = some (.write b bs) → a < b ∨ b + bs.length ≤ a) →
        Memory.byte t.mem a = Memory.byte s.mem a

/-- The reset state meets the invariant. -/
def Obligations.ResetMeetsInvariant : Prop := State.reset.Inv

/-- Every step keeps the invariant: data memory in canonical form and inside the data space, STATUS consistent, DONE and
ERR 0 while a command runs, and the sequencer at a legal position of its command's action list. -/
def Obligations.StepKeepsInvariant : Prop := ∀ s t : State, s.Inv → step s = .next t → t.Inv

/-- From a state that meets the invariant the engine side's move never meets a model fault: it gives a next state, or is
refused because a buffer touches a device register (log 8). -/
def Obligations.EngineMoveNeverFaults : Prop :=
  ∀ s : State, s.Inv → (∃ t, engineMove s = .next t) ∨ engineMove s = .refused .deviceBuffer

/-- The one-step reading of a command agrees with its action list: a write to CMD followed by engine moves alone
reaches the same state as the command in one step. -/
def Obligations.OneStepAgreesWithActionList : Prop :=
  ∀ (s t : State) (w : Word), s.Inv → s.phase = .idle →
    step { s with events := [.command w] } = .next t →
    ∃ k, Host.Core.run Sys2Proof.core k { s with events := [.hostWrite (s.platform.regBase + 8) 4 w] } = .next t

/-- Every accepted command ends: with no further input, engine moves alone bring a running engine to idle, or stop at a
device buffer (log 8), after at most 7 moves for each 16 bytes, or part of them, of the command's body and 5 more. The
body is LEN bytes in ENCRYPT, LEN - 8 in DECRYPT, none in another command. That an access is two moves, the request and
the answer, is the model's choice (log 16, log 17). -/
def Obligations.EveryCommandEnds : Prop :=
  ∀ (s : State) (r : Running), s.Inv → s.events = [] → s.phase = .busy r →
    let bodyLen := match decodeWord r.word with
      | .ok .encrypt => s.len.toNat
      | .ok .decrypt => s.len.toNat - 8
      | _ => 0
    ∃ k ≤ 7 * ((bodyLen + 15) / 16) + 5, (∃ t, Host.Core.run Sys2Proof.core k s = .next t ∧ t.phase = .idle) ∨
      Host.Core.run Sys2Proof.core k s = .refused .deviceBuffer

/-- An idle engine with no input does nothing. -/
def Obligations.IdleEngineDoesNothing : Prop :=
  ∀ s : State, s.Inv → s.events = [] → s.phase = .idle → step s = .next s

/-- Another master's accesses outside the ranges of every open command that it may not touch, of this engine and of the
platform's other instances, read and write data memory and change nothing else. The master is the host or a bus master,
or another engine instance that the platform has (log 9). -/
def Obligations.UnwatchedMasterAccessIsPlain : Prop :=
  (∀ (s : State) (who : Master) (a : Nat) (bs : List Byte) (rest : List Event), s.Inv → s.hasMaster who = true →
    s.events = .masterWrite who a bs :: rest → a + bs.length ≤ 2 ^ 32 →
    (∀ i < bs.length, s.watched who (a + i) = false) →
    ∃ t, step s = .next t ∧ t = { s with events := rest, mem := t.mem } ∧
      (∀ i (h : i < bs.length), Memory.byte t.mem (a + i) = bs[i]) ∧
      ∀ x, x < a ∨ a + bs.length ≤ x → Memory.byte t.mem x = Memory.byte s.mem x) ∧
  ∀ (s : State) (who : Master) (a n : Nat) (rest : List Event), s.Inv → s.hasMaster who = true →
    s.events = .masterRead who a n :: rest → a + n ≤ 2 ^ 32 →
    (∀ i < n, s.watched who (a + i) = false) →
    step s = .next { s with events := rest, dataResponse := Memory.bytes s.mem a n }

/-- Outside every command's ranges: on a coherent platform what the host stores is in data memory at once, and a load
gives data memory's bytes. On another (P_COHERENT false; the caches are the model's, log 10) a store leaves data memory
as it was until a write back puts its bytes there, and no other byte; a load gives the host's copy of a byte where it
holds one; and an invalidate forgets the copies, after which the host holds none. That this is so at silent and device
addresses too is the model's choice (log 26). -/
def Obligations.HostAccessesFollowCoherence : Prop :=
  ∀ (s : State) (a n : Nat) (bs : List Byte) (rest : List Event), s.Inv → bs.length = n → a + n ≤ 2 ^ 32 →
    (∀ i < n, s.watched .bus (a + i) = false) →
    let input := fun (t : State) (e : Event) => step { t with events := e :: rest }
    let wrote := fun t : State =>
      (∀ i (h : i < bs.length), Memory.byte t.mem (a + i) = bs[i]) ∧
      ∀ x, x < a ∨ a + n ≤ x → Memory.byte t.mem x = Memory.byte s.mem x
    (s.platform.coherent = true →
      (∃ t, input s (.hostStore a bs) = .next t ∧ t = { s with events := rest, mem := t.mem } ∧ wrote t) ∧
      input s (.hostLoad a n) = .next { s with events := rest, dataResponse := Memory.bytes s.mem a n }) ∧
    (s.platform.coherent = false →
      (∃ t, input s (.hostStore a bs) = .next t ∧ t = { s with events := rest, hostCache := t.hostCache } ∧
        ∃ u, input t (.hostCache .writeBack a n) = .next u ∧
          u = { s with events := rest, mem := u.mem, hostCache := u.hostCache } ∧ wrote u) ∧
      (∃ t, input s (.hostLoad a n) = .next t ∧
        t = { s with events := rest, dataResponse := t.dataResponse, hostCache := t.hostCache } ∧
        t.dataResponse = (List.range n).map fun i =>
          (s.hostCache.find (a + i)).getD (Memory.byte s.mem (a + i))) ∧
      ∃ t, input s (.hostCache .invalidate a n) = .next t ∧
        t = { s with events := rest, hostCache := t.hostCache } ∧ ∀ i < n, t.hostCache.find (a + i) = none)
end

