-- ==== Sys2Proof/Laws/Memory.lean ====
section
/-! SUPPORT. Data memory: read after write, and that every write keeps the canonical form (R74, R75). -/

namespace Sys2Proof.Machine

theorem Memory.find_store (m : Memory) (a b : Nat) (v : Byte) :
    Memory.find (Memory.store m a v) b = if a = b then some v else Memory.find m b := by
  induction m with
  | nil => simp [Memory.store, Memory.find]
  | cons c m ih =>
    simp only [Memory.store]
    split
    · by_cases h : a = b <;> simp [Memory.find, h]
    · split
      · rename_i h; subst h; by_cases h : c.1 = b <;> simp [Memory.find, h]
      · rename_i h1 h2
        simp only [Memory.find, ih]
        by_cases h : c.1 = b
        · subst h; simp [Ne.symm (Ne.symm h2)]
        · simp [h]

/-- Read after write of one byte. -/
theorem Memory.byte_store (m : Memory) (a b : Nat) (v : Byte) :
    Memory.byte (Memory.store m a v) b = if a = b then v else Memory.byte m b := by
  by_cases h : a = b <;> simp [Memory.byte, Memory.find_store, h]

theorem Memory.mem_store {m : Memory} {a : Nat} {v : Byte} {c : Host.Cell} (h : c ∈ Memory.store m a v) :
    c = (a, v) ∨ c ∈ m := by
  induction m with
  | nil => simpa [Memory.store] using h
  | cons d m ih =>
    simp only [Memory.store] at h
    split at h
    · simpa using h
    · split at h
      · rcases List.mem_cons.1 h with h | h
        · exact .inl h
        · exact .inr (List.mem_cons_of_mem _ h)
      · rcases List.mem_cons.1 h with h | h
        · exact .inr (by simp [h])
        · rcases ih h with h | h
          · exact .inl h
          · exact .inr (List.mem_cons_of_mem _ h)

theorem Memory.pairwise_store {m : Memory} (h : m.Pairwise (fun c d => c.1 < d.1)) (a : Nat) (v : Byte) :
    (Memory.store m a v).Pairwise (fun c d => c.1 < d.1) := by
  induction m with
  | nil => simp [Memory.store]
  | cons d m ih =>
    rw [List.pairwise_cons] at h
    simp only [Memory.store]
    split
    · rename_i hlt
      refine List.pairwise_cons.2 ⟨fun c hc => ?_, List.pairwise_cons.2 h⟩
      rcases List.mem_cons.1 hc with rfl | hc
      · exact hlt
      · exact hlt.trans (h.1 c hc)
    · split
      · rename_i heq
        subst heq
        exact List.pairwise_cons.2 h
      · refine List.pairwise_cons.2 ⟨fun c hc => ?_, ih h.2⟩
        rcases Memory.mem_store hc with rfl | hc
        · dsimp only; omega
        · exact h.1 c hc

/-- A write inside the data space keeps the canonical form. -/
theorem Memory.wf_store {m : Memory} (h : Memory.wf m) {a : Nat} (ha : a < dataSpaceBytes) (v : Byte) :
    Memory.wf (Memory.store m a v) := by
  refine ⟨Memory.pairwise_store h.1 a v, fun c hc => ?_⟩
  rcases Memory.mem_store hc with rfl | hc
  · exact ha
  · exact h.2 c hc

/-- A string written inside the data space keeps the canonical form. -/
theorem Memory.wf_storeBytes {m : Memory} (h : Memory.wf m) {a : Nat} {bs : List Byte}
    (ha : a + bs.length ≤ dataSpaceBytes) : Memory.wf (Memory.storeBytes m a bs) := by
  induction bs generalizing m a with
  | nil => exact h
  | cons b bs ih =>
    simp only [List.length_cons] at ha
    exact ih (Memory.wf_store h (by omega) b) (by omega)

theorem Memory.find_filter (m : Memory) (keep : Nat → Bool) (x : Nat) :
    Memory.find (m.filter fun c => keep c.1) x = if keep x then Memory.find m x else none := by
  induction m with
  | nil => simp [Memory.find]
  | cons c m ih =>
    by_cases hc : c.1 = x
    · subst hc
      by_cases hk : keep c.1 <;> simp [hk, ih, Memory.find]
    · by_cases hk : keep c.1 <;> simp [hk, ih, Memory.find, hc]

/-- Bytes that were forgotten are not found, and the others as before. -/
theorem Memory.find_erase (m : Memory) (a n x : Nat) :
    Memory.find (Memory.erase m a n) x = if a ≤ x ∧ x < a + n then none else Memory.find m x := by
  rw [Memory.erase, Memory.find_filter m (fun y => !decide (a ≤ y ∧ y < a + n))]
  by_cases h : a ≤ x ∧ x < a + n <;> simp [h]

/-- Forgetting bytes keeps the canonical form. -/
theorem Memory.wf_erase {m : Memory} (h : Memory.wf m) (a n : Nat) : Memory.wf (Memory.erase m a n) :=
  ⟨h.1.filter _, fun c hc => h.2 c (List.mem_filter.1 hc).1⟩

/-- A written string is found byte by byte, and elsewhere what was there. -/
theorem Memory.find_storeBytes (m : Memory) (a : Nat) (bs : List Byte) (x : Nat) :
    Memory.find (Memory.storeBytes m a bs) x =
      if h : a ≤ x ∧ x - a < bs.length then some (bs[x - a]'h.2) else Memory.find m x := by
  induction bs generalizing m a with
  | nil => simp [Memory.storeBytes]
  | cons b bs ih =>
    simp only [Memory.storeBytes, ih, List.length_cons, Memory.find_store]
    by_cases hx : a = x
    · subst hx; simp
    · by_cases h1 : a + 1 ≤ x ∧ x - (a + 1) < bs.length
      · have h2 : a ≤ x ∧ x - a < bs.length + 1 := by omega
        rw [dif_pos h1, dif_pos h2]
        have : x - a = x - (a + 1) + 1 := by omega
        simp [this]
      · have h2 : ¬(a ≤ x ∧ x - a < bs.length + 1) := by omega
        rw [dif_neg h1, dif_neg h2, if_neg hx]

/-- Read after write of a string: inside it the written byte, outside it what was there (R75). -/
theorem Memory.byte_storeBytes (m : Memory) (a : Nat) (bs : List Byte) (x : Nat) :
    Memory.byte (Memory.storeBytes m a bs) x =
      if h : a ≤ x ∧ x - a < bs.length then bs[x - a]'h.2 else Memory.byte m x := by
  rw [Memory.byte, Memory.find_storeBytes]
  split <;> rfl

/-- A byte outside a written string is unchanged (R75). -/
theorem Memory.byte_storeBytes_outside (m : Memory) {a x : Nat} {bs : List Byte}
    (h : x < a ∨ a + bs.length ≤ x) : Memory.byte (Memory.storeBytes m a bs) x = Memory.byte m x := by
  rw [Memory.byte_storeBytes, dif_neg (by omega)]

/-- Byte i of a written string is at a + i (R75). -/
theorem Memory.byte_storeBytes_inside (m : Memory) (a : Nat) (bs : List Byte) {i : Nat} (h : i < bs.length) :
    Memory.byte (Memory.storeBytes m a bs) (a + i) = bs[i] := by
  rw [Memory.byte_storeBytes, dif_pos (by omega)]
  simp

@[simp] theorem Memory.length_bytes (m : Memory) (a n : Nat) : (Memory.bytes m a n).length = n := by
  simp [Memory.bytes]

@[simp] theorem Memory.getElem_bytes (m : Memory) (a n i : Nat) (h : i < (Memory.bytes m a n).length) :
    (Memory.bytes m a n)[i] = Memory.byte m (a + i) := by
  simp [Memory.bytes]

/-- Two memories that hold the same bytes on a range give the same string. -/
theorem Memory.bytes_congr {m m' : Memory} {a n : Nat}
    (h : ∀ i < n, Memory.byte m (a + i) = Memory.byte m' (a + i)) : Memory.bytes m a n = Memory.bytes m' a n := by
  apply List.ext_getElem (by simp)
  intro i h1 h2
  simpa using h i (by simpa using h1)

/-- Reading back a written string gives it (R75). -/
theorem Memory.bytes_storeBytes (m : Memory) (a : Nat) (bs : List Byte) :
    Memory.bytes (Memory.storeBytes m a bs) a bs.length = bs := by
  apply List.ext_getElem (by simp)
  intro i h1 h2
  simp [Memory.byte_storeBytes_inside _ _ _ h2]

theorem Memory.bytes_add (m : Memory) (a n k : Nat) :
    Memory.bytes m a (n + k) = Memory.bytes m a n ++ Memory.bytes m (a + n) k := by
  simp [Memory.bytes, List.range_add, Nat.add_assoc]

theorem mem_addresses {a n x : Nat} : x ∈ addresses a n ↔ a ≤ x ∧ x < a + n := by
  simp only [addresses, List.mem_map, List.mem_range]
  constructor
  · rintro ⟨i, hi, rfl⟩; omega
  · intro h; exact ⟨x - a, by omega, by omega⟩

theorem addresses_nodup (a n : Nat) : (addresses a n).Nodup :=
  (List.nodup_map_iff fun _ _ h => by simpa using h).2 List.nodup_range

/-- Free bytes put at addresses change nothing but those bytes and the number of draws (R75, R251, R256). -/
theorem State.scramble_eq (as : List Nat) (s : State) :
    State.scramble as s = { s with mem := (State.scramble as s).mem, draws := s.draws + as.length } := by
  induction as generalizing s with
  | nil => rfl
  | cons a as ih =>
    rw [State.scramble, ih]
    simp [Nat.add_assoc, Nat.add_comm 1]

/-- A byte that is not among the addresses keeps its value. -/
theorem State.scramble_byte_outside {as : List Nat} {x : Nat} (s : State) (h : x ∉ as) :
    Memory.byte (State.scramble as s).mem x = Memory.byte s.mem x := by
  induction as generalizing s with
  | nil => rfl
  | cons a as ih =>
    simp only [List.mem_cons, not_or] at h
    rw [State.scramble, ih _ h.2, Memory.byte_store, if_neg (Ne.symm h.1)]

/-- Free bytes keep the canonical form. -/
theorem State.scramble_wf {as : List Nat} {s : State} (h : Memory.wf s.mem) (ha : ∀ a ∈ as, a < dataSpaceBytes) :
    Memory.wf (State.scramble as s).mem := by
  induction as generalizing s with
  | nil => exact h
  | cons a as ih =>
    exact ih (Memory.wf_store h (ha a (by simp)) _) fun b hb => ha b (List.mem_cons_of_mem _ hb)

end Sys2Proof.Machine
end

