-- ==== Sys2Proof/Laws/State.lean ====
section
/-! SUPPORT. What each named update of State does to each field; every lemma is true by rfl. -/

namespace Sys2Proof.Machine

/-! Completion (R132). -/

@[simp] theorem State.complete_ctrl (s : State) : s.complete.ctrl = s.ctrl := rfl
@[simp] theorem State.complete_status (s : State) : s.complete.status = s.status.completed := rfl
@[simp] theorem State.complete_keyBits (s : State) : s.complete.keyBits = s.keyBits := rfl
@[simp] theorem State.complete_srcAddr (s : State) : s.complete.srcAddr = s.srcAddr := rfl
@[simp] theorem State.complete_dstAddr (s : State) : s.complete.dstAddr = s.dstAddr := rfl
@[simp] theorem State.complete_len (s : State) : s.complete.len = s.len := rfl
@[simp] theorem State.complete_outLen (s : State) : s.complete.outLen = s.outLen := rfl
@[simp] theorem State.complete_nonceLo (s : State) : s.complete.nonceLo = s.nonceLo := rfl
@[simp] theorem State.complete_nonceHi (s : State) : s.complete.nonceHi = s.nonceHi := rfl
@[simp] theorem State.complete_nonceRnd (s : State) : s.complete.nonceRnd = s.nonceRnd := rfl
@[simp] theorem State.complete_seqLo (s : State) : s.complete.seqLo = s.seqLo := rfl
@[simp] theorem State.complete_seqHi (s : State) : s.complete.seqHi = s.seqHi := rfl
@[simp] theorem State.complete_idx (s : State) : s.complete.idx = s.idx := rfl
@[simp] theorem State.complete_cb (s : State) : s.complete.cb = s.cb := rfl
@[simp] theorem State.complete_ks (s : State) : s.complete.ks = s.ks := rfl
@[simp] theorem State.complete_phase (s : State) : s.complete.phase = .idle := rfl
@[simp] theorem State.complete_mem (s : State) : s.complete.mem = s.mem := rfl
@[simp] theorem State.complete_platform (s : State) : s.complete.platform = s.platform := rfl
@[simp] theorem State.complete_cipher (s : State) : s.complete.cipher = s.cipher := rfl
@[simp] theorem State.complete_windows (s : State) : s.complete.windows = s.windows := rfl
@[simp] theorem State.complete_others (s : State) : s.complete.others = s.others := rfl
@[simp] theorem State.complete_idxWritten (s : State) : s.complete.idxWritten = s.idxWritten := rfl
@[simp] theorem State.complete_hostCache (s : State) : s.complete.hostCache = s.hostCache := rfl
@[simp] theorem State.complete_response (s : State) : s.complete.response = s.response := rfl
@[simp] theorem State.complete_dataResponse (s : State) : s.complete.dataResponse = s.dataResponse := rfl
@[simp] theorem State.complete_events (s : State) : s.complete.events = s.events := rfl
@[simp] theorem State.complete_draws (s : State) : s.complete.draws = s.draws := rfl

/-! Ending with an error (R133). -/

@[simp] theorem State.raiseError_ctrl (c : ErrCode) (s : State) : (s.raiseError c).ctrl = s.ctrl := rfl
@[simp] theorem State.raiseError_status (c : ErrCode) (s : State) : (s.raiseError c).status = s.status.failed c := rfl
@[simp] theorem State.raiseError_keyBits (c : ErrCode) (s : State) : (s.raiseError c).keyBits = s.keyBits := rfl
@[simp] theorem State.raiseError_srcAddr (c : ErrCode) (s : State) : (s.raiseError c).srcAddr = s.srcAddr := rfl
@[simp] theorem State.raiseError_dstAddr (c : ErrCode) (s : State) : (s.raiseError c).dstAddr = s.dstAddr := rfl
@[simp] theorem State.raiseError_len (c : ErrCode) (s : State) : (s.raiseError c).len = s.len := rfl
@[simp] theorem State.raiseError_outLen (c : ErrCode) (s : State) : (s.raiseError c).outLen = s.outLen := rfl
@[simp] theorem State.raiseError_nonceLo (c : ErrCode) (s : State) : (s.raiseError c).nonceLo = s.nonceLo := rfl
@[simp] theorem State.raiseError_nonceHi (c : ErrCode) (s : State) : (s.raiseError c).nonceHi = s.nonceHi := rfl
@[simp] theorem State.raiseError_nonceRnd (c : ErrCode) (s : State) : (s.raiseError c).nonceRnd = s.nonceRnd := rfl
@[simp] theorem State.raiseError_seqLo (c : ErrCode) (s : State) : (s.raiseError c).seqLo = s.seqLo := rfl
@[simp] theorem State.raiseError_seqHi (c : ErrCode) (s : State) : (s.raiseError c).seqHi = s.seqHi := rfl
@[simp] theorem State.raiseError_idx (c : ErrCode) (s : State) : (s.raiseError c).idx = s.idx := rfl
@[simp] theorem State.raiseError_cb (c : ErrCode) (s : State) : (s.raiseError c).cb = s.cb := rfl
@[simp] theorem State.raiseError_ks (c : ErrCode) (s : State) : (s.raiseError c).ks = s.ks := rfl
@[simp] theorem State.raiseError_phase (c : ErrCode) (s : State) : (s.raiseError c).phase = .idle := rfl
@[simp] theorem State.raiseError_mem (c : ErrCode) (s : State) : (s.raiseError c).mem = s.mem := rfl
@[simp] theorem State.raiseError_platform (c : ErrCode) (s : State) : (s.raiseError c).platform = s.platform := rfl
@[simp] theorem State.raiseError_cipher (c : ErrCode) (s : State) : (s.raiseError c).cipher = s.cipher := rfl
@[simp] theorem State.raiseError_windows (c : ErrCode) (s : State) : (s.raiseError c).windows = s.windows := rfl
@[simp] theorem State.raiseError_others (c : ErrCode) (s : State) : (s.raiseError c).others = s.others := rfl
@[simp] theorem State.raiseError_idxWritten (c : ErrCode) (s : State) :
    (s.raiseError c).idxWritten = s.idxWritten := rfl
@[simp] theorem State.raiseError_hostCache (c : ErrCode) (s : State) : (s.raiseError c).hostCache = s.hostCache := rfl
@[simp] theorem State.raiseError_response (c : ErrCode) (s : State) : (s.raiseError c).response = s.response := rfl
@[simp] theorem State.raiseError_dataResponse (c : ErrCode) (s : State) :
    (s.raiseError c).dataResponse = s.dataResponse := rfl
@[simp] theorem State.raiseError_events (c : ErrCode) (s : State) : (s.raiseError c).events = s.events := rfl
@[simp] theorem State.raiseError_draws (c : ErrCode) (s : State) : (s.raiseError c).draws = s.draws := rfl

/-! ENCRYPT and DECRYPT ending with an error (R173, R175). -/

@[simp] theorem State.failStream_ctrl (c : ErrCode) (s : State) : (s.failStream c).ctrl = s.ctrl := rfl
@[simp] theorem State.failStream_status (c : ErrCode) (s : State) : (s.failStream c).status = s.status.failed c := rfl
@[simp] theorem State.failStream_keyBits (c : ErrCode) (s : State) : (s.failStream c).keyBits = s.keyBits := rfl
@[simp] theorem State.failStream_srcAddr (c : ErrCode) (s : State) : (s.failStream c).srcAddr = s.srcAddr := rfl
@[simp] theorem State.failStream_dstAddr (c : ErrCode) (s : State) : (s.failStream c).dstAddr = s.dstAddr := rfl
@[simp] theorem State.failStream_len (c : ErrCode) (s : State) : (s.failStream c).len = s.len := rfl
@[simp] theorem State.failStream_outLen (c : ErrCode) (s : State) : (s.failStream c).outLen = 0 := rfl
@[simp] theorem State.failStream_nonceLo (c : ErrCode) (s : State) : (s.failStream c).nonceLo = s.nonceLo := rfl
@[simp] theorem State.failStream_nonceHi (c : ErrCode) (s : State) : (s.failStream c).nonceHi = s.nonceHi := rfl
@[simp] theorem State.failStream_nonceRnd (c : ErrCode) (s : State) : (s.failStream c).nonceRnd = s.nonceRnd := rfl
@[simp] theorem State.failStream_seqLo (c : ErrCode) (s : State) : (s.failStream c).seqLo = s.seqLo := rfl
@[simp] theorem State.failStream_seqHi (c : ErrCode) (s : State) : (s.failStream c).seqHi = s.seqHi := rfl
@[simp] theorem State.failStream_idx (c : ErrCode) (s : State) : (s.failStream c).idx = s.idx := rfl
@[simp] theorem State.failStream_cb (c : ErrCode) (s : State) : (s.failStream c).cb = s.cb := rfl
@[simp] theorem State.failStream_ks (c : ErrCode) (s : State) : (s.failStream c).ks = zeroBytes 16 := rfl
@[simp] theorem State.failStream_phase (c : ErrCode) (s : State) : (s.failStream c).phase = .idle := rfl
@[simp] theorem State.failStream_mem (c : ErrCode) (s : State) : (s.failStream c).mem = s.mem := rfl
@[simp] theorem State.failStream_platform (c : ErrCode) (s : State) : (s.failStream c).platform = s.platform := rfl
@[simp] theorem State.failStream_cipher (c : ErrCode) (s : State) : (s.failStream c).cipher = s.cipher := rfl
@[simp] theorem State.failStream_windows (c : ErrCode) (s : State) : (s.failStream c).windows = s.windows := rfl
@[simp] theorem State.failStream_others (c : ErrCode) (s : State) : (s.failStream c).others = s.others := rfl
@[simp] theorem State.failStream_idxWritten (c : ErrCode) (s : State) :
    (s.failStream c).idxWritten = s.idxWritten := rfl
@[simp] theorem State.failStream_hostCache (c : ErrCode) (s : State) : (s.failStream c).hostCache = s.hostCache := rfl
@[simp] theorem State.failStream_response (c : ErrCode) (s : State) : (s.failStream c).response = s.response := rfl
@[simp] theorem State.failStream_dataResponse (c : ErrCode) (s : State) :
    (s.failStream c).dataResponse = s.dataResponse := rfl
@[simp] theorem State.failStream_events (c : ErrCode) (s : State) : (s.failStream c).events = s.events := rfl
@[simp] theorem State.failStream_draws (c : ErrCode) (s : State) : (s.failStream c).draws = s.draws := rfl

/-! CB[0..8) <- h. -/

@[simp] theorem State.setHeader_ctrl (h : Half) (s : State) : (s.setHeader h).ctrl = s.ctrl := rfl
@[simp] theorem State.setHeader_status (h : Half) (s : State) : (s.setHeader h).status = s.status := rfl
@[simp] theorem State.setHeader_keyBits (h : Half) (s : State) : (s.setHeader h).keyBits = s.keyBits := rfl
@[simp] theorem State.setHeader_srcAddr (h : Half) (s : State) : (s.setHeader h).srcAddr = s.srcAddr := rfl
@[simp] theorem State.setHeader_dstAddr (h : Half) (s : State) : (s.setHeader h).dstAddr = s.dstAddr := rfl
@[simp] theorem State.setHeader_len (h : Half) (s : State) : (s.setHeader h).len = s.len := rfl
@[simp] theorem State.setHeader_outLen (h : Half) (s : State) : (s.setHeader h).outLen = s.outLen := rfl
@[simp] theorem State.setHeader_nonceLo (h : Half) (s : State) : (s.setHeader h).nonceLo = s.nonceLo := rfl
@[simp] theorem State.setHeader_nonceHi (h : Half) (s : State) : (s.setHeader h).nonceHi = s.nonceHi := rfl
@[simp] theorem State.setHeader_nonceRnd (h : Half) (s : State) : (s.setHeader h).nonceRnd = s.nonceRnd := rfl
@[simp] theorem State.setHeader_seqLo (h : Half) (s : State) : (s.setHeader h).seqLo = s.seqLo := rfl
@[simp] theorem State.setHeader_seqHi (h : Half) (s : State) : (s.setHeader h).seqHi = s.seqHi := rfl
@[simp] theorem State.setHeader_idx (h : Half) (s : State) : (s.setHeader h).idx = s.idx := rfl
@[simp] theorem State.setHeader_cb (h : Half) (s : State) : (s.setHeader h).cb = ⟨h, s.cb.counter⟩ := rfl
@[simp] theorem State.setHeader_ks (h : Half) (s : State) : (s.setHeader h).ks = s.ks := rfl
@[simp] theorem State.setHeader_phase (h : Half) (s : State) : (s.setHeader h).phase = s.phase := rfl
@[simp] theorem State.setHeader_mem (h : Half) (s : State) : (s.setHeader h).mem = s.mem := rfl
@[simp] theorem State.setHeader_platform (h : Half) (s : State) : (s.setHeader h).platform = s.platform := rfl
@[simp] theorem State.setHeader_cipher (h : Half) (s : State) : (s.setHeader h).cipher = s.cipher := rfl
@[simp] theorem State.setHeader_windows (h : Half) (s : State) : (s.setHeader h).windows = s.windows := rfl
@[simp] theorem State.setHeader_others (h : Half) (s : State) : (s.setHeader h).others = s.others := rfl
@[simp] theorem State.setHeader_idxWritten (h : Half) (s : State) : (s.setHeader h).idxWritten = s.idxWritten := rfl
@[simp] theorem State.setHeader_hostCache (h : Half) (s : State) : (s.setHeader h).hostCache = s.hostCache := rfl
@[simp] theorem State.setHeader_response (h : Half) (s : State) : (s.setHeader h).response = s.response := rfl
@[simp] theorem State.setHeader_dataResponse (h : Half) (s : State) :
    (s.setHeader h).dataResponse = s.dataResponse := rfl
@[simp] theorem State.setHeader_events (h : Half) (s : State) : (s.setHeader h).events = s.events := rfl
@[simp] theorem State.setHeader_draws (h : Half) (s : State) : (s.setHeader h).draws = s.draws := rfl

/-! CB[8..16) <- h. -/

@[simp] theorem State.setCounter_ctrl (h : Half) (s : State) : (s.setCounter h).ctrl = s.ctrl := rfl
@[simp] theorem State.setCounter_status (h : Half) (s : State) : (s.setCounter h).status = s.status := rfl
@[simp] theorem State.setCounter_keyBits (h : Half) (s : State) : (s.setCounter h).keyBits = s.keyBits := rfl
@[simp] theorem State.setCounter_srcAddr (h : Half) (s : State) : (s.setCounter h).srcAddr = s.srcAddr := rfl
@[simp] theorem State.setCounter_dstAddr (h : Half) (s : State) : (s.setCounter h).dstAddr = s.dstAddr := rfl
@[simp] theorem State.setCounter_len (h : Half) (s : State) : (s.setCounter h).len = s.len := rfl
@[simp] theorem State.setCounter_outLen (h : Half) (s : State) : (s.setCounter h).outLen = s.outLen := rfl
@[simp] theorem State.setCounter_nonceLo (h : Half) (s : State) : (s.setCounter h).nonceLo = s.nonceLo := rfl
@[simp] theorem State.setCounter_nonceHi (h : Half) (s : State) : (s.setCounter h).nonceHi = s.nonceHi := rfl
@[simp] theorem State.setCounter_nonceRnd (h : Half) (s : State) : (s.setCounter h).nonceRnd = s.nonceRnd := rfl
@[simp] theorem State.setCounter_seqLo (h : Half) (s : State) : (s.setCounter h).seqLo = s.seqLo := rfl
@[simp] theorem State.setCounter_seqHi (h : Half) (s : State) : (s.setCounter h).seqHi = s.seqHi := rfl
@[simp] theorem State.setCounter_idx (h : Half) (s : State) : (s.setCounter h).idx = s.idx := rfl
@[simp] theorem State.setCounter_cb (h : Half) (s : State) : (s.setCounter h).cb = ⟨s.cb.header, h⟩ := rfl
@[simp] theorem State.setCounter_ks (h : Half) (s : State) : (s.setCounter h).ks = s.ks := rfl
@[simp] theorem State.setCounter_phase (h : Half) (s : State) : (s.setCounter h).phase = s.phase := rfl
@[simp] theorem State.setCounter_mem (h : Half) (s : State) : (s.setCounter h).mem = s.mem := rfl
@[simp] theorem State.setCounter_platform (h : Half) (s : State) : (s.setCounter h).platform = s.platform := rfl
@[simp] theorem State.setCounter_cipher (h : Half) (s : State) : (s.setCounter h).cipher = s.cipher := rfl
@[simp] theorem State.setCounter_windows (h : Half) (s : State) : (s.setCounter h).windows = s.windows := rfl
@[simp] theorem State.setCounter_others (h : Half) (s : State) : (s.setCounter h).others = s.others := rfl
@[simp] theorem State.setCounter_idxWritten (h : Half) (s : State) : (s.setCounter h).idxWritten = s.idxWritten := rfl
@[simp] theorem State.setCounter_hostCache (h : Half) (s : State) : (s.setCounter h).hostCache = s.hostCache := rfl
@[simp] theorem State.setCounter_response (h : Half) (s : State) : (s.setCounter h).response = s.response := rfl
@[simp] theorem State.setCounter_dataResponse (h : Half) (s : State) :
    (s.setCounter h).dataResponse = s.dataResponse := rfl
@[simp] theorem State.setCounter_events (h : Half) (s : State) : (s.setCounter h).events = s.events := rfl
@[simp] theorem State.setCounter_draws (h : Half) (s : State) : (s.setCounter h).draws = s.draws := rfl

/-! The cipher exchange (R170). -/

@[simp] theorem State.cipherExchange_ctrl (s : State) : s.cipherExchange.ctrl = s.ctrl := rfl
@[simp] theorem State.cipherExchange_status (s : State) : s.cipherExchange.status = s.status := rfl
@[simp] theorem State.cipherExchange_keyBits (s : State) : s.cipherExchange.keyBits = s.keyBits := rfl
@[simp] theorem State.cipherExchange_srcAddr (s : State) : s.cipherExchange.srcAddr = s.srcAddr := rfl
@[simp] theorem State.cipherExchange_dstAddr (s : State) : s.cipherExchange.dstAddr = s.dstAddr := rfl
@[simp] theorem State.cipherExchange_len (s : State) : s.cipherExchange.len = s.len := rfl
@[simp] theorem State.cipherExchange_outLen (s : State) : s.cipherExchange.outLen = s.outLen := rfl
@[simp] theorem State.cipherExchange_nonceLo (s : State) : s.cipherExchange.nonceLo = s.nonceLo := rfl
@[simp] theorem State.cipherExchange_nonceHi (s : State) : s.cipherExchange.nonceHi = s.nonceHi := rfl
@[simp] theorem State.cipherExchange_nonceRnd (s : State) : s.cipherExchange.nonceRnd = s.nonceRnd := rfl
@[simp] theorem State.cipherExchange_seqLo (s : State) : s.cipherExchange.seqLo = s.seqLo := rfl
@[simp] theorem State.cipherExchange_seqHi (s : State) : s.cipherExchange.seqHi = s.seqHi := rfl
@[simp] theorem State.cipherExchange_idx (s : State) : s.cipherExchange.idx = s.idx := rfl
@[simp] theorem State.cipherExchange_cb (s : State) : s.cipherExchange.cb = s.cb := rfl
@[simp] theorem State.cipherExchange_ks (s : State) : s.cipherExchange.ks = pCipher s.cipher s.keyBits s.cb.bytes := rfl
@[simp] theorem State.cipherExchange_phase (s : State) : s.cipherExchange.phase = s.phase := rfl
@[simp] theorem State.cipherExchange_mem (s : State) : s.cipherExchange.mem = s.mem := rfl
@[simp] theorem State.cipherExchange_platform (s : State) : s.cipherExchange.platform = s.platform := rfl
@[simp] theorem State.cipherExchange_cipher (s : State) : s.cipherExchange.cipher = s.cipher := rfl
@[simp] theorem State.cipherExchange_windows (s : State) : s.cipherExchange.windows = s.windows := rfl
@[simp] theorem State.cipherExchange_others (s : State) : s.cipherExchange.others = s.others := rfl
@[simp] theorem State.cipherExchange_idxWritten (s : State) : s.cipherExchange.idxWritten = s.idxWritten := rfl
@[simp] theorem State.cipherExchange_hostCache (s : State) : s.cipherExchange.hostCache = s.hostCache := rfl
@[simp] theorem State.cipherExchange_response (s : State) : s.cipherExchange.response = s.response := rfl
@[simp] theorem State.cipherExchange_dataResponse (s : State) : s.cipherExchange.dataResponse = s.dataResponse := rfl
@[simp] theorem State.cipherExchange_events (s : State) : s.cipherExchange.events = s.events := rfl
@[simp] theorem State.cipherExchange_draws (s : State) : s.cipherExchange.draws = s.draws := rfl

/-! Action B1 (R174, R176). -/

@[simp] theorem State.startBlock_ctrl (b : Nat) (s : State) : (s.startBlock b).ctrl = s.ctrl := rfl
@[simp] theorem State.startBlock_status (b : Nat) (s : State) : (s.startBlock b).status = s.status := rfl
@[simp] theorem State.startBlock_keyBits (b : Nat) (s : State) : (s.startBlock b).keyBits = s.keyBits := rfl
@[simp] theorem State.startBlock_srcAddr (b : Nat) (s : State) : (s.startBlock b).srcAddr = s.srcAddr := rfl
@[simp] theorem State.startBlock_dstAddr (b : Nat) (s : State) : (s.startBlock b).dstAddr = s.dstAddr := rfl
@[simp] theorem State.startBlock_len (b : Nat) (s : State) : (s.startBlock b).len = s.len := rfl
@[simp] theorem State.startBlock_outLen (b : Nat) (s : State) : (s.startBlock b).outLen = s.outLen := rfl
@[simp] theorem State.startBlock_nonceLo (b : Nat) (s : State) : (s.startBlock b).nonceLo = s.nonceLo := rfl
@[simp] theorem State.startBlock_nonceHi (b : Nat) (s : State) : (s.startBlock b).nonceHi = s.nonceHi := rfl
@[simp] theorem State.startBlock_nonceRnd (b : Nat) (s : State) : (s.startBlock b).nonceRnd = s.nonceRnd := rfl
@[simp] theorem State.startBlock_seqLo (b : Nat) (s : State) : (s.startBlock b).seqLo = s.seqLo := rfl
@[simp] theorem State.startBlock_seqHi (b : Nat) (s : State) : (s.startBlock b).seqHi = s.seqHi := rfl
@[simp] theorem State.startBlock_idx (b : Nat) (s : State) : (s.startBlock b).idx = BitVec.ofNat 32 b := rfl
@[simp] theorem State.startBlock_cb (b : Nat) (s : State) :
    (s.startBlock b).cb = ⟨s.cb.header, encodeCounter b s.ctrl.seqPresent s.seq⟩ := rfl
@[simp] theorem State.startBlock_ks (b : Nat) (s : State) : (s.startBlock b).ks = s.ks := rfl
@[simp] theorem State.startBlock_phase (b : Nat) (s : State) : (s.startBlock b).phase = s.phase := rfl
@[simp] theorem State.startBlock_mem (b : Nat) (s : State) : (s.startBlock b).mem = s.mem := rfl
@[simp] theorem State.startBlock_platform (b : Nat) (s : State) : (s.startBlock b).platform = s.platform := rfl
@[simp] theorem State.startBlock_cipher (b : Nat) (s : State) : (s.startBlock b).cipher = s.cipher := rfl
@[simp] theorem State.startBlock_windows (b : Nat) (s : State) : (s.startBlock b).windows = s.windows := rfl
@[simp] theorem State.startBlock_others (b : Nat) (s : State) : (s.startBlock b).others = s.others := rfl
@[simp] theorem State.startBlock_idxWritten (b : Nat) (s : State) : (s.startBlock b).idxWritten = s.idxWritten := rfl
@[simp] theorem State.startBlock_hostCache (b : Nat) (s : State) : (s.startBlock b).hostCache = s.hostCache := rfl
@[simp] theorem State.startBlock_response (b : Nat) (s : State) : (s.startBlock b).response = s.response := rfl
@[simp] theorem State.startBlock_dataResponse (b : Nat) (s : State) :
    (s.startBlock b).dataResponse = s.dataResponse := rfl
@[simp] theorem State.startBlock_events (b : Nat) (s : State) : (s.startBlock b).events = s.events := rfl
@[simp] theorem State.startBlock_draws (b : Nat) (s : State) : (s.startBlock b).draws = s.draws := rfl

/-! Action A3 (R174, R176). -/

@[simp] theorem State.finishStream_ctrl (m n : Nat) (s : State) : (s.finishStream m n).ctrl = s.ctrl := rfl
@[simp] theorem State.finishStream_status (m n : Nat) (s : State) :
    (s.finishStream m n).status = s.status.completed := rfl
@[simp] theorem State.finishStream_keyBits (m n : Nat) (s : State) : (s.finishStream m n).keyBits = s.keyBits := rfl
@[simp] theorem State.finishStream_srcAddr (m n : Nat) (s : State) : (s.finishStream m n).srcAddr = s.srcAddr := rfl
@[simp] theorem State.finishStream_dstAddr (m n : Nat) (s : State) : (s.finishStream m n).dstAddr = s.dstAddr := rfl
@[simp] theorem State.finishStream_len (m n : Nat) (s : State) : (s.finishStream m n).len = s.len := rfl
@[simp] theorem State.finishStream_outLen (m n : Nat) (s : State) :
    (s.finishStream m n).outLen = BitVec.ofNat 32 n := rfl
@[simp] theorem State.finishStream_nonceLo (m n : Nat) (s : State) : (s.finishStream m n).nonceLo = s.nonceLo := rfl
@[simp] theorem State.finishStream_nonceHi (m n : Nat) (s : State) : (s.finishStream m n).nonceHi = s.nonceHi := rfl
@[simp] theorem State.finishStream_nonceRnd (m n : Nat) (s : State) : (s.finishStream m n).nonceRnd = s.nonceRnd := rfl
@[simp] theorem State.finishStream_seqLo (m n : Nat) (s : State) : (s.finishStream m n).seqLo = s.seqLo := rfl
@[simp] theorem State.finishStream_seqHi (m n : Nat) (s : State) : (s.finishStream m n).seqHi = s.seqHi := rfl
@[simp] theorem State.finishStream_idx (m n : Nat) (s : State) :
    (s.finishStream m n).idx = BitVec.ofNat 32 (blockCount m) := rfl
@[simp] theorem State.finishStream_cb (m n : Nat) (s : State) : (s.finishStream m n).cb = s.cb := rfl
@[simp] theorem State.finishStream_ks (m n : Nat) (s : State) : (s.finishStream m n).ks = zeroBytes 16 := rfl
@[simp] theorem State.finishStream_phase (m n : Nat) (s : State) : (s.finishStream m n).phase = .idle := rfl
@[simp] theorem State.finishStream_mem (m n : Nat) (s : State) : (s.finishStream m n).mem = s.mem := rfl
@[simp] theorem State.finishStream_platform (m n : Nat) (s : State) : (s.finishStream m n).platform = s.platform := rfl
@[simp] theorem State.finishStream_cipher (m n : Nat) (s : State) : (s.finishStream m n).cipher = s.cipher := rfl
@[simp] theorem State.finishStream_windows (m n : Nat) (s : State) : (s.finishStream m n).windows = s.windows := rfl
@[simp] theorem State.finishStream_others (m n : Nat) (s : State) : (s.finishStream m n).others = s.others := rfl
@[simp] theorem State.finishStream_idxWritten (m n : Nat) (s : State) :
    (s.finishStream m n).idxWritten = s.idxWritten := rfl
@[simp] theorem State.finishStream_hostCache (m n : Nat) (s : State) :
    (s.finishStream m n).hostCache = s.hostCache := rfl
@[simp] theorem State.finishStream_response (m n : Nat) (s : State) : (s.finishStream m n).response = s.response := rfl
@[simp] theorem State.finishStream_dataResponse (m n : Nat) (s : State) :
    (s.finishStream m n).dataResponse = s.dataResponse := rfl
@[simp] theorem State.finishStream_events (m n : Nat) (s : State) : (s.finishStream m n).events = s.events := rfl
@[simp] theorem State.finishStream_draws (m n : Nat) (s : State) : (s.finishStream m n).draws = s.draws := rfl

/-! ENCRYPT's action A1 (R174). -/

@[simp] theorem State.encryptStart_ctrl (s : State) : s.encryptStart.ctrl = s.ctrl := rfl
@[simp] theorem State.encryptStart_status (s : State) : s.encryptStart.status = s.status := rfl
@[simp] theorem State.encryptStart_keyBits (s : State) : s.encryptStart.keyBits = s.keyBits := rfl
@[simp] theorem State.encryptStart_srcAddr (s : State) : s.encryptStart.srcAddr = s.srcAddr := rfl
@[simp] theorem State.encryptStart_dstAddr (s : State) : s.encryptStart.dstAddr = s.dstAddr := rfl
@[simp] theorem State.encryptStart_len (s : State) : s.encryptStart.len = s.len := rfl
@[simp] theorem State.encryptStart_outLen (s : State) : s.encryptStart.outLen = s.outLen := rfl
@[simp] theorem State.encryptStart_nonceLo (s : State) : s.encryptStart.nonceLo = s.nonceLo := rfl
@[simp] theorem State.encryptStart_nonceHi (s : State) : s.encryptStart.nonceHi = s.nonceHi := rfl
@[simp] theorem State.encryptStart_nonceRnd (s : State) : s.encryptStart.nonceRnd = s.nonceRnd := rfl
@[simp] theorem State.encryptStart_seqLo (s : State) : s.encryptStart.seqLo = s.seqLo := rfl
@[simp] theorem State.encryptStart_seqHi (s : State) : s.encryptStart.seqHi = s.seqHi := rfl
@[simp] theorem State.encryptStart_idx (s : State) : s.encryptStart.idx = 0 := rfl
@[simp] theorem State.encryptStart_cb (s : State) : s.encryptStart.cb = ⟨s.packedNonce, s.cb.counter⟩ := rfl
@[simp] theorem State.encryptStart_ks (s : State) : s.encryptStart.ks = s.ks := rfl
@[simp] theorem State.encryptStart_phase (s : State) : s.encryptStart.phase = s.phase := rfl
@[simp] theorem State.encryptStart_mem (s : State) : s.encryptStart.mem = s.mem := rfl
@[simp] theorem State.encryptStart_platform (s : State) : s.encryptStart.platform = s.platform := rfl
@[simp] theorem State.encryptStart_cipher (s : State) : s.encryptStart.cipher = s.cipher := rfl
@[simp] theorem State.encryptStart_windows (s : State) : s.encryptStart.windows = s.windows := rfl
@[simp] theorem State.encryptStart_others (s : State) : s.encryptStart.others = s.others := rfl
@[simp] theorem State.encryptStart_idxWritten (s : State) : s.encryptStart.idxWritten = s.idxWritten := rfl
@[simp] theorem State.encryptStart_hostCache (s : State) : s.encryptStart.hostCache = s.hostCache := rfl
@[simp] theorem State.encryptStart_response (s : State) : s.encryptStart.response = s.response := rfl
@[simp] theorem State.encryptStart_dataResponse (s : State) : s.encryptStart.dataResponse = s.dataResponse := rfl
@[simp] theorem State.encryptStart_events (s : State) : s.encryptStart.events = s.events := rfl
@[simp] theorem State.encryptStart_draws (s : State) : s.encryptStart.draws = s.draws := rfl

/-! Acceptance (R130). -/

@[simp] theorem State.accept_ctrl (w : Word) (s : State) : (s.accept w).ctrl = s.ctrl := rfl
@[simp] theorem State.accept_status (w : Word) (s : State) : (s.accept w).status = s.status.accepted := rfl
@[simp] theorem State.accept_keyBits (w : Word) (s : State) : (s.accept w).keyBits = s.keyBits := rfl
@[simp] theorem State.accept_srcAddr (w : Word) (s : State) : (s.accept w).srcAddr = s.srcAddr := rfl
@[simp] theorem State.accept_dstAddr (w : Word) (s : State) : (s.accept w).dstAddr = s.dstAddr := rfl
@[simp] theorem State.accept_len (w : Word) (s : State) : (s.accept w).len = s.len := rfl
@[simp] theorem State.accept_outLen (w : Word) (s : State) : (s.accept w).outLen = s.outLen := rfl
@[simp] theorem State.accept_nonceLo (w : Word) (s : State) : (s.accept w).nonceLo = s.nonceLo := rfl
@[simp] theorem State.accept_nonceHi (w : Word) (s : State) : (s.accept w).nonceHi = s.nonceHi := rfl
@[simp] theorem State.accept_nonceRnd (w : Word) (s : State) : (s.accept w).nonceRnd = s.nonceRnd := rfl
@[simp] theorem State.accept_seqLo (w : Word) (s : State) : (s.accept w).seqLo = s.seqLo := rfl
@[simp] theorem State.accept_seqHi (w : Word) (s : State) : (s.accept w).seqHi = s.seqHi := rfl
@[simp] theorem State.accept_idx (w : Word) (s : State) : (s.accept w).idx = s.idx := rfl
@[simp] theorem State.accept_cb (w : Word) (s : State) : (s.accept w).cb = s.cb := rfl
@[simp] theorem State.accept_ks (w : Word) (s : State) : (s.accept w).ks = s.ks := rfl
@[simp] theorem State.accept_phase (w : Word) (s : State) : (s.accept w).phase = .busy ⟨w, .a0, 0, [], none⟩ := rfl
@[simp] theorem State.accept_mem (w : Word) (s : State) : (s.accept w).mem = s.mem := rfl
@[simp] theorem State.accept_platform (w : Word) (s : State) : (s.accept w).platform = s.platform := rfl
@[simp] theorem State.accept_cipher (w : Word) (s : State) : (s.accept w).cipher = s.cipher := rfl
@[simp] theorem State.accept_windows (w : Word) (s : State) : (s.accept w).windows = s.newWindow w :: s.windows := rfl
@[simp] theorem State.accept_others (w : Word) (s : State) :
    (s.accept w).others = s.others.map fun o => o.meet (s.newWindow w) := rfl
@[simp] theorem State.accept_idxWritten (w : Word) (s : State) : (s.accept w).idxWritten = false := rfl
@[simp] theorem State.accept_hostCache (w : Word) (s : State) : (s.accept w).hostCache = s.hostCache := rfl
@[simp] theorem State.accept_response (w : Word) (s : State) : (s.accept w).response = s.response := rfl
@[simp] theorem State.accept_dataResponse (w : Word) (s : State) : (s.accept w).dataResponse = s.dataResponse := rfl
@[simp] theorem State.accept_events (w : Word) (s : State) : (s.accept w).events = s.events := rfl
@[simp] theorem State.accept_draws (w : Word) (s : State) : (s.accept w).draws = s.draws := rfl

/-! A dropped write (R51, R131). -/

@[simp] theorem State.dropWrite_ctrl (s : State) : s.dropWrite.ctrl = s.ctrl := rfl
@[simp] theorem State.dropWrite_status (s : State) : s.dropWrite.status = s.status.overrun := rfl
@[simp] theorem State.dropWrite_keyBits (s : State) : s.dropWrite.keyBits = s.keyBits := rfl
@[simp] theorem State.dropWrite_srcAddr (s : State) : s.dropWrite.srcAddr = s.srcAddr := rfl
@[simp] theorem State.dropWrite_dstAddr (s : State) : s.dropWrite.dstAddr = s.dstAddr := rfl
@[simp] theorem State.dropWrite_len (s : State) : s.dropWrite.len = s.len := rfl
@[simp] theorem State.dropWrite_outLen (s : State) : s.dropWrite.outLen = s.outLen := rfl
@[simp] theorem State.dropWrite_nonceLo (s : State) : s.dropWrite.nonceLo = s.nonceLo := rfl
@[simp] theorem State.dropWrite_nonceHi (s : State) : s.dropWrite.nonceHi = s.nonceHi := rfl
@[simp] theorem State.dropWrite_nonceRnd (s : State) : s.dropWrite.nonceRnd = s.nonceRnd := rfl
@[simp] theorem State.dropWrite_seqLo (s : State) : s.dropWrite.seqLo = s.seqLo := rfl
@[simp] theorem State.dropWrite_seqHi (s : State) : s.dropWrite.seqHi = s.seqHi := rfl
@[simp] theorem State.dropWrite_idx (s : State) : s.dropWrite.idx = s.idx := rfl
@[simp] theorem State.dropWrite_cb (s : State) : s.dropWrite.cb = s.cb := rfl
@[simp] theorem State.dropWrite_ks (s : State) : s.dropWrite.ks = s.ks := rfl
@[simp] theorem State.dropWrite_phase (s : State) : s.dropWrite.phase = s.phase := rfl
@[simp] theorem State.dropWrite_mem (s : State) : s.dropWrite.mem = s.mem := rfl
@[simp] theorem State.dropWrite_platform (s : State) : s.dropWrite.platform = s.platform := rfl
@[simp] theorem State.dropWrite_cipher (s : State) : s.dropWrite.cipher = s.cipher := rfl
@[simp] theorem State.dropWrite_windows (s : State) : s.dropWrite.windows = s.windows := rfl
@[simp] theorem State.dropWrite_others (s : State) : s.dropWrite.others = s.others := rfl
@[simp] theorem State.dropWrite_idxWritten (s : State) : s.dropWrite.idxWritten = s.idxWritten := rfl
@[simp] theorem State.dropWrite_hostCache (s : State) : s.dropWrite.hostCache = s.hostCache := rfl
@[simp] theorem State.dropWrite_response (s : State) : s.dropWrite.response = s.response := rfl
@[simp] theorem State.dropWrite_dataResponse (s : State) : s.dropWrite.dataResponse = s.dataResponse := rfl
@[simp] theorem State.dropWrite_events (s : State) : s.dropWrite.events = s.events := rfl
@[simp] theorem State.dropWrite_draws (s : State) : s.dropWrite.draws = s.draws := rfl

/-! Standing at a position (R53). -/

@[simp] theorem State.goTo_ctrl (r : Running) (a : Action) (s : State) : (s.goTo r a).ctrl = s.ctrl := rfl
@[simp] theorem State.goTo_status (r : Running) (a : Action) (s : State) : (s.goTo r a).status = s.status := rfl
@[simp] theorem State.goTo_keyBits (r : Running) (a : Action) (s : State) : (s.goTo r a).keyBits = s.keyBits := rfl
@[simp] theorem State.goTo_srcAddr (r : Running) (a : Action) (s : State) : (s.goTo r a).srcAddr = s.srcAddr := rfl
@[simp] theorem State.goTo_dstAddr (r : Running) (a : Action) (s : State) : (s.goTo r a).dstAddr = s.dstAddr := rfl
@[simp] theorem State.goTo_len (r : Running) (a : Action) (s : State) : (s.goTo r a).len = s.len := rfl
@[simp] theorem State.goTo_outLen (r : Running) (a : Action) (s : State) : (s.goTo r a).outLen = s.outLen := rfl
@[simp] theorem State.goTo_nonceLo (r : Running) (a : Action) (s : State) : (s.goTo r a).nonceLo = s.nonceLo := rfl
@[simp] theorem State.goTo_nonceHi (r : Running) (a : Action) (s : State) : (s.goTo r a).nonceHi = s.nonceHi := rfl
@[simp] theorem State.goTo_nonceRnd (r : Running) (a : Action) (s : State) : (s.goTo r a).nonceRnd = s.nonceRnd := rfl
@[simp] theorem State.goTo_seqLo (r : Running) (a : Action) (s : State) : (s.goTo r a).seqLo = s.seqLo := rfl
@[simp] theorem State.goTo_seqHi (r : Running) (a : Action) (s : State) : (s.goTo r a).seqHi = s.seqHi := rfl
@[simp] theorem State.goTo_idx (r : Running) (a : Action) (s : State) : (s.goTo r a).idx = s.idx := rfl
@[simp] theorem State.goTo_cb (r : Running) (a : Action) (s : State) : (s.goTo r a).cb = s.cb := rfl
@[simp] theorem State.goTo_ks (r : Running) (a : Action) (s : State) : (s.goTo r a).ks = s.ks := rfl
@[simp] theorem State.goTo_phase (r : Running) (a : Action) (s : State) :
    (s.goTo r a).phase = .busy ⟨r.word, a, r.block, r.latch, none⟩ := rfl
@[simp] theorem State.goTo_mem (r : Running) (a : Action) (s : State) : (s.goTo r a).mem = s.mem := rfl
@[simp] theorem State.goTo_platform (r : Running) (a : Action) (s : State) : (s.goTo r a).platform = s.platform := rfl
@[simp] theorem State.goTo_cipher (r : Running) (a : Action) (s : State) : (s.goTo r a).cipher = s.cipher := rfl
@[simp] theorem State.goTo_windows (r : Running) (a : Action) (s : State) : (s.goTo r a).windows = s.windows := rfl
@[simp] theorem State.goTo_others (r : Running) (a : Action) (s : State) : (s.goTo r a).others = s.others := rfl
@[simp] theorem State.goTo_idxWritten (r : Running) (a : Action) (s : State) :
    (s.goTo r a).idxWritten = s.idxWritten := rfl
@[simp] theorem State.goTo_hostCache (r : Running) (a : Action) (s : State) :
    (s.goTo r a).hostCache = s.hostCache := rfl
@[simp] theorem State.goTo_response (r : Running) (a : Action) (s : State) : (s.goTo r a).response = s.response := rfl
@[simp] theorem State.goTo_dataResponse (r : Running) (a : Action) (s : State) :
    (s.goTo r a).dataResponse = s.dataResponse := rfl
@[simp] theorem State.goTo_events (r : Running) (a : Action) (s : State) : (s.goTo r a).events = s.events := rfl
@[simp] theorem State.goTo_draws (r : Running) (a : Action) (s : State) : (s.goTo r a).draws = s.draws := rfl

/-! An outstanding request (R53). -/

@[simp] theorem State.request_ctrl (r : Running) (q : Request) (s : State) : (s.request r q).ctrl = s.ctrl := rfl
@[simp] theorem State.request_status (r : Running) (q : Request) (s : State) : (s.request r q).status = s.status := rfl
@[simp] theorem State.request_keyBits (r : Running) (q : Request) (s : State) :
    (s.request r q).keyBits = s.keyBits := rfl
@[simp] theorem State.request_srcAddr (r : Running) (q : Request) (s : State) :
    (s.request r q).srcAddr = s.srcAddr := rfl
@[simp] theorem State.request_dstAddr (r : Running) (q : Request) (s : State) :
    (s.request r q).dstAddr = s.dstAddr := rfl
@[simp] theorem State.request_len (r : Running) (q : Request) (s : State) : (s.request r q).len = s.len := rfl
@[simp] theorem State.request_outLen (r : Running) (q : Request) (s : State) : (s.request r q).outLen = s.outLen := rfl
@[simp] theorem State.request_nonceLo (r : Running) (q : Request) (s : State) :
    (s.request r q).nonceLo = s.nonceLo := rfl
@[simp] theorem State.request_nonceHi (r : Running) (q : Request) (s : State) :
    (s.request r q).nonceHi = s.nonceHi := rfl
@[simp] theorem State.request_nonceRnd (r : Running) (q : Request) (s : State) :
    (s.request r q).nonceRnd = s.nonceRnd := rfl
@[simp] theorem State.request_seqLo (r : Running) (q : Request) (s : State) : (s.request r q).seqLo = s.seqLo := rfl
@[simp] theorem State.request_seqHi (r : Running) (q : Request) (s : State) : (s.request r q).seqHi = s.seqHi := rfl
@[simp] theorem State.request_idx (r : Running) (q : Request) (s : State) : (s.request r q).idx = s.idx := rfl
@[simp] theorem State.request_cb (r : Running) (q : Request) (s : State) : (s.request r q).cb = s.cb := rfl
@[simp] theorem State.request_ks (r : Running) (q : Request) (s : State) : (s.request r q).ks = s.ks := rfl
@[simp] theorem State.request_phase (r : Running) (q : Request) (s : State) :
    (s.request r q).phase = .busy ⟨r.word, r.action, r.block, r.latch, some q⟩ := rfl
@[simp] theorem State.request_mem (r : Running) (q : Request) (s : State) : (s.request r q).mem = s.mem := rfl
@[simp] theorem State.request_platform (r : Running) (q : Request) (s : State) :
    (s.request r q).platform = s.platform := rfl
@[simp] theorem State.request_cipher (r : Running) (q : Request) (s : State) : (s.request r q).cipher = s.cipher := rfl
@[simp] theorem State.request_windows (r : Running) (q : Request) (s : State) :
    (s.request r q).windows = s.windows := rfl
@[simp] theorem State.request_others (r : Running) (q : Request) (s : State) : (s.request r q).others = s.others := rfl
@[simp] theorem State.request_idxWritten (r : Running) (q : Request) (s : State) :
    (s.request r q).idxWritten = s.idxWritten := rfl
@[simp] theorem State.request_hostCache (r : Running) (q : Request) (s : State) :
    (s.request r q).hostCache = s.hostCache := rfl
@[simp] theorem State.request_response (r : Running) (q : Request) (s : State) :
    (s.request r q).response = s.response := rfl
@[simp] theorem State.request_dataResponse (r : Running) (q : Request) (s : State) :
    (s.request r q).dataResponse = s.dataResponse := rfl
@[simp] theorem State.request_events (r : Running) (q : Request) (s : State) : (s.request r q).events = s.events := rfl
@[simp] theorem State.request_draws (r : Running) (q : Request) (s : State) : (s.request r q).draws = s.draws := rfl

/-! Operand views that an update leaves alone. -/

@[simp] theorem State.complete_nonce (s : State) : s.complete.nonce = s.nonce := rfl
@[simp] theorem State.complete_seq (s : State) : s.complete.seq = s.seq := rfl
@[simp] theorem State.complete_src (s : State) : s.complete.src = s.src := rfl
@[simp] theorem State.complete_dst (s : State) : s.complete.dst = s.dst := rfl
@[simp] theorem State.complete_length (s : State) : s.complete.length = s.length := rfl
@[simp] theorem State.complete_packedNonce (s : State) : s.complete.packedNonce = s.packedNonce := rfl
@[simp] theorem State.complete_encryptJob (s : State) : s.complete.encryptJob = s.encryptJob := rfl
@[simp] theorem State.complete_decryptJob (s : State) : s.complete.decryptJob = s.decryptJob := rfl
@[simp] theorem State.raiseError_nonce (c : ErrCode) (s : State) : (s.raiseError c).nonce = s.nonce := rfl
@[simp] theorem State.raiseError_seq (c : ErrCode) (s : State) : (s.raiseError c).seq = s.seq := rfl
@[simp] theorem State.raiseError_src (c : ErrCode) (s : State) : (s.raiseError c).src = s.src := rfl
@[simp] theorem State.raiseError_dst (c : ErrCode) (s : State) : (s.raiseError c).dst = s.dst := rfl
@[simp] theorem State.raiseError_length (c : ErrCode) (s : State) : (s.raiseError c).length = s.length := rfl
@[simp] theorem State.raiseError_packedNonce (c : ErrCode) (s : State) : (s.raiseError c).packedNonce = s.packedNonce := rfl
@[simp] theorem State.raiseError_encryptJob (c : ErrCode) (s : State) : (s.raiseError c).encryptJob = s.encryptJob := rfl
@[simp] theorem State.raiseError_decryptJob (c : ErrCode) (s : State) : (s.raiseError c).decryptJob = s.decryptJob := rfl
@[simp] theorem State.failStream_nonce (c : ErrCode) (s : State) : (s.failStream c).nonce = s.nonce := rfl
@[simp] theorem State.failStream_seq (c : ErrCode) (s : State) : (s.failStream c).seq = s.seq := rfl
@[simp] theorem State.failStream_src (c : ErrCode) (s : State) : (s.failStream c).src = s.src := rfl
@[simp] theorem State.failStream_dst (c : ErrCode) (s : State) : (s.failStream c).dst = s.dst := rfl
@[simp] theorem State.failStream_length (c : ErrCode) (s : State) : (s.failStream c).length = s.length := rfl
@[simp] theorem State.failStream_packedNonce (c : ErrCode) (s : State) : (s.failStream c).packedNonce = s.packedNonce := rfl
@[simp] theorem State.failStream_encryptJob (c : ErrCode) (s : State) : (s.failStream c).encryptJob = s.encryptJob := rfl
@[simp] theorem State.failStream_decryptJob (c : ErrCode) (s : State) : (s.failStream c).decryptJob = s.decryptJob := rfl
@[simp] theorem State.setHeader_nonce (h : Half) (s : State) : (s.setHeader h).nonce = s.nonce := rfl
@[simp] theorem State.setHeader_seq (h : Half) (s : State) : (s.setHeader h).seq = s.seq := rfl
@[simp] theorem State.setHeader_src (h : Half) (s : State) : (s.setHeader h).src = s.src := rfl
@[simp] theorem State.setHeader_dst (h : Half) (s : State) : (s.setHeader h).dst = s.dst := rfl
@[simp] theorem State.setHeader_length (h : Half) (s : State) : (s.setHeader h).length = s.length := rfl
@[simp] theorem State.setHeader_packedNonce (h : Half) (s : State) : (s.setHeader h).packedNonce = s.packedNonce := rfl
@[simp] theorem State.setHeader_encryptJob (h : Half) (s : State) : (s.setHeader h).encryptJob = s.encryptJob := rfl
@[simp] theorem State.setHeader_decryptJob (h : Half) (s : State) : (s.setHeader h).decryptJob = s.decryptJob := rfl
@[simp] theorem State.setCounter_nonce (h : Half) (s : State) : (s.setCounter h).nonce = s.nonce := rfl
@[simp] theorem State.setCounter_seq (h : Half) (s : State) : (s.setCounter h).seq = s.seq := rfl
@[simp] theorem State.setCounter_src (h : Half) (s : State) : (s.setCounter h).src = s.src := rfl
@[simp] theorem State.setCounter_dst (h : Half) (s : State) : (s.setCounter h).dst = s.dst := rfl
@[simp] theorem State.setCounter_length (h : Half) (s : State) : (s.setCounter h).length = s.length := rfl
@[simp] theorem State.setCounter_packedNonce (h : Half) (s : State) : (s.setCounter h).packedNonce = s.packedNonce := rfl
@[simp] theorem State.setCounter_encryptJob (h : Half) (s : State) : (s.setCounter h).encryptJob = s.encryptJob := rfl
@[simp] theorem State.setCounter_decryptJob (h : Half) (s : State) : (s.setCounter h).decryptJob = s.decryptJob := rfl
@[simp] theorem State.cipherExchange_nonce (s : State) : s.cipherExchange.nonce = s.nonce := rfl
@[simp] theorem State.cipherExchange_seq (s : State) : s.cipherExchange.seq = s.seq := rfl
@[simp] theorem State.cipherExchange_src (s : State) : s.cipherExchange.src = s.src := rfl
@[simp] theorem State.cipherExchange_dst (s : State) : s.cipherExchange.dst = s.dst := rfl
@[simp] theorem State.cipherExchange_length (s : State) : s.cipherExchange.length = s.length := rfl
@[simp] theorem State.cipherExchange_packedNonce (s : State) : s.cipherExchange.packedNonce = s.packedNonce := rfl
@[simp] theorem State.cipherExchange_encryptJob (s : State) : s.cipherExchange.encryptJob = s.encryptJob := rfl
@[simp] theorem State.cipherExchange_decryptJob (s : State) : s.cipherExchange.decryptJob = s.decryptJob := rfl
@[simp] theorem State.startBlock_nonce (b : Nat) (s : State) : (s.startBlock b).nonce = s.nonce := rfl
@[simp] theorem State.startBlock_seq (b : Nat) (s : State) : (s.startBlock b).seq = s.seq := rfl
@[simp] theorem State.startBlock_src (b : Nat) (s : State) : (s.startBlock b).src = s.src := rfl
@[simp] theorem State.startBlock_dst (b : Nat) (s : State) : (s.startBlock b).dst = s.dst := rfl
@[simp] theorem State.startBlock_length (b : Nat) (s : State) : (s.startBlock b).length = s.length := rfl
@[simp] theorem State.startBlock_packedNonce (b : Nat) (s : State) : (s.startBlock b).packedNonce = s.packedNonce := rfl
@[simp] theorem State.startBlock_encryptJob (b : Nat) (s : State) : (s.startBlock b).encryptJob = s.encryptJob := rfl
@[simp] theorem State.startBlock_decryptJob (b : Nat) (s : State) : (s.startBlock b).decryptJob = s.decryptJob := rfl
@[simp] theorem State.finishStream_nonce (m n : Nat) (s : State) : (s.finishStream m n).nonce = s.nonce := rfl
@[simp] theorem State.finishStream_seq (m n : Nat) (s : State) : (s.finishStream m n).seq = s.seq := rfl
@[simp] theorem State.finishStream_src (m n : Nat) (s : State) : (s.finishStream m n).src = s.src := rfl
@[simp] theorem State.finishStream_dst (m n : Nat) (s : State) : (s.finishStream m n).dst = s.dst := rfl
@[simp] theorem State.finishStream_length (m n : Nat) (s : State) : (s.finishStream m n).length = s.length := rfl
@[simp] theorem State.finishStream_packedNonce (m n : Nat) (s : State) : (s.finishStream m n).packedNonce = s.packedNonce := rfl
@[simp] theorem State.finishStream_encryptJob (m n : Nat) (s : State) : (s.finishStream m n).encryptJob = s.encryptJob := rfl
@[simp] theorem State.finishStream_decryptJob (m n : Nat) (s : State) : (s.finishStream m n).decryptJob = s.decryptJob := rfl
@[simp] theorem State.encryptStart_nonce (s : State) : s.encryptStart.nonce = s.nonce := rfl
@[simp] theorem State.encryptStart_seq (s : State) : s.encryptStart.seq = s.seq := rfl
@[simp] theorem State.encryptStart_src (s : State) : s.encryptStart.src = s.src := rfl
@[simp] theorem State.encryptStart_dst (s : State) : s.encryptStart.dst = s.dst := rfl
@[simp] theorem State.encryptStart_length (s : State) : s.encryptStart.length = s.length := rfl
@[simp] theorem State.encryptStart_packedNonce (s : State) : s.encryptStart.packedNonce = s.packedNonce := rfl
@[simp] theorem State.encryptStart_encryptJob (s : State) : s.encryptStart.encryptJob = s.encryptJob := rfl
@[simp] theorem State.encryptStart_decryptJob (s : State) : s.encryptStart.decryptJob = s.decryptJob := rfl
@[simp] theorem State.accept_nonce (w : Word) (s : State) : (s.accept w).nonce = s.nonce := rfl
@[simp] theorem State.accept_seq (w : Word) (s : State) : (s.accept w).seq = s.seq := rfl
@[simp] theorem State.accept_src (w : Word) (s : State) : (s.accept w).src = s.src := rfl
@[simp] theorem State.accept_dst (w : Word) (s : State) : (s.accept w).dst = s.dst := rfl
@[simp] theorem State.accept_length (w : Word) (s : State) : (s.accept w).length = s.length := rfl
@[simp] theorem State.accept_packedNonce (w : Word) (s : State) : (s.accept w).packedNonce = s.packedNonce := rfl
@[simp] theorem State.accept_encryptJob (w : Word) (s : State) : (s.accept w).encryptJob = s.encryptJob := rfl
@[simp] theorem State.accept_decryptJob (w : Word) (s : State) : (s.accept w).decryptJob = s.decryptJob := rfl
@[simp] theorem State.dropWrite_nonce (s : State) : s.dropWrite.nonce = s.nonce := rfl
@[simp] theorem State.dropWrite_seq (s : State) : s.dropWrite.seq = s.seq := rfl
@[simp] theorem State.dropWrite_src (s : State) : s.dropWrite.src = s.src := rfl
@[simp] theorem State.dropWrite_dst (s : State) : s.dropWrite.dst = s.dst := rfl
@[simp] theorem State.dropWrite_length (s : State) : s.dropWrite.length = s.length := rfl
@[simp] theorem State.dropWrite_packedNonce (s : State) : s.dropWrite.packedNonce = s.packedNonce := rfl
@[simp] theorem State.dropWrite_encryptJob (s : State) : s.dropWrite.encryptJob = s.encryptJob := rfl
@[simp] theorem State.dropWrite_decryptJob (s : State) : s.dropWrite.decryptJob = s.decryptJob := rfl
@[simp] theorem State.goTo_nonce (r : Running) (a : Action) (s : State) : (s.goTo r a).nonce = s.nonce := rfl
@[simp] theorem State.goTo_seq (r : Running) (a : Action) (s : State) : (s.goTo r a).seq = s.seq := rfl
@[simp] theorem State.goTo_src (r : Running) (a : Action) (s : State) : (s.goTo r a).src = s.src := rfl
@[simp] theorem State.goTo_dst (r : Running) (a : Action) (s : State) : (s.goTo r a).dst = s.dst := rfl
@[simp] theorem State.goTo_length (r : Running) (a : Action) (s : State) : (s.goTo r a).length = s.length := rfl
@[simp] theorem State.goTo_packedNonce (r : Running) (a : Action) (s : State) : (s.goTo r a).packedNonce = s.packedNonce := rfl
@[simp] theorem State.goTo_encryptJob (r : Running) (a : Action) (s : State) : (s.goTo r a).encryptJob = s.encryptJob := rfl
@[simp] theorem State.goTo_decryptJob (r : Running) (a : Action) (s : State) : (s.goTo r a).decryptJob = s.decryptJob := rfl
@[simp] theorem State.request_nonce (r : Running) (q : Request) (s : State) : (s.request r q).nonce = s.nonce := rfl
@[simp] theorem State.request_seq (r : Running) (q : Request) (s : State) : (s.request r q).seq = s.seq := rfl
@[simp] theorem State.request_src (r : Running) (q : Request) (s : State) : (s.request r q).src = s.src := rfl
@[simp] theorem State.request_dst (r : Running) (q : Request) (s : State) : (s.request r q).dst = s.dst := rfl
@[simp] theorem State.request_length (r : Running) (q : Request) (s : State) : (s.request r q).length = s.length := rfl
@[simp] theorem State.request_packedNonce (r : Running) (q : Request) (s : State) : (s.request r q).packedNonce = s.packedNonce := rfl
@[simp] theorem State.request_encryptJob (r : Running) (q : Request) (s : State) : (s.request r q).encryptJob = s.encryptJob := rfl
@[simp] theorem State.request_decryptJob (r : Running) (q : Request) (s : State) : (s.request r q).decryptJob = s.decryptJob := rfl

/-! The flags of STATUS under its updates (R34, R130, R132, R133). -/

@[simp] theorem Status.accepted_done (st : Status) : st.accepted.done = false := rfl
@[simp] theorem Status.accepted_err (st : Status) : st.accepted.err = false := rfl
@[simp] theorem Status.accepted_ovr (st : Status) : st.accepted.ovr = st.ovr := rfl
@[simp] theorem Status.accepted_errcode (st : Status) : st.accepted.errcode = 0 := rfl
@[simp] theorem Status.completed_done (st : Status) : st.completed.done = true := rfl
@[simp] theorem Status.completed_err (st : Status) : st.completed.err = st.err := rfl
@[simp] theorem Status.completed_ovr (st : Status) : st.completed.ovr = st.ovr := rfl
@[simp] theorem Status.completed_errcode (st : Status) : st.completed.errcode = st.errcode := rfl
@[simp] theorem Status.failed_done (st : Status) (c : ErrCode) : (st.failed c).done = st.done := rfl
@[simp] theorem Status.failed_err (st : Status) (c : ErrCode) : (st.failed c).err = true := rfl
@[simp] theorem Status.failed_ovr (st : Status) (c : ErrCode) : (st.failed c).ovr = st.ovr := rfl
@[simp] theorem Status.failed_errcode (st : Status) (c : ErrCode) : (st.failed c).errcode = errNumber c := rfl
@[simp] theorem Status.overrun_done (st : Status) : st.overrun.done = st.done := rfl
@[simp] theorem Status.overrun_err (st : Status) : st.overrun.err = st.err := rfl
@[simp] theorem Status.overrun_ovr (st : Status) : st.overrun.ovr = true := rfl
@[simp] theorem Status.overrun_errcode (st : Status) : st.overrun.errcode = st.errcode := rfl
@[simp] theorem Status.clear_done (st : Status) (w : Word) : (st.clear w).done = (st.done && !w.getLsbD 1) := rfl
@[simp] theorem Status.clear_err (st : Status) (w : Word) : (st.clear w).err = (st.err && !w.getLsbD 2) := rfl
@[simp] theorem Status.clear_ovr (st : Status) (w : Word) : (st.clear w).ovr = (st.ovr && !w.getLsbD 3) := rfl
@[simp] theorem Status.clear_errcode (st : Status) (w : Word) : (st.clear w).errcode = if w.getLsbD 2 then 0 else st.errcode := rfl

end Sys2Proof.Machine
end

