-- ==== Sys2Proof/Laws/Access.lean ====
section
/-! SUPPORT. Everything a data access can do (R74, R75), and the checks before it (R72, R73, R229). -/

namespace Sys2Proof.Machine

theorem allInRange_iff {a n : Nat} {test : Nat → Bool} :
    allInRange a n test = true ↔ ∀ i < n, test (a + i) = true := by
  simp [allInRange]

/-- An access succeeds exactly on a range of answering plain memory inside the data space. -/
theorem State.verdict_ok_iff {s : State} {a n : Nat} :
    s.verdict a n = .ok ↔ a + n ≤ dataSpaceBytes ∧ s.Reachable a n := by
  simp only [State.verdict]
  split
  · rename_i h; simp; intro h'; omega
  · rename_i h
    have hle : a + n ≤ dataSpaceBytes := by omega
    have dev : allInRange a n (fun x => !s.isDevice x) = true ↔ ∀ i < n, s.isDevice (a + i) = false := by
      simp [allInRange_iff]
    by_cases hd : allInRange a n (fun x => !s.isDevice x) = true
    · rw [if_neg (by simp [hd])]
      by_cases ho : allInRange a n s.busOk = true
      · rw [if_pos ho]
        exact iff_of_true rfl ⟨hle, fun i hi => ⟨allInRange_iff.1 ho i hi, dev.1 hd i hi⟩⟩
      · rw [if_neg ho]
        exact iff_of_false (by simp) fun h => ho (allInRange_iff.2 fun i hi => (h.2 i hi).1)
    · rw [if_pos (by simp [hd])]
      exact iff_of_false (by simp) fun h => hd (dev.2 fun i hi => (h.2 i hi).2)

/-- An access never leaves the data space when its range is valid (R71, R72). -/
theorem State.verdict_ne_outside {s : State} {a n : Nat} (h : a + n ≤ dataSpaceBytes) : s.verdict a n ≠ .outside := by
  simp only [State.verdict, if_neg (Nat.not_lt.2 h)]
  split
  · simp
  · split <;> simp

/-- A bus error arises only inside the data space. -/
theorem State.verdict_busError {s : State} {a n : Nat} (h : s.verdict a n = .busError) : a + n ≤ dataSpaceBytes := by
  by_contra hlt
  rw [State.verdict, if_pos (by omega)] at h
  cases h

/-- What an access meets depends on the platform alone. -/
theorem State.verdict_congr {s t : State} (h : s.platform = t.platform) (a n : Nat) :
    s.verdict a n = t.verdict a n := by
  simp [State.verdict, State.isDevice, State.busOk, h, allInRange]

theorem State.Reachable.congr {s t : State} {a n : Nat} (hr : s.Reachable a n) (h : t.platform = s.platform) :
    t.Reachable a n := by
  intro i hi
  have := hr i hi
  simpa [State.busOk, State.isDevice, h] using this

theorem State.Reachable.sub {s : State} {a n a' n' : Nat} (hr : s.Reachable a n) (h1 : a ≤ a')
    (h2 : a' + n' ≤ a + n) : s.Reachable a' n' := by
  intro i hi
  have := hr (a' + i - a) (by omega)
  rwa [show a + (a' + i - a) = a' + i by omega] at this

/-- A read of answering plain memory gives its bytes (R74). -/
theorem State.readThen_ok {s : State} {a n : Nat} (h1 : a + n ≤ dataSpaceBytes) (h2 : s.Reachable a n)
    (bus : State → State) (k : List Byte → Flow) : s.readThen a n bus k = k (Memory.bytes s.mem a n) := by
  simp [State.readThen, State.verdict_ok_iff.2 ⟨h1, h2⟩]

/-- A write to answering plain memory stores its bytes (R75). -/
theorem State.writeThen_ok {s : State} {a : Nat} {bs : List Byte} (h1 : a + bs.length ≤ dataSpaceBytes)
    (h2 : s.Reachable a bs.length) (bus : State → State) (k : State → Flow) :
    s.writeThen a bs bus k = k { s with mem := Memory.storeBytes s.mem a bs } := by
  simp [State.writeThen, State.verdict_ok_iff.2 ⟨h1, h2⟩]

/-- The four ways a read can go. -/
theorem State.readThen_cases (s : State) (a n : Nat) (bus : State → State) (k : List Byte → Flow) :
    (s.verdict a n = .ok ∧ s.readThen a n bus k = k (Memory.bytes s.mem a n)) ∨
    (s.verdict a n = .busError ∧ s.readThen a n bus k = .stop (.next (bus s))) ∨
    (s.verdict a n = .device ∧ s.readThen a n bus k = .stop (.refused .deviceBuffer)) ∨
    (s.verdict a n = .outside ∧ s.readThen a n bus k = .stop (.fault .outsideDataSpace)) := by
  unfold State.readThen
  cases s.verdict a n <;> simp

/-- The four ways a write can go. -/
theorem State.writeThen_cases (s : State) (a : Nat) (bs : List Byte) (bus : State → State) (k : State → Flow) :
    (s.verdict a bs.length = .ok ∧ s.writeThen a bs bus k = k { s with mem := Memory.storeBytes s.mem a bs }) ∨
    (s.verdict a bs.length = .busError ∧
      s.writeThen a bs bus k = .stop (.next (bus (State.scramble (addresses a bs.length) s)))) ∨
    (s.verdict a bs.length = .device ∧ s.writeThen a bs bus k = .stop (.refused .deviceBuffer)) ∨
    (s.verdict a bs.length = .outside ∧ s.writeThen a bs bus k = .stop (.fault .outsideDataSpace)) := by
  unfold State.writeThen
  cases s.verdict a bs.length <;> simp

/-- The checks of a list all pass exactly when no error is found (R229). -/
theorem firstError_eq_none {l : List (Bool × ErrCode)} : firstError l = none ↔ ∀ x ∈ l, x.1 = true := by
  induction l with
  | nil => simp [firstError]
  | cons x l ih =>
    obtain ⟨p, c⟩ := x
    cases p <;> simp [firstError, ih]

theorem genKsCheck_eq_none {s : State} : genKsCheck s = none ↔ legalKeyBits s.keyBits = true := by
  simp [genKsCheck, firstError_eq_none]

theorem hdrLoadCheck_eq_none {s : State} : hdrLoadCheck s = none ↔ s.src + 8 ≤ dataSpaceBytes := by
  simp [hdrLoadCheck, firstError_eq_none, validRange]

theorem hdrStoreCheck_eq_none {s : State} : hdrStoreCheck s = none ↔ s.dst + 8 ≤ dataSpaceBytes := by
  simp [hdrStoreCheck, firstError_eq_none, validRange]

theorem encryptCheck_eq_none {s : State} :
    encryptCheck s = none ↔ legalKeyBits s.keyBits = true ∧ s.src + s.length ≤ dataSpaceBytes ∧
      s.dst + (s.length + 8) ≤ dataSpaceBytes ∧ overlap s.src s.length s.dst (s.length + 8) = false := by
  simp [encryptCheck, firstError_eq_none, validRange]

theorem decryptCheck_eq_none {s : State} :
    decryptCheck s = none ↔ legalKeyBits s.keyBits = true ∧ 8 ≤ s.length ∧ s.src + s.length ≤ dataSpaceBytes ∧
      s.dst + (s.length - 8) ≤ dataSpaceBytes ∧ overlap s.src s.length s.dst (s.length - 8) = false := by
  simp [decryptCheck, firstError_eq_none, validRange]

theorem overlap_eq_false {a n c m : Nat} :
    overlap a n c m = false ↔ n = 0 ∨ m = 0 ∨ c + m ≤ a ∨ a + n ≤ c := by
  simp only [overlap, decide_eq_false_iff_not]
  omega

/-- A successful ENCRYPT's output length fits 32 bits (R40, C12 of 90_conflicts.md). -/
theorem encryptCheck_length {s : State} (h : encryptCheck s = none) : s.length + 8 < dataSpaceBytes := by
  obtain ⟨-, h1, h2, h3⟩ := encryptCheck_eq_none.1 h
  have h3 := overlap_eq_false.1 h3
  have : s.length < 2 ^ 32 := s.len.isLt
  simp only [dataSpaceBytes] at *
  omega

end Sys2Proof.Machine
end

