-- ==== Sys2Proof/Laws/Stream.lean ====
section
/-! SUPPORT. Byte strings, the block functions (R172) and the block loop of ENCRYPT and DECRYPT (R173, R175). -/

namespace Sys2Proof.Machine

@[simp] theorem length_joinBytes {n m : Nat} (b : Bytes n) (c : Bytes m) : (joinBytes b c).toList.length = n + m := by
  simp

theorem toList_joinBytes {n m : Nat} (b : Bytes n) (c : Bytes m) :
    (joinBytes b c).toList = b.toList ++ c.toList := rfl

@[simp] theorem length_xorBytes (x k : List Byte) : (xorBytes x k).length = min x.length k.length := by
  simp [xorBytes]

theorem xorBytes_xorBytes {x k : List Byte} (h : x.length ≤ k.length) : xorBytes (xorBytes x k) k = x := by
  apply List.ext_getElem
  · simp [h]
  · intro i h1 h2
    simp [xorBytes]

/-- The header of eight bytes that a list of eight bytes gives is that list (R203). -/
theorem toList_halfOfList {bs : List Byte} (h : bs.length = 8) : (halfOfList bs).toList = bs := by
  match bs, h with
  | [a, b, c, d, e, f, g, i], _ => rfl

theorem blockLen_le (m b : Nat) : blockLen m b ≤ 16 := by simp [blockLen]

theorem blockLen_pos {m b : Nat} (h : b < blockCount m) : 0 < blockLen m b := by
  simp only [blockCount, blockLen] at *; omega

/-- A block lies inside the body (R172). -/
theorem block_inside {m b : Nat} (h : b < blockCount m) : 16 * b + blockLen m b ≤ m := by
  simp only [blockCount, blockLen] at *; omega

theorem block_end {m b : Nat} : 16 * b + blockLen m b = min m (16 * b + 16) ∨ m < 16 * b := by
  simp only [blockLen]; omega

/-- The state after one block whose accesses succeed (R173, R175). -/
def State.afterBlock (s : State) (j : StreamJob) (b : Nat) : State :=
  { (s.startBlock b).cipherExchange with
    mem := Memory.storeBytes s.mem (j.outBase + 16 * b)
      (xorBytes (Memory.bytes s.mem (j.inBase + 16 * b) (blockLen j.bodyLen b))
        ((keystream s.cipher s.keyBits s.cb.header s.ctrl.seqPresent s.seq b).toList.take
          (blockLen j.bodyLen b))) }

/-- The bytes block b writes are as many as it reads (R172). -/
theorem length_blockOutput (s : State) (j : StreamJob) (b : Nat) (k : Block) :
    (xorBytes (Memory.bytes s.mem (j.inBase + 16 * b) (blockLen j.bodyLen b))
      (k.toList.take (blockLen j.bodyLen b))).length = blockLen j.bodyLen b := by
  have := blockLen_le j.bodyLen b
  simp; omega

/-- Everything one block can do (R173, R175): both accesses succeed; or one meets a bus error, the read with memory as
it was and the write with free bytes in its range; or the model stops. -/
theorem streamBlock_cases (j : StreamJob) (b : Nat) (s : State) :
    (s.verdict (j.inBase + 16 * b) (blockLen j.bodyLen b) = .ok ∧
      s.verdict (j.outBase + 16 * b) (blockLen j.bodyLen b) = .ok ∧ streamBlock j b s = .cont (s.afterBlock j b)) ∨
    (s.verdict (j.inBase + 16 * b) (blockLen j.bodyLen b) = .busError ∧
      streamBlock j b s = .stop (.next ((s.startBlock b).cipherExchange.failStream .bus))) ∨
    (s.verdict (j.inBase + 16 * b) (blockLen j.bodyLen b) = .ok ∧
      s.verdict (j.outBase + 16 * b) (blockLen j.bodyLen b) = .busError ∧
      streamBlock j b s = .stop (.next ((State.scramble (addresses (j.outBase + 16 * b) (blockLen j.bodyLen b))
        (s.startBlock b).cipherExchange).failStream .bus))) ∨
    ((s.verdict (j.inBase + 16 * b) (blockLen j.bodyLen b) = .device ∨
      s.verdict (j.outBase + 16 * b) (blockLen j.bodyLen b) = .device) ∧
      streamBlock j b s = .stop (.refused .deviceBuffer)) ∨
    ((s.verdict (j.inBase + 16 * b) (blockLen j.bodyLen b) = .outside ∨
      s.verdict (j.outBase + 16 * b) (blockLen j.bodyLen b) = .outside) ∧
      streamBlock j b s = .stop (.fault .outsideDataSpace)) := by
  have hv : ∀ a n, (s.startBlock b).cipherExchange.verdict a n = s.verdict a n :=
    State.verdict_congr (by simp)
  simp only [streamBlock]
  rcases State.readThen_cases (s.startBlock b).cipherExchange (j.inBase + 16 * b) (blockLen j.bodyLen b)
    (State.failStream .bus) _ with ⟨h1, h2⟩ | ⟨h1, h2⟩ | ⟨h1, h2⟩ | ⟨h1, h2⟩ <;> rw [h2] <;> rw [hv] at h1
  · rcases State.writeThen_cases (s.startBlock b).cipherExchange (j.outBase + 16 * b)
      (xorBytes (Memory.bytes (s.startBlock b).cipherExchange.mem (j.inBase + 16 * b) (blockLen j.bodyLen b))
        ((s.startBlock b).cipherExchange.ks.toList.take (blockLen j.bodyLen b)))
      (State.failStream .bus) .cont with ⟨h3, h4⟩ | ⟨h3, h4⟩ | ⟨h3, h4⟩ | ⟨h3, h4⟩ <;> rw [h4] <;>
      rw [hv, length_blockOutput] at h3
    · exact .inl ⟨h1, h3, rfl⟩
    · rw [length_blockOutput]
      exact .inr (.inr (.inl ⟨h1, h3, rfl⟩))
    · exact .inr (.inr (.inr (.inl ⟨.inr h3, rfl⟩)))
    · exact .inr (.inr (.inr (.inr ⟨.inr h3, rfl⟩)))
  · exact .inr (.inl ⟨h1, rfl⟩)
  · exact .inr (.inr (.inr (.inl ⟨.inl h1, rfl⟩)))
  · exact .inr (.inr (.inr (.inr ⟨.inl h1, rfl⟩)))

/-- A block that goes on has done both its accesses. -/
theorem streamBlock_cont {j : StreamJob} {b : Nat} {s t : State} (h : streamBlock j b s = .cont t) :
    s.verdict (j.inBase + 16 * b) (blockLen j.bodyLen b) = .ok ∧
      s.verdict (j.outBase + 16 * b) (blockLen j.bodyLen b) = .ok ∧ t = s.afterBlock j b := by
  rcases streamBlock_cases j b s with ⟨h1, h2, h3⟩ | ⟨-, h3⟩ | ⟨-, -, h3⟩ | ⟨-, h3⟩ | ⟨-, h3⟩ <;> rw [h3] at h <;>
    simp_all

/-- The byte that one successful block leaves at an address. -/
theorem byte_afterBlock (j : StreamJob) (s : State) (b x : Nat) :
    Memory.byte (s.afterBlock j b).mem x =
      if j.outBase + 16 * b ≤ x ∧ x < j.outBase + 16 * b + blockLen j.bodyLen b then
        Memory.byte s.mem (j.inBase + (x - j.outBase)) ^^^
          (keystream s.cipher s.keyBits s.cb.header s.ctrl.seqPresent s.seq b).toList.getD
            (x - j.outBase - 16 * b) 0
      else Memory.byte s.mem x := by
  have hle := blockLen_le j.bodyLen b
  simp only [State.afterBlock, Memory.byte_storeBytes]
  split
  · rename_i h
    have hx : x - (j.outBase + 16 * b) < blockLen j.bodyLen b := by
      have := h.2; simp at this; omega
    rw [if_pos (by omega)]
    have e1 : j.inBase + 16 * b + (x - (j.outBase + 16 * b)) = j.inBase + (x - j.outBase) := by omega
    have e2 : x - j.outBase - 16 * b = x - (j.outBase + 16 * b) := by omega
    simp only [xorBytes, List.getElem_zipWith, Memory.getElem_bytes, List.getElem_take, e1, e2]
    rw [List.getD_eq_getElem _ _ (by simp; omega)]
  · rename_i h
    rw [if_neg]
    intro h'
    apply h
    simp
    omega

/-- What the block loop has done after `todo` blocks from block b on, when it goes on: what it leaves in memory byte by
byte, and what else it changes. The two bodies must be apart (R226). -/
theorem streamBlocks_cont {j : StreamJob} (todo b : Nat) {s t : State}
    (h : streamBlocks j todo b s = .cont t) (hb : b + todo ≤ blockCount j.bodyLen)
    (hap : j.bodyLen = 0 ∨ j.inBase + j.bodyLen ≤ j.outBase ∨ j.outBase + j.bodyLen ≤ j.inBase) :
    t = { s with idx := t.idx, cb := ⟨s.cb.header, t.cb.counter⟩, ks := t.ks, mem := t.mem } ∧
      t.cb.counter = (if todo = 0 then s.cb.counter
        else encodeCounter (b + todo - 1) s.ctrl.seqPresent s.seq) ∧
      ∀ x, Memory.byte t.mem x =
        if j.outBase + 16 * b ≤ x ∧ x < j.outBase + min j.bodyLen (16 * (b + todo)) then
          Memory.byte s.mem (j.inBase + (x - j.outBase)) ^^^
            (keystream s.cipher s.keyBits s.cb.header s.ctrl.seqPresent s.seq ((x - j.outBase) / 16)).toList.getD
              ((x - j.outBase) % 16) 0
        else Memory.byte s.mem x := by
  induction todo generalizing b s with
  | zero =>
    cases h
    refine ⟨rfl, rfl, fun x => ?_⟩
    rw [if_neg]
    omega
  | succ todo ih =>
    rw [streamBlocks] at h
    split at h
    case h_2 => cases h
    rename_i s' hs'
    obtain ⟨-, -, rfl⟩ := streamBlock_cont hs'
    have hlt : b < blockCount j.bodyLen := by omega
    obtain ⟨hf, hc, hm⟩ := ih (b + 1) h (by omega)
    refine ⟨?_, ?_, fun x => ?_⟩
    · rw [hf]; rfl
    · rw [hc, if_neg (Nat.succ_ne_zero todo)]
      split
      · rename_i h0; subst h0; rfl
      · rw [show b + 1 + todo - 1 = b + (todo + 1) - 1 by omega]; rfl
    · have hin := block_inside hlt
      have hend : j.outBase + 16 * b + blockLen j.bodyLen b =
          min (j.outBase + j.bodyLen) (j.outBase + 16 * (b + 1)) := by
        simp only [blockLen, blockCount] at *; omega
      rw [hm x]
      have hks : ∀ i, keystream (s.afterBlock j b).cipher (s.afterBlock j b).keyBits (s.afterBlock j b).cb.header
          (s.afterBlock j b).ctrl.seqPresent (s.afterBlock j b).seq i =
          keystream s.cipher s.keyBits s.cb.header s.ctrl.seqPresent s.seq i := fun _ => rfl
      simp only [hks, byte_afterBlock]
      by_cases h1 : j.outBase + 16 * (b + 1) ≤ x ∧ x < j.outBase + min j.bodyLen (16 * (b + 1 + todo))
      · have h2 : ¬(j.outBase + 16 * b ≤ j.inBase + (x - j.outBase) ∧
            j.inBase + (x - j.outBase) < j.outBase + 16 * b + blockLen j.bodyLen b) := by omega
        have h3 : j.outBase + 16 * b ≤ x ∧ x < j.outBase + min j.bodyLen (16 * (b + (todo + 1))) := by omega
        rw [if_pos h1, if_neg h2, if_pos h3]
      · rw [if_neg h1]
        by_cases h2 : j.outBase + 16 * b ≤ x ∧ x < j.outBase + 16 * b + blockLen j.bodyLen b
        · have h3 : (x - j.outBase) / 16 = b := by omega
          have h4 : (x - j.outBase) % 16 = x - j.outBase - 16 * b := by omega
          rw [if_pos h2, if_pos (by omega), h3, h4]
        · rw [if_neg h2, if_neg (by omega)]

/-- A block loop that is over has gone on for some blocks and is over at the next one. -/
theorem streamBlocks_stop {j : StreamJob} (todo b : Nat) {s : State} {o : Host.Outcome State Fault Refusal}
    (h : streamBlocks j todo b s = .stop o) :
    ∃ k < todo, ∃ s', streamBlocks j k b s = .cont s' ∧ streamBlock j (b + k) s' = .stop o := by
  induction todo generalizing b s with
  | zero => cases h
  | succ todo ih =>
    rw [streamBlocks] at h
    split at h
    · rename_i s' hs'
      obtain ⟨k, hk, u, hu, ho⟩ := ih (b + 1) h
      refine ⟨k + 1, by omega, u, ?_, ?_⟩
      · rw [streamBlocks, hs']; exact hu
      · rw [← ho]; congr 1; omega
    · rename_i o' ho'
      cases h
      exact ⟨0, by omega, s, rfl, ho'⟩

/-- A job whose accesses all succeed: both bodies inside the data space, of answering plain memory. -/
structure StreamJob.Clear (j : StreamJob) (s : State) : Prop where
  inSpace : j.inBase + j.bodyLen ≤ dataSpaceBytes
  outSpace : j.outBase + j.bodyLen ≤ dataSpaceBytes
  inOk : s.Reachable j.inBase j.bodyLen
  outOk : s.Reachable j.outBase j.bodyLen

/-- The block loop of a clear job goes on to its end. -/
theorem streamBlocks_clear {j : StreamJob} (todo b : Nat) {s : State} (h : j.Clear s)
    (hb : b + todo ≤ blockCount j.bodyLen) : ∃ t, streamBlocks j todo b s = .cont t := by
  induction todo generalizing b s with
  | zero => exact ⟨s, rfl⟩
  | succ todo ih =>
    have hin := block_inside (show b < blockCount j.bodyLen by omega)
    have h1 := h.inSpace
    have h2 := h.outSpace
    have hi : s.verdict (j.inBase + 16 * b) (blockLen j.bodyLen b) = .ok :=
      State.verdict_ok_iff.2 ⟨by omega, h.inOk.sub (by omega) (by omega)⟩
    have ho : s.verdict (j.outBase + 16 * b) (blockLen j.bodyLen b) = .ok :=
      State.verdict_ok_iff.2 ⟨by omega, h.outOk.sub (by omega) (by omega)⟩
    have hs : streamBlock j b s = .cont (s.afterBlock j b) := by
      rcases streamBlock_cases j b s with ⟨-, -, h3⟩ | ⟨h3, -⟩ | ⟨-, h3, -⟩ | h3 | ⟨h3, -⟩
      · exact h3
      · simp [hi] at h3
      · simp [ho] at h3
      · rcases h3 with ⟨h3 | h3, -⟩ <;> simp [hi, ho] at h3
      · simp [hi, ho] at h3
    rw [streamBlocks, hs]
    exact ih (b + 1) ⟨h1, h2, h.inOk.congr rfl, h.outOk.congr rfl⟩ (by omega)

/-- Byte i of the transformed body (R172). -/
def bodyByte (c : Collaborator) (kb : Word) (h : Half) (x : List Byte) (p : Bool) (s : BitVec 64) (i : Nat) : Byte :=
  x.getD i 0 ^^^ (keystream c kb h p s (i / 16)).toList.getD (i % 16) 0

/-- The transformed body, byte by byte (R172). -/
theorem ctrBody_eq_map (c : Collaborator) (kb : Word) (h : Half) (x : List Byte) (p : Bool) (s : BitVec 64) :
    ctrBody c kb h x p s = (List.range x.length).map (bodyByte c kb h x p s) := by
  have blocks : ∀ k ≤ blockCount x.length,
      ((List.range k).flatMap fun b =>
        xorBytes ((x.drop (16 * b)).take (blockLen x.length b))
          ((keystream c kb h p s b).toList.take (blockLen x.length b))) =
      (List.range (min (16 * k) x.length)).map (bodyByte c kb h x p s) := by
    intro k hk
    induction k with
    | zero => simp
    | succ k ih =>
      have hin := block_inside (show k < blockCount x.length by omega)
      have hle := blockLen_le x.length k
      have hend : min (16 * (k + 1)) x.length = 16 * k + blockLen x.length k := by simp only [blockLen]; omega
      rw [List.range_succ, List.flatMap_append, ih (by omega), hend, List.range_add, List.map_append,
        show min (16 * k) x.length = 16 * k by omega]
      congr 1
      simp only [List.flatMap_cons, List.flatMap_nil, List.append_nil, List.map_map]
      refine List.ext_getElem (by simp; omega) fun i h1 h2 => ?_
      have hi : i < blockLen x.length k := by simpa using h2
      simp only [xorBytes, List.getElem_zipWith, List.getElem_take, List.getElem_drop, List.getElem_map,
        List.getElem_range, Function.comp, bodyByte]
      rw [List.getD_eq_getElem _ _ (by omega), show (16 * k + i) / 16 = k by omega,
        show (16 * k + i) % 16 = i by omega, List.getD_eq_getElem _ _ (by simp; omega)]
  have := blocks (blockCount x.length) (Nat.le_refl _)
  rw [show min (16 * blockCount x.length) x.length = x.length by simp only [blockCount]; omega] at this
  exact this


end Sys2Proof.Machine
end

