-- ==== Sys2Proof/Laws/Commands.lean ====
section
/-! SUPPORT. Everything a command can do (R133, R231): one inversion lemma per meaning. -/

namespace Sys2Proof.Machine

/-- What a running command may have changed before it ends: IDX, CB, KS, draws, and data memory in [lo, hi) only. -/
structure Change (lo hi : Nat) (s t : State) : Prop where
  frame : t = { s with idx := t.idx, cb := t.cb, ks := t.ks, mem := t.mem, draws := t.draws }
  outside : ∀ x, x < lo ∨ hi ≤ x → Memory.byte t.mem x = Memory.byte s.mem x
  wf : Memory.wf s.mem → Memory.wf t.mem

theorem Change.refl (lo hi : Nat) (s : State) : Change lo hi s s := ⟨rfl, fun _ _ => rfl, id⟩

theorem Change.trans {lo hi : Nat} {s t u : State} (h : Change lo hi s t) (h' : Change lo hi t u) :
    Change lo hi s u :=
  ⟨by rw [h'.frame, h.frame], fun x hx => (h'.outside x hx).trans (h.outside x hx), h'.wf ∘ h.wf⟩

theorem Change.platform {lo hi : Nat} {s t : State} (h : Change lo hi s t) : t.platform = s.platform := by
  rw [h.frame]

/-- Only IDX, CB and KS changed. -/
theorem Change.of_frame {lo hi : Nat} {s t : State} (h : t = { s with idx := t.idx, cb := t.cb, ks := t.ks }) :
    Change lo hi s t := by
  refine ⟨by rw [h], fun x _ => by rw [h], fun hw => by rw [h]; exact hw⟩

/-- A successful write inside [lo, hi). -/
theorem Change.write {lo hi a : Nat} {bs : List Byte} {s : State} (h1 : lo ≤ a) (h2 : a + bs.length ≤ hi)
    (h3 : s.verdict a bs.length = .ok) : Change lo hi s { s with mem := Memory.storeBytes s.mem a bs } :=
  ⟨rfl, fun _ hx => Memory.byte_storeBytes_outside _ (by omega),
    fun hw => Memory.wf_storeBytes hw (State.verdict_ok_iff.1 h3).1⟩

/-- Free bytes inside [lo, hi). -/
theorem Change.scramble {lo hi a n : Nat} {s : State} (h1 : lo ≤ a) (h2 : a + n ≤ hi)
    (h3 : s.verdict a n = .busError) : Change lo hi s (State.scramble (addresses a n) s) := by
  refine ⟨?_, fun x hx => State.scramble_byte_outside s ?_, fun hw => State.scramble_wf hw fun x hx => ?_⟩
  · rw [State.scramble_eq]
  · rw [mem_addresses]; omega
  · have := State.verdict_busError h3
    rw [mem_addresses] at hx
    omega

/-- What one block changes, however it ends: it goes on, ends with BUS, or the model stops (R173, R175). -/
theorem streamBlock_change {j : StreamJob} {b : Nat} (hb : b < blockCount j.bodyLen) (s : State) :
    (∃ t, streamBlock j b s = .cont t ∧ Change j.outBase (j.outBase + j.bodyLen) s t ∧
      t.cb.header = s.cb.header) ∨
    (∃ t, streamBlock j b s = .stop (.next (t.failStream .bus)) ∧
      Change j.outBase (j.outBase + j.bodyLen) s t ∧ t.cb.header = s.cb.header) ∨
    streamBlock j b s = .stop (.refused .deviceBuffer) ∨ streamBlock j b s = .stop (.fault .outsideDataSpace) := by
  have hin := block_inside hb
  have hc : Change j.outBase (j.outBase + j.bodyLen) s (s.startBlock b).cipherExchange := .of_frame rfl
  rcases streamBlock_cases j b s with ⟨-, h2, h3⟩ | ⟨-, h3⟩ | ⟨-, h2, h3⟩ | ⟨-, h3⟩ | ⟨-, h3⟩
  · refine .inl ⟨_, h3, hc.trans (Change.write (by omega) ?_ ?_), rfl⟩
    · rw [length_blockOutput]; omega
    · rw [length_blockOutput]; exact (State.verdict_congr rfl _ _).trans h2
  · exact .inr (.inl ⟨_, h3, hc, rfl⟩)
  · refine .inr (.inl ⟨_, h3, hc.trans (Change.scramble (by omega) (by omega) ?_), ?_⟩)
    · exact (State.verdict_congr rfl _ _).trans h2
    · rw [State.scramble_eq]; rfl
  · exact .inr (.inr (.inl h3))
  · exact .inr (.inr (.inr h3))

/-- What the block loop changes, however it ends. -/
theorem streamBlocks_change {j : StreamJob} (todo b : Nat) (hb : b + todo ≤ blockCount j.bodyLen) (s : State) :
    (∃ t, streamBlocks j todo b s = .cont t ∧ Change j.outBase (j.outBase + j.bodyLen) s t ∧
      t.cb.header = s.cb.header) ∨
    (∃ t, streamBlocks j todo b s = .stop (.next (t.failStream .bus)) ∧
      Change j.outBase (j.outBase + j.bodyLen) s t ∧ t.cb.header = s.cb.header) ∨
    streamBlocks j todo b s = .stop (.refused .deviceBuffer) ∨
    streamBlocks j todo b s = .stop (.fault .outsideDataSpace) := by
  induction todo generalizing b s with
  | zero => exact .inl ⟨s, rfl, .refl _ _ s, rfl⟩
  | succ todo ih =>
    rcases streamBlock_change (show b < blockCount j.bodyLen by omega) s with
      ⟨t, h1, h2, h3⟩ | ⟨t, h1, h2, h3⟩ | h1 | h1 <;> simp only [streamBlocks, h1]
    · rcases ih (b + 1) (by omega) t with ⟨u, h4, h5, h6⟩ | ⟨u, h4, h5, h6⟩ | h4 | h4
      · exact .inl ⟨u, h4, h2.trans h5, h6.trans h3⟩
      · exact .inr (.inl ⟨u, h4, h2.trans h5, h6.trans h3⟩)
      · exact .inr (.inr (.inl h4))
      · exact .inr (.inr (.inr h4))
    · exact .inr (.inl ⟨t, rfl, h2, h3⟩)
    · exact .inr (.inr (.inl trivial))
    · exact .inr (.inr (.inr trivial))

theorem Change.weaken {lo hi lo' hi' : Nat} {s t : State} (h : Change lo hi s t) (h1 : lo' ≤ lo) (h2 : hi ≤ hi') :
    Change lo' hi' s t := ⟨h.frame, fun x hx => h.outside x (by omega), h.wf⟩

/-- Everything GEN_KS can do (R171). -/
theorem execGenKs_cases (s : State) :
    (∃ c, genKsCheck s = some c ∧ execGenKs s = .next (s.raiseError c)) ∨
    (genKsCheck s = none ∧ execGenKs s = .next s.cipherExchange.complete) := by
  unfold execGenKs
  cases genKsCheck s <;> simp

/-- Everything HDR_LOAD can do (R201). -/
theorem execHdrLoad_cases (s : State) :
    (∃ c, hdrLoadCheck s = some c ∧ execHdrLoad s = .next (s.raiseError c)) ∨
    (hdrLoadCheck s = none ∧
      ((s.verdict s.src 8 = .ok ∧
          execHdrLoad s = .next (s.setHeader (halfOfList (Memory.bytes s.mem s.src 8))).complete) ∨
       (s.verdict s.src 8 = .busError ∧ execHdrLoad s = .next (s.raiseError .bus)) ∨
       (s.verdict s.src 8 = .device ∧ execHdrLoad s = .refused .deviceBuffer))) := by
  unfold execHdrLoad
  cases h : hdrLoadCheck s with
  | some c => simp
  | none =>
    have hv := State.verdict_ne_outside (s := s) (hdrLoadCheck_eq_none.1 h)
    rcases State.readThen_cases s s.src 8 (State.raiseError .bus)
      (fun h => .cont (s.setHeader (halfOfList h))) with ⟨h1, h2⟩ | ⟨h1, h2⟩ | ⟨h1, h2⟩ | ⟨h1, h2⟩ <;>
      simp_all [Flow.andThen]

/-- Everything HDR_STORE can do (R202). -/
theorem execHdrStore_cases (s : State) :
    (∃ c, hdrStoreCheck s = some c ∧ execHdrStore s = .next (s.raiseError c)) ∨
    (hdrStoreCheck s = none ∧
      ((s.verdict s.dst 8 = .ok ∧
          execHdrStore s =
            .next ({ s with mem := Memory.storeBytes s.mem s.dst s.cb.header.toList } : State).complete) ∨
       (s.verdict s.dst 8 = .busError ∧
          execHdrStore s = .next ((State.scramble (addresses s.dst 8) s).raiseError .bus)) ∨
       (s.verdict s.dst 8 = .device ∧ execHdrStore s = .refused .deviceBuffer))) := by
  unfold execHdrStore
  cases h : hdrStoreCheck s with
  | some c => simp
  | none =>
    have hv := State.verdict_ne_outside (s := s) (hdrStoreCheck_eq_none.1 h)
    have hl : s.cb.header.toList.length = 8 := by simp
    rcases State.writeThen_cases s s.dst s.cb.header.toList (State.raiseError .bus) .cont with
      ⟨h1, h2⟩ | ⟨h1, h2⟩ | ⟨h1, h2⟩ | ⟨h1, h2⟩ <;> rw [hl] at h1 <;> (try simp only [hl] at h2) <;>
      simp_all [Flow.andThen]

/-- Everything ENCRYPT can do, as far as its frame goes (R173): a check fails; or it ends with BUS or completes, having
written nothing outside its destination; or the model stops. -/
theorem execEncrypt_cases (s : State) :
    (∃ c, encryptCheck s = some c ∧ execEncrypt s = .next (s.failStream c)) ∨
    (encryptCheck s = none ∧ ∃ t, Change s.dst (s.dst + (s.length + 8)) s t ∧ t.cb.header = s.packedNonce ∧
      (execEncrypt s = .next (t.failStream .bus) ∨ execEncrypt s = .next (t.finishStream s.length (s.length + 8)))) ∨
    execEncrypt s = .refused .deviceBuffer ∨ execEncrypt s = .fault .outsideDataSpace := by
  unfold execEncrypt
  cases h : encryptCheck s with
  | some c => simp
  | none =>
    have hl : s.packedNonce.toList.length = 8 := by simp
    have h0 : Change s.dst (s.dst + (s.length + 8)) s s.encryptStart := .of_frame rfl
    rcases State.writeThen_cases s.encryptStart s.dst s.packedNonce.toList (State.failStream .bus)
      (fun s' => streamBlocks s.encryptJob (blockCount s.encryptJob.bodyLen) 0 s') with
      ⟨h1, h2⟩ | ⟨h1, h2⟩ | ⟨h1, h2⟩ | ⟨h1, h2⟩ <;> simp only [h2]
    · have hw := h0.trans (Change.write (Nat.le_refl _) (by omega) h1)
      have hm : s.encryptJob.outBase = s.dst + 8 ∧ s.encryptJob.bodyLen = s.length := ⟨rfl, rfl⟩
      rcases streamBlocks_change (blockCount s.encryptJob.bodyLen) 0 (j := s.encryptJob) (by omega)
        { s.encryptStart with mem := Memory.storeBytes s.encryptStart.mem s.dst s.packedNonce.toList } with
        ⟨t, h4, h5, h6⟩ | ⟨t, h4, h5, h6⟩ | h4 | h4 <;> simp only [h4, Flow.andThen]
      · exact .inr (.inl ⟨trivial, t, hw.trans (h5.weaken (by omega) (by omega)), h6, .inr rfl⟩)
      · exact .inr (.inl ⟨trivial, t, hw.trans (h5.weaken (by omega) (by omega)), h6, .inl rfl⟩)
      · exact .inr (.inr (.inl trivial))
      · exact .inr (.inr (.inr trivial))
    · refine .inr (.inl ⟨trivial, _, h0.trans (Change.scramble (Nat.le_refl _) (by omega) h1), ?_, .inl rfl⟩)
      rw [State.scramble_eq]; rfl
    · exact .inr (.inr (.inl rfl))
    · exact .inr (.inr (.inr rfl))

/-- Everything DECRYPT can do, as far as its frame goes (R175). -/
theorem execDecrypt_cases (s : State) :
    (∃ c, decryptCheck s = some c ∧ execDecrypt s = .next (s.failStream c)) ∨
    (decryptCheck s = none ∧ ∃ t, Change s.dst (s.dst + (s.length - 8)) s t ∧
      (execDecrypt s = .next (t.failStream .bus) ∨
       execDecrypt s = .next (t.finishStream (s.length - 8) (s.length - 8)))) ∨
    execDecrypt s = .refused .deviceBuffer ∨ execDecrypt s = .fault .outsideDataSpace := by
  unfold execDecrypt
  cases h : decryptCheck s with
  | some c => simp
  | none =>
    have hm : s.decryptJob.outBase = s.dst ∧ s.decryptJob.bodyLen = s.length - 8 := ⟨rfl, rfl⟩
    rcases State.readThen_cases { s with idx := 0 } s.src 8 (State.failStream .bus)
      (fun h => streamBlocks s.decryptJob (blockCount s.decryptJob.bodyLen) 0
        (State.setHeader { s with idx := 0 } (halfOfList h))) with
      ⟨h1, h2⟩ | ⟨h1, h2⟩ | ⟨h1, h2⟩ | ⟨h1, h2⟩ <;> simp only [h2]
    · have h0 : Change s.dst (s.dst + (s.length - 8)) s
          (State.setHeader { s with idx := 0 } (halfOfList (Memory.bytes s.mem s.src 8))) := .of_frame rfl
      rcases streamBlocks_change (blockCount s.decryptJob.bodyLen) 0 (j := s.decryptJob) (by omega)
        (State.setHeader { s with idx := 0 } (halfOfList (Memory.bytes s.mem s.src 8))) with
        ⟨t, h4, h5, h6⟩ | ⟨t, h4, h5, h6⟩ | h4 | h4 <;> simp only [h4, Flow.andThen]
      · exact .inr (.inl ⟨trivial, t, h0.trans (h5.weaken (by omega) (by omega)), .inr rfl⟩)
      · exact .inr (.inl ⟨trivial, t, h0.trans (h5.weaken (by omega) (by omega)), .inl rfl⟩)
      · exact .inr (.inr (.inl trivial))
      · exact .inr (.inr (.inr trivial))
    · exact .inr (.inl ⟨trivial, _, .of_frame rfl, .inl rfl⟩)
    · exact .inr (.inr (.inl rfl))
    · exact .inr (.inr (.inr rfl))

end Sys2Proof.Machine
end

