-- ==== Sys2Proof/Laws/Hazards.lean ====
section
/-! SUPPORT. What settling races can change (R84, R256, R257). -/

namespace Sys2Proof.Machine

/-- Only data memory, CB, KS, draws and the windows' records may differ; memory keeps its canonical form and every window
its command. -/
structure Settles (s t : State) : Prop where
  frame : t = { s with cb := t.cb, ks := t.ks, mem := t.mem, draws := t.draws, windows := t.windows }
  wf : Memory.wf s.mem → Memory.wf t.mem
  words : t.windows.map Window.word = s.windows.map Window.word

theorem Settles.refl (s : State) : Settles s s := ⟨rfl, id, rfl⟩

theorem Settles.trans {s t u : State} (h : Settles s t) (h' : Settles t u) : Settles s u :=
  ⟨by rw [h'.frame, h.frame], h'.wf ∘ h.wf, h'.words.trans h.words⟩

theorem Settles.phase {s t : State} (h : Settles s t) : t.phase = s.phase := by rw [h.frame]

theorem Settles.status {s t : State} (h : Settles s t) : t.status = s.status := by rw [h.frame]

theorem Settles.hostCache {s t : State} (h : Settles s t) : t.hostCache = s.hostCache := by rw [h.frame]

/-! ## Notes and records -/

/-- A note touches only the windows of commands, of this engine and of others. -/
theorem State.noteFor_eq (s : State) (who : Master) (note : Window → Window) :
    s.noteFor who note =
      { s with windows := (s.noteFor who note).windows, others := (s.noteFor who note).others } := rfl

/-- A note that leaves every window it may go into alone changes nothing. -/
theorem State.noteFor_of_forall {s : State} {who : Master} {note : Window → Window}
    (h1 : ∀ w ∈ s.windows, note w = w) (h2 : ∀ o ∈ s.others, o.forbids who = true → note o.window = o.window) :
    s.noteFor who note = s := by
  have hw : s.windows.map note = s.windows := (List.map_congr_left h1).trans (List.map_id _)
  have ho : (s.others.map fun o => if o.forbids who then { o with window := note o.window } else o) = s.others :=
    (List.map_congr_left fun o hm => by
      split
      · rename_i hf; rw [h2 o hm hf]; rfl
      · rfl).trans (List.map_id _)
  rw [State.noteFor, hw, ho]

@[simp] theorem Window.noteReads_word (w : Window) (as : List Nat) : (w.noteReads as).word = w.word := rfl

@[simp] theorem Window.noteWrites_word (w : Window) (as : List Nat) : (w.noteWrites as).word = w.word := rfl

@[simp] theorem Window.meet_word (w v : Window) : (w.meet v).word = w.word := rfl

@[simp] theorem OtherCommand.meet_owner (o : OtherCommand) (v : Window) : (o.meet v).owner = o.owner := rfl

@[simp] theorem OtherCommand.meet_window (o : OtherCommand) (v : Window) : (o.meet v).window = o.window.meet v := rfl

theorem Window.noteReads_nil {w : Window} {as : List Nat} (h : as.filter w.watches = []) : w.noteReads as = w := by
  rw [Window.noteReads, h, List.append_nil]

theorem Window.noteWrites_nil {w : Window} {as : List Nat} (h : as.filter w.watches = []) : w.noteWrites as = w := by
  rw [Window.noteWrites, h, List.append_nil]

/-- A window of a command without accesses meets no other command. -/
theorem Window.meet_of_no_ranges {w : Window} (h1 : w.src.len = 0) (h2 : w.dst.len = 0) (v : Window) :
    w.meet v = w := by
  have h : ∀ as : List Nat, as.filter w.watches = [] := fun as => List.filter_eq_nil_iff.2 fun a _ => by
    simp only [Window.watches, inRegion, h1, h2, Bool.or_eq_true, decide_eq_true_eq]; omega
  rw [Window.meet, Window.noteReads_nil (h _), Window.noteWrites_nil (h _)]

/-- No command meets one without accesses. -/
theorem Window.meet_no_ranges {v : Window} (h1 : v.src.len = 0) (h2 : v.dst.len = 0) (w : Window) : w.meet v = w := by
  rw [Window.meet, h1, h2, Window.noteReads_nil rfl, Window.noteWrites_nil rfl]

theorem foldl_meet_of_no_ranges (vs : List Window) {w : Window} (h1 : w.src.len = 0) (h2 : w.dst.len = 0) :
    vs.foldl Window.meet w = w := by
  induction vs with
  | nil => rfl
  | cons v vs ih => rw [List.foldl_cons, Window.meet_of_no_ranges h1 h2, ih]

@[simp] theorem foldl_meet_word (vs : List Window) (w : Window) : (vs.foldl Window.meet w).word = w.word := by
  induction vs generalizing w with
  | nil => rfl
  | cons v vs ih => rw [List.foldl_cons, ih, Window.meet_word]

@[simp] theorem State.newWindow_word (s : State) (w : Word) : (s.newWindow w).word = w := by simp [State.newWindow]

/-- The other instances' commands do not meet a command without accesses (R90). -/
theorem map_meet_of_no_ranges (os : List OtherCommand) {v : Window} (h1 : v.src.len = 0) (h2 : v.dst.len = 0) :
    (os.map fun o => o.meet v) = os :=
  (List.map_congr_left fun o _ => by rw [OtherCommand.meet, Window.meet_no_ranges h1 h2]; rfl).trans (List.map_id _)

/-- The window of a command without accesses meets no other command, and records nothing. -/
theorem State.newWindow_of_no_ranges {s : State} {w : Word} (h : s.ranges (decodeWord w) = (⟨0, 0⟩, ⟨0, 0⟩)) :
    s.newWindow w = ⟨w, ⟨0, 0⟩, ⟨0, 0⟩, ⟨⟨0, 0⟩, false, false⟩, [], [], false⟩ := by
  simp only [State.newWindow, h]
  exact foldl_meet_of_no_ranges _ rfl rfl

/-- Acceptance of a command without accesses leaves the other instances' commands as they were. -/
theorem State.accept_others_of_no_ranges {s : State} {w : Word}
    (h : s.ranges (decodeWord w) = (⟨0, 0⟩, ⟨0, 0⟩)) : (s.accept w).others = s.others := by
  rw [State.accept_others, State.newWindow_of_no_ranges h]
  exact map_meet_of_no_ranges _ rfl rfl

/-- No window that this agent may not touch watches an address that is not watched for it. -/
theorem filter_watches_of_unwatched {s : State} {who : Master} {as : List Nat}
    (h : ∀ a ∈ as, s.watched who a = false) :
    (∀ w ∈ s.windows, as.filter w.watches = []) ∧
      ∀ o ∈ s.others, o.forbids who = true → as.filter o.window.watches = [] := by
  refine ⟨fun w hw => List.filter_eq_nil_iff.2 fun a ha hc => ?_,
    fun o ho hf => List.filter_eq_nil_iff.2 fun a ha hc => ?_⟩ <;>
  obtain ⟨h1, h2⟩ := Bool.or_eq_false_iff.1 (h a ha) <;> rw [List.any_eq_false] at h1 h2
  · exact h1 w hw hc
  · exact h2 o ho (by simp [hf, hc])

theorem noteReads_of_unwatched {s : State} {who : Master} {as : List Nat} (h : ∀ a ∈ as, s.watched who a = false) :
    s.noteReads who as = s :=
  State.noteFor_of_forall (fun w hw => Window.noteReads_nil ((filter_watches_of_unwatched h).1 w hw))
    fun o ho hf => Window.noteReads_nil ((filter_watches_of_unwatched h).2 o ho hf)

theorem noteWrites_of_unwatched {s : State} {who : Master} {as : List Nat} (h : ∀ a ∈ as, s.watched who a = false) :
    s.noteWrites who as = s :=
  State.noteFor_of_forall (fun w hw => Window.noteWrites_nil ((filter_watches_of_unwatched h).1 w hw))
    fun o ho hf => Window.noteWrites_nil ((filter_watches_of_unwatched h).2 o ho hf)

/-- Recording what a command changed touches the newest window's record only. -/
theorem record_settles (s : State) (p : Window → Progress) : Settles s (s.record p) := by
  unfold State.record
  split
  · exact .refl s
  · rename_i h; exact ⟨rfl, id, by simp [h]⟩

theorem recordEnd_settles (s : State) : Settles s s.recordEnd := record_settles s _

theorem record_quiet (s : State) (p : Window → Progress) :
    (s.record p).windows.all Window.quiet = s.windows.all Window.quiet := by
  unfold State.record
  split
  · rfl
  · rename_i h; simp [h, Window.quiet]

/-! ## Settling -/

theorem scramble_settles {as : List Nat} (s : State) (h : ∀ a ∈ as, a < dataSpaceBytes) :
    Settles s (State.scramble as s) :=
  ⟨by rw [State.scramble_eq], fun hw => State.scramble_wf hw h, by rw [State.scramble_eq]⟩

theorem scrambleHeader_settles (is : List Nat) (s : State) : Settles s (State.scrambleHeader is s) := by
  induction is generalizing s with
  | nil => exact .refl s
  | cons i is ih => rw [State.scrambleHeader]; exact .trans (by exact ⟨rfl, id, rfl⟩) (ih _)

theorem free_settles (s : State) (x : Affected) : Settles s (s.free x) := by
  have h := (scramble_settles s fun a ha => by
      simpa using (List.mem_filter.1 ha).2 : Settles s (State.scramble
        (x.mem.filter fun a => decide (a < dataSpaceBytes)) s)).trans (scrambleHeader_settles x.header _)
  unfold State.free
  dsimp only
  split
  · exact h.trans ⟨rfl, id, rfl⟩
  · exact h

/-- Settling changes only results of commands, draws and the records of races. -/
theorem settle_settles (s : State) : Settles s s.settle := by
  unfold State.settle
  split
  · exact .refl s
  · exact (free_settles s _).trans ⟨rfl, id, by
      have := (free_settles s s.affected).words
      simpa [Function.comp_def] using this.symm⟩

/-- After settling nothing is left to settle. -/
theorem settle_quiet (s : State) : s.settle.windows.all Window.quiet = true := by
  unfold State.settle
  split
  · assumption
  · simp [Window.quiet]

/-- Settling does nothing where nothing happened. -/
theorem settle_of_quiet {s : State} (h : s.windows.all Window.quiet = true) : s.settle = s := by
  rw [State.settle, if_pos h]

theorem endCommand_settles (s : State) : Settles s s.endCommand :=
  (recordEnd_settles s).trans (settle_settles _)

/-- After a command's end nothing is left to settle. -/
theorem endCommand_quiet (s : State) : s.endCommand.windows.all Window.quiet = true := settle_quiet _

/-- A command's end does nothing but record where nothing happened. -/
theorem endCommand_of_quiet {s : State} (h : s.windows.all Window.quiet = true) : s.endCommand = s.recordEnd :=
  settle_of_quiet (by rw [State.recordEnd, record_quiet]; exact h)

/-- `ended` answers next exactly where its outcome does, with the command's end. -/
theorem ended_eq_next {o : Host.Outcome State Fault Refusal} {t : State} :
    ended o = .next t ↔ ∃ u, o = .next u ∧ t = u.endCommand := by
  cases o <;> simp [ended, eq_comm]

theorem settleIfIdle_settles (s : State) : Settles s s.settleIfIdle := by
  unfold State.settleIfIdle
  split
  · exact settle_settles s
  · exact .refl s

theorem settleIfIdle_of_busy {s : State} (h : s.phase ≠ .idle) : s.settleIfIdle = s := by
  rw [State.settleIfIdle, if_neg h]

theorem settleIfIdle_of_quiet {s : State} (h : s.windows.all Window.quiet = true) : s.settleIfIdle = s := by
  rw [State.settleIfIdle, settle_of_quiet h, ite_self]

/-- In a state that meets the invariant nothing is left to settle, after any change of other fields. -/
theorem settleIfIdle_of_inv {s t : State} (h : s.Inv) (hp : t.phase = s.phase) (hw : t.windows = s.windows) :
    t.settleIfIdle = t := by
  by_cases hi : s.phase = .idle
  · have hq := h.2.2.2
    simp only [State.PhaseOk, hi] at hq
    exact settleIfIdle_of_quiet (by rw [hw]; exact hq)
  · exact settleIfIdle_of_busy (by rw [hp]; exact hi)

/-! ## Reset -/

/-- Breaking off a write in progress changes only data memory and draws (R251). -/
theorem breakWrite_eq (s : State) :
    s.breakWrite = { s with mem := s.breakWrite.mem, draws := s.breakWrite.draws } := by
  unfold State.breakWrite
  split
  · rw [State.scramble_eq]
  · rfl

theorem breakWrite_settles (s : State) : Settles s s.breakWrite := by
  unfold State.breakWrite
  split
  · exact scramble_settles s fun a ha => by simpa using (List.mem_filter.1 ha).2
  · exact .refl s

theorem recordAbandoned_settles (s : State) : Settles s s.recordAbandoned := by
  unfold State.recordAbandoned
  split
  · exact record_settles s _
  · exact .refl s

theorem recordAbandoned_quiet (s : State) :
    s.recordAbandoned.windows.all Window.quiet = s.windows.all Window.quiet := by
  unfold State.recordAbandoned
  split
  · exact record_quiet s _
  · rfl

end Sys2Proof.Machine
end

