-- ==== Sys2Proof/Laws/Masters.lean ====
section
/-! SUPPORT. What other agents' accesses to data memory can change (R84, R88, R90). -/

namespace Sys2Proof.Machine

/-- Both parts of the host's caches keep the canonical form. -/
theorem HostCache.Wf.erase {c : HostCache} (h : c.Wf) (a n : Nat) :
    HostCache.Wf ⟨Memory.erase c.clean a n, Memory.erase c.dirty a n⟩ :=
  ⟨Memory.wf_erase h.1 a n, Memory.wf_erase h.2 a n⟩

theorem inSpace_eq_next {a n : Nat} {s t : State} :
    inSpace a n s = .next t ↔ a + n ≤ dataSpaceBytes ∧ t = s := by
  unfold inSpace
  split
  · simp; omega
  · simp [eq_comm]; omega

/-- An access changes at most data memory, the host's caches, draws and the notes in the windows of this engine's and
the other instances' commands; memory and caches keep their canonical form. -/
structure Accesses (s t : State) : Prop where
  frame : t = { s with
    mem := t.mem, hostCache := t.hostCache, draws := t.draws, windows := t.windows, others := t.others }
  mem : Memory.wf s.mem → s.hostCache.Wf → Memory.wf t.mem
  cache : s.hostCache.Wf → t.hostCache.Wf
  words : t.windows.map Window.word = s.windows.map Window.word

theorem Accesses.refl (s : State) : Accesses s s := ⟨rfl, fun h _ => h, id, rfl⟩

theorem Accesses.trans {s t u : State} (h : Accesses s t) (h' : Accesses t u) : Accesses s u :=
  ⟨by rw [h'.frame, h.frame], fun hm hc => h'.mem (h.mem hm hc) (h.cache hc), h'.cache ∘ h.cache,
    h'.words.trans h.words⟩

/-! ## Reads -/

theorem observe_accesses (who : Master) (s : State) (a : Nat) : Accesses s (s.observe who a).2 := by
  unfold State.observe
  split
  · exact ⟨rfl, fun h _ => h, id, rfl⟩
  · exact .refl s

/-- The caches take a copy inside the data space. -/
theorem copy_accesses (s : State) {a : Nat} (ha : a < dataSpaceBytes) (b : Byte) : Accesses s (s.copy a b) :=
  ⟨rfl, fun h _ => h, fun h => ⟨Memory.wf_store h.1 ha b, h.2⟩, rfl⟩

theorem load_accesses (s : State) {a : Nat} (ha : a < dataSpaceBytes) : Accesses s (s.load a).2 := by
  unfold State.load
  split
  · exact observe_accesses .bus s a
  · split
    · exact .refl s
    · exact copy_accesses s ha _

theorem readEach_accesses {byteAt : State → Nat → Byte × State} {as : List Nat}
    (h : ∀ a ∈ as, ∀ s, Accesses s (byteAt s a).2) (s : State) : Accesses s (readEach byteAt as s).2 := by
  induction as generalizing s with
  | nil => exact .refl s
  | cons a as ih =>
    exact (h a (by simp) s).trans (ih (fun b hb => h b (List.mem_cons_of_mem _ hb)) _)

/-- Reads of unwatched addresses give data memory's bytes and change nothing (R84). -/
theorem readEach_observe_of_unwatched {who : Master} {as : List Nat} {s : State}
    (h : ∀ a ∈ as, s.watched who a = false) : readEach (State.observe who) as s = (as.map (Memory.byte s.mem), s) := by
  induction as with
  | nil => rfl
  | cons a as ih =>
    have ho : s.observe who a = (Memory.byte s.mem a, s) := by simp [State.observe, h a (by simp)]
    simp [readEach, ho, ih fun b hb => h b (List.mem_cons_of_mem _ hb)]

/-! ## The host's caches -/

/-- The host sees a copied byte where it holds no stored one. -/
theorem find_copy (s : State) (a x : Nat) (b : Byte) :
    (s.copy a b).hostCache.find x =
      if a = x then some ((Memory.find s.hostCache.dirty x).getD b) else s.hostCache.find x := by
  simp only [State.copy, HostCache.find, Memory.find_store]
  split <;> split <;> simp_all

/-- Loads of unwatched addresses give the host's copies, or data memory's bytes where it holds none (R88); only the
copies change. -/
theorem readEach_load_of_unwatched {as : List Nat} (hn : as.Nodup) {s : State}
    (h : ∀ a ∈ as, s.watched .bus a = false) :
    (readEach State.load as s).1 = as.map (fun a => (s.hostCache.find a).getD (Memory.byte s.mem a)) ∧
      (readEach State.load as s).2 = { s with hostCache := (readEach State.load as s).2.hostCache } := by
  induction as generalizing s with
  | nil => exact ⟨rfl, rfl⟩
  | cons a as ih =>
    obtain ⟨ha, hn⟩ := List.nodup_cons.1 hn
    have hw : ∀ b ∈ as, s.watched .bus b = false := fun b hb => h b (List.mem_cons_of_mem _ hb)
    cases hf : s.hostCache.find a with
    | some b =>
      have hl : s.load a = (b, s) := by simp [State.load, h a (by simp), hf]
      obtain ⟨h1, h2⟩ := ih hn hw
      exact ⟨by simp [readEach, hl, h1, hf], by simpa [readEach, hl] using h2⟩
    | none =>
      have hl : s.load a = (Memory.byte s.mem a, s.copy a (Memory.byte s.mem a)) := by
        simp [State.load, h a (by simp), hf]
      obtain ⟨h1, h2⟩ := ih hn (s := s.copy a (Memory.byte s.mem a)) hw
      refine ⟨?_, ?_⟩
      · simp only [readEach, hl, h1, List.map_cons, hf, Option.getD_none]
        refine congrArg _ (List.map_congr_left fun x hx => ?_)
        have hne : a ≠ x := fun e => ha (by rw [e]; exact hx)
        rw [find_copy, if_neg hne]
        rfl
      · simp only [readEach, hl]
        rw [h2]
        rfl

/-- A fill changes only the copies, and draws for watched bytes. -/
theorem fill_accesses {as : List Nat} (h : ∀ a ∈ as, a < dataSpaceBytes) (s : State) :
    Accesses s (State.fill as s) := by
  induction as generalizing s with
  | nil => exact .refl s
  | cons a as ih =>
    have ht : ∀ b ∈ as, b < dataSpaceBytes := fun b hb => h b (List.mem_cons_of_mem _ hb)
    rw [State.fill]
    split
    · exact ih ht s
    · exact ((observe_accesses .bus s a).trans (copy_accesses _ (h a (by simp)) _)).trans (ih ht _)

theorem putBack_accesses (s : State) {a : Nat} (ha : a < dataSpaceBytes) (b : Byte) : Accesses s (s.putBack a b) :=
  ⟨rfl, fun hm _ => Memory.wf_store hm ha b, fun hc => ⟨Memory.wf_store hc.1 ha b, Memory.wf_erase hc.2 a 1⟩, rfl⟩

@[simp] theorem byte_putBack (s : State) (a x : Nat) (b : Byte) :
    Memory.byte (s.putBack a b).mem x = if a = x then b else Memory.byte s.mem x := Memory.byte_store _ _ _ _

@[simp] theorem dirty_putBack (s : State) (a x : Nat) (b : Byte) :
    Memory.find (s.putBack a b).hostCache.dirty x = if a = x then none else Memory.find s.hostCache.dirty x := by
  simp only [State.putBack, Memory.find_erase]
  split <;> split <;> first | rfl | omega

/-- A write back changes only data memory and the copies. -/
theorem writeBack_accesses {as : List Nat} (h : ∀ a ∈ as, a < dataSpaceBytes) (s : State) :
    Accesses s (State.writeBack as s) := by
  induction as generalizing s with
  | nil => exact .refl s
  | cons a as ih =>
    have ht : ∀ b ∈ as, b < dataSpaceBytes := fun b hb => h b (List.mem_cons_of_mem _ hb)
    rw [State.writeBack]
    split
    · exact ih ht s
    · exact (putBack_accesses s (h a (by simp)) _).trans (ih ht _)

theorem writeBack_frame (as : List Nat) (s : State) :
    State.writeBack as s =
      { s with mem := (State.writeBack as s).mem, hostCache := (State.writeBack as s).hostCache } := by
  induction as generalizing s with
  | nil => rfl
  | cons a as ih =>
    rw [State.writeBack]
    split
    · exact ih s
    · rw [ih]; rfl

/-- After a write back of a range, data memory holds the host's stored bytes in it, and every other byte as before
(R88). -/
theorem byte_writeBack {as : List Nat} (hn : as.Nodup) (s : State) (x : Nat) :
    Memory.byte (State.writeBack as s).mem x =
      if x ∈ as then (Memory.find s.hostCache.dirty x).getD (Memory.byte s.mem x) else Memory.byte s.mem x := by
  induction as generalizing s with
  | nil => simp [State.writeBack]
  | cons a as ih =>
    obtain ⟨ha, htail⟩ := List.nodup_cons.1 hn
    by_cases hx : x = a
    · subst hx
      rw [State.writeBack]
      split <;> rename_i hf <;> simp [ih htail, ha, hf]
    · rw [State.writeBack]
      split <;> simp [ih htail, hx, Ne.symm hx]

/-! ## What the inputs add -/

theorem mem_addresses_lt {a n x : Nat} (h : a + n ≤ dataSpaceBytes) (hx : x ∈ addresses a n) : x < dataSpaceBytes := by
  rw [mem_addresses] at hx; omega

/-- Notes that leave every window its command are an access's. -/
theorem noteFor_accesses (s : State) (who : Master) {note : Window → Window} (h : ∀ w, (note w).word = w.word) :
    Accesses s (s.noteFor who note) :=
  ⟨rfl, fun hm _ => hm, id, by simp [State.noteFor, Function.comp_def, h]⟩

theorem noteReads_accesses (s : State) (who : Master) (as : List Nat) : Accesses s (s.noteReads who as) :=
  noteFor_accesses s who fun _ => rfl

theorem noteWrites_accesses (s : State) (who : Master) (as : List Nat) : Accesses s (s.noteWrites who as) :=
  noteFor_accesses s who fun _ => rfl

theorem scramble_accesses {s : State} {as : List Nat} (h : ∀ a ∈ as, a < dataSpaceBytes) :
    Accesses s (State.scramble as s) := by
  refine ⟨?_, fun hm _ => State.scramble_wf hm h, ?_, ?_⟩ <;> rw [State.scramble_eq]
  exact id

theorem spoils_of_unwatched {s : State} {who : Master} {a : Nat} (h : s.watched who a = false) :
    s.spoils who a = false := by
  cases who with
  | bus =>
    have h2 := (Bool.or_eq_false_iff.1 h).2
    simp only [State.spoils, List.any_eq_false] at h2 ⊢
    intro o ho hd
    exact h2 o ho (by simp [OtherCommand.forbids, Window.watches, hd])
  | engine k => exact h

/-- A write of unwatched addresses leaves nothing else to do, in a state that meets the invariant but for memory and
the host's caches. -/
theorem afterWrites_of_unwatched {s t : State} {who : Master} {as : List Nat} (hi : s.Inv) (hp : t.phase = s.phase)
    (hw : t.windows = s.windows) (h : ∀ a ∈ as, t.watched who a = false) : t.afterWrites who as = t := by
  have hs : as.filter (t.spoils who) = [] :=
    List.filter_eq_nil_iff.2 fun a ha => by simp [spoils_of_unwatched (h a ha)]
  rw [State.afterWrites, hs, State.scramble, noteWrites_of_unwatched h, settleIfIdle_of_inv hi hp hw]

/-! ## The commands of the other engine instances -/

/-- The end of another instance's commands changes only data memory, draws and the list of open commands (R90). -/
theorem otherEnds_eq (k : Nat) (s : State) :
    otherEnds k s = { s with
      others := s.others.filter fun o => decide (o.owner ≠ k)
      mem := (otherEnds k s).mem, draws := (otherEnds k s).draws } := by
  rw [otherEnds, State.scramble_eq]

/-- Memory keeps its canonical form at the end of another instance's commands. -/
theorem otherEnds_wf (k : Nat) {s : State} (h : Memory.wf s.mem) : Memory.wf (otherEnds k s).mem :=
  State.scramble_wf (s := { s with others := _ }) h fun a ha => by simpa using (List.mem_filter.1 ha).2

/-- Commands in whose windows nothing was noted have made nothing of races. -/
theorem affectedBy_of_quiet (replaced : Window → Region) {ws : List Window} (h : ws.all Window.quiet = true) :
    affectedBy replaced ws = ⟨[], [], false⟩ := by
  induction ws with
  | nil => rfl
  | cons w ws ih =>
    simp only [List.all_cons, Bool.and_eq_true, Window.quiet, List.isEmpty_iff, Bool.not_eq_true'] at h
    obtain ⟨⟨⟨h1, h2⟩, h3⟩, hs⟩ := h
    have hb := ih (by simpa [Window.quiet] using hs)
    have hf : w.flow (replaced w) ⟨[], [], false⟩ = ⟨[], [], false⟩ := by
      simp only [Window.flow, h1, h2, h3, List.append_nil, List.filter_nil, List.map_nil, List.isEmpty_nil]
      cases decodeWord w.word with
      | error e => simp
      | ok i => cases i <;> simp
    simp only [affectedBy, List.foldr_cons] at hb ⊢
    rw [hb, hf]

/-- Where no race was noted, the end of another instance's commands changes no byte (R84). -/
theorem otherEnds_of_quiet {k : Nat} {s : State} (h : (s.commandsOf k).all Window.quiet = true) :
    otherEnds k s = { s with others := s.others.filter fun o => decide (o.owner ≠ k) } := by
  rw [otherEnds, State.affectedOf, affectedBy_of_quiet _ h]
  rfl

/-- A byte of its destination in which an open command of instance `k` has a race stays affected, whatever `k` has
accepted since (R90, U4). -/
theorem mem_affectedBy_of_race {ws : List Window} {w : Window} {a : Nat} (hw : w ∈ ws)
    (ha : a ∈ (w.readRaces.filter (inRegion w.progress.written)) ++ w.writeRaces.filter (inRegion w.dst)) :
    a ∈ (affectedBy (fun _ => ⟨0, 0⟩) ws).mem := by
  induction ws with
  | nil => exact absurd hw (List.not_mem_nil)
  | cons v ws ih =>
    simp only [affectedBy, List.foldr_cons] at ih ⊢
    rcases List.mem_cons.1 hw with rfl | hw
    · simp only [Window.flow, List.mem_append, List.mem_filter] at ha ⊢
      tauto
    · have hb := ih hw
      simp only [Window.flow, List.mem_append, List.mem_filter]
      exact .inl (.inl ⟨hb, by simp [inRegion]⟩)

end Sys2Proof.Machine
end

