-- ==== Sys2Proof/Laws/PerInstr.lean ====
section
/-! SUPPORT. What is said of each command as syntax, one lemma per constructor. -/

namespace Sys2Proof.Laws.CommandWord

/-- R101, R103: the command's word has a zero reserved field, its opcode in [7:0], and is well formed, and the decoder
reads the command back from the word as the opcode table numbers it. -/
def Statement (i : Instr) : Prop :=
  (encode i).extractLsb' 8 24 = 0 ∧ (encode i).extractLsb' 0 8 = opcode i ∧ wellFormedWord (encode i) = true ∧
    decodeTableWord 32 (encode i).toNat = some i

theorem nop : Statement .nop := by unfold Statement; decide

theorem initCb : Statement .initCb := by unfold Statement; decide

theorem encodeIdx : Statement .encodeIdx := by unfold Statement; decide

theorem genKs : Statement .genKs := by unfold Statement; decide

theorem hdrLoad : Statement .hdrLoad := by unfold Statement; decide

theorem hdrStore : Statement .hdrStore := by unfold Statement; decide

theorem encrypt : Statement .encrypt := by unfold Statement; decide

theorem decrypt : Statement .decrypt := by unfold Statement; decide

end Sys2Proof.Laws.CommandWord
end

