-- ==== Sys2Proof/Tests/Slice0.lean ====
section
/-! SUPPORT. Tests: ill-formed terms that the checks refuse, words written out from the opcode map, the spec's vectors
(95_test_vectors.md) one step each, and for every statement with hypotheses a state that meets them. -/

namespace Sys2Proof.Tests

open Sys2Proof.Machine

/-! ## Well-formedness: each check refuses an ill-formed term (R80, R101, R103, R105) -/

theorem test_wf_reserved_bit : wellFormedWord 0x00000110 = false ∧ reservedZero 0x00000110 = false := by decide

theorem test_wf_top_reserved_bit : wellFormedWord 0x80000010 = false ∧ reservedZero 0x80000010 = false := by decide

theorem test_wf_unassigned_opcode : wellFormedWord 0x00000006 = false ∧ opcodeAssigned 0x00000006 = false := by decide

theorem test_wf_map_words :
    [0x00, 0x01, 0x02, 0x03, 0x04, 0x05, 0x10, 0x11].all (fun n => wellFormedWord (BitVec.ofNat 32 n)) = true := by
  decide

theorem test_wf_command : Instr.wellFormed .decrypt = true := by decide

theorem test_wf_transaction_width :
    wellFormedTransaction 0x10 2 = false ∧ wellFormedTransaction 0x10 8 = false ∧ wellFormedTransaction 0x10 4 = true := by
  decide

theorem test_wf_transaction_alignment : wellFormedTransaction 0x11 4 = false ∧ wellFormedTransaction 0x12 4 = false := by
  decide

theorem test_wf_transaction_window : wellFormedTransaction 256 4 = false ∧ wellFormedTransaction 252 4 = true := by
  decide

/-! ## Decoding: the words of 30_encoding.md section 2, bit for bit (RSVD ++ OPCODE), and R105 -/

theorem test_decode_nop : decodeWord ((0b000000000000000000000000 : BitVec 24) ++ (0b00000000 : BitVec 8)) = .ok .nop := by
  decide

theorem test_decode_initCb :
    decodeWord ((0b000000000000000000000000 : BitVec 24) ++ (0b00000001 : BitVec 8)) = .ok .initCb := by decide

theorem test_decode_encodeIdx :
    decodeWord ((0b000000000000000000000000 : BitVec 24) ++ (0b00000010 : BitVec 8)) = .ok .encodeIdx := by decide

theorem test_decode_genKs :
    decodeWord ((0b000000000000000000000000 : BitVec 24) ++ (0b00000011 : BitVec 8)) = .ok .genKs := by decide

theorem test_decode_hdrLoad :
    decodeWord ((0b000000000000000000000000 : BitVec 24) ++ (0b00000100 : BitVec 8)) = .ok .hdrLoad := by decide

theorem test_decode_hdrStore :
    decodeWord ((0b000000000000000000000000 : BitVec 24) ++ (0b00000101 : BitVec 8)) = .ok .hdrStore := by decide

theorem test_decode_encrypt :
    decodeWord ((0b000000000000000000000000 : BitVec 24) ++ (0b00010000 : BitVec 8)) = .ok .encrypt := by decide

theorem test_decode_decrypt :
    decodeWord ((0b000000000000000000000000 : BitVec 24) ++ (0b00010001 : BitVec 8)) = .ok .decrypt := by decide

/-- The last assigned opcodes' neighbours (R105): 0x0F, 0x12 and 0xFF are reserved. -/
theorem test_decode_reserved :
    decodeWord 0x0F = .error .reservedOpcode ∧ decodeWord 0x12 = .error .reservedOpcode ∧
    decodeWord 0xFF = .error .reservedOpcode ∧ decodeWord 0x0F000010 = .error .reservedField := by decide

theorem test_decode_truncated : decode [0x10, 0x00, 0x00] = .error .truncated := by decide

theorem test_decode_keeps_rest : decode [0x11, 0x00, 0x00, 0x00, 0xAA] = .ok (.decrypt, [0xAA]) := by decide

/-! ## Functions of the codec: tables V1 to V4 -/

theorem test_shift_and_sequence_word :
    (shiftOf false 0xFFFFFFFFFFFFFFFF = 8 ∧ seqWord false 0xFFFFFFFFFFFFFFFF = 0) ∧
    (shiftOf true 0 = 64 ∧ seqWord true 0 = 0) ∧ (shiftOf true 1 = 63 ∧ seqWord true 1 = 0) ∧
    (shiftOf true 0x400 = 53 ∧ seqWord true 0x400 = 0) ∧
    (shiftOf true 0xFFFFFFFF = 32 ∧ seqWord true 0xFFFFFFFF = 0) ∧
    (shiftOf true 0x100000000 = 31 ∧ seqWord true 0x100000000 = 2) ∧
    (shiftOf true 0x1FFFFFFFF = 31 ∧ seqWord true 0x1FFFFFFFF = 3) ∧
    (shiftOf true 0x123456789ABCD = 15 ∧ seqWord true 0x123456789ABCD = 0x468ACF13) ∧
    (shiftOf true 0x8000000000000000 = 0 ∧ seqWord true 0x8000000000000000 = 0) ∧
    (shiftOf true 0x8000000012345678 = 0 ∧ seqWord true 0x8000000012345678 = 0x12345678) ∧
    (shiftOf true 0xFFFFFFFFFFFFFFFF = 0 ∧ seqWord true 0xFFFFFFFFFFFFFFFF = 0xFFFFFFFF) := by decide

theorem test_nonce_packing :
    packNonce 1700000000123 0xBEEF = #v[0x7B, 0x00, 0xEF, 0xBE, 0x00, 0xF1, 0x53, 0x65] ∧
    packNonce 999 0xFFFF = #v[0xE7, 0x03, 0xFF, 0xFF, 0x00, 0x00, 0x00, 0x00] ∧
    packNonce 1000 0 = #v[0x00, 0x00, 0x00, 0x00, 0x01, 0x00, 0x00, 0x00] ∧
    packNonce 4294967296000 0 = zeroBytes 8 ∧
    packNonce 0xFFFFFFFFFFFFFFFF 0 = #v[0x67, 0x02, 0x00, 0x00, 0xEF, 0xA7, 0xC6, 0x4B] := by decide

theorem test_counter_packing :
    encodeCounter 5 true 0x100000000 = #v[0x00, 0x00, 0x00, 0x02, 0x00, 0x00, 0x00, 0x05] ∧
    encodeCounter 0x01020304 false 7 = #v[0x00, 0x00, 0x00, 0x00, 0x01, 0x02, 0x03, 0x04] ∧
    encodeCounter 0xFFFFFFFF false 0 = #v[0x00, 0x00, 0x00, 0x00, 0xFF, 0xFF, 0xFF, 0xFF] ∧
    encodeCounter 5 true 0x123456789ABCD = #v[0x46, 0x8A, 0xCF, 0x13, 0x00, 0x00, 0x00, 0x05] := by decide

theorem test_block_functions :
    blockCount 0 = 0 ∧ (blockCount 1 = 1 ∧ blockLen 1 0 = 1) ∧ (blockCount 16 = 1 ∧ blockLen 16 0 = 16) ∧
    (blockCount 17 = 2 ∧ blockLen 17 1 = 1) ∧ (blockCount 33 = 3 ∧ blockLen 33 2 = 1) ∧
    (blockCount 1000 = 63 ∧ blockLen 1000 62 = 8) ∧
    (blockCount (2 ^ 32 - 9) = 2 ^ 28 ∧ blockLen (2 ^ 32 - 9) (2 ^ 28 - 1) = 7) := by decide

/-- R170: byte i of a block travels on bits [8i+7:8i]. -/
theorem test_cipher_port_lanes :
    let b : Block := #v[0x10, 0x11, 0x12, 0x13, 0x14, 0x15, 0x16, 0x17, 0x18, 0x19, 0x1A, 0x1B, 0x1C, 0x1D, 0x1E, 0x1F]
    portData b = 0x1F1E1D1C1B1A19181716151413121110 ∧ portBlock (portData b) = b := by decide

/-! ## States for the tests -/

/-- The state a step gives, or the reset state where it gives none. -/
def result : Host.Outcome State Fault Refusal → State
  | .next s => s
  | _ => State.reset

/-- Data memory in which just these bytes have been written. -/
def bytesAt (a : Nat) (bs : List Byte) : Memory := Memory.storeBytes [] a bs

/-- P17 of 95_test_vectors.md. -/
def p17 : List Byte :=
  [0x48, 0x65, 0x6C, 0x6C, 0x6F, 0x2C, 0x20, 0x43, 0x54, 0x52, 0x20, 0x77, 0x6F, 0x72, 0x6C, 0x64, 0x21]

/-- H0 of 95_test_vectors.md. -/
def h0 : Half := #v[0x7B, 0x00, 0xEF, 0xBE, 0x00, 0xF1, 0x53, 0x65]

/-- The common inputs of 95_test_vectors.md: cipher ID, KEY_BITS 128, NONCE, NONCE_RND, P17 at 0x1000, to 0x2000. -/
def engine : State :=
  { State.reset with
    cipher := .identity, keyBits := 128, nonceLo := 0xCFE5687B, nonceHi := 0x18B, nonceRnd := 0xBEEF
    srcAddr := 0x1000, dstAddr := 0x2000, len := 17, mem := bytesAt 0x1000 p17 }

/-- The output of V7.5. -/
def v75 : List Byte :=
  [0x7B, 0x00, 0xEF, 0xBE, 0x00, 0xF1, 0x53, 0x65, 0x33, 0x65, 0x83, 0xD2, 0x6F, 0xDD, 0x73, 0x26, 0x54, 0x52, 0x20,
    0x77, 0x6F, 0x72, 0x6C, 0x64, 0x5A]

/-- An engine with an accepted ENCRYPT at its first action. -/
def running : State := engine.accept 0x10

/-- The platform of V11: [0x2010, 0x2020) does not answer. -/
def deadRange : Platform := ⟨0, [⟨0x2010, 16⟩], [], true, 1⟩

/-- A platform that does not keep the host's caches coherent. -/
def cached : State := { engine with platform := ⟨0, [], [], false, 1⟩ }

/-- The state with these inputs to come. -/
def offer (s : State) (es : List Event) : State := { s with events := es }

/-- One step on a command word. -/
def run (s : State) (w : Word) : State := result (step (offer s [.command w]))

/-! ## The spec's vectors, one step each -/

/-- R137's example: from STATUS 0x204, NOP then STATUS reads 2. -/
theorem test_nop_clears_stale_error : (run { engine with status := ⟨false, true, false, 2⟩ } 0).statusWord = 2 := by
  decide

/-- NOP keeps OVR (R137). -/
theorem test_nop_keeps_ovr : (run { engine with status := ⟨true, false, true, 0⟩ } 0).statusWord = 0xA := by decide

/-- V10.10, V10.11. -/
theorem test_illegal_words : (run engine 0x110).statusWord = 0x104 ∧ (run engine 0x06).statusWord = 0x104 := by decide

/-- V5.1. -/
theorem test_initCb_V5_1 :
    (run { engine with cb := ⟨zeroBytes 8, zeroBytes 8⟩ } 0x01).cb = ⟨h0, zeroBytes 8⟩ ∧
    (run engine 0x01).statusWord = 2 := by decide

/-- V5.1's readback: CB0 and CB1. -/
theorem test_initCb_readback :
    (run engine 0x01).regValue (.cb 0) = 0xBEEF007B ∧ (run engine 0x01).regValue (.cb 1) = 0x6553F100 := by decide

/-- V5.2. -/
theorem test_encodeIdx_V5_2 :
    let s := run { engine with
      ctrl := ⟨true, false⟩, seqHi := 0x80000000, seqLo := 0x12345678, idx := 0x01020304, cb := ⟨h0, zeroBytes 8⟩ } 0x02
    s.cb.header = h0 ∧ s.regValue (.cb 2) = 0x78563412 ∧ s.regValue (.cb 3) = 0x04030201 ∧ s.regValue .shift = 0 ∧
      s.regValue .idx = 0x01020304 := by decide

/-- V5.3. -/
theorem test_encodeIdx_V5_3 :
    let s := run { engine with seqHi := 0x80000000, seqLo := 0x12345678, idx := 0x01020304 } 0x02
    s.regValue (.cb 2) = 0 ∧ s.regValue (.cb 3) = 0x04030201 ∧ s.regValue .shift = 8 := by decide

/-- V6.1. -/
theorem test_genKs_V6_1 :
    let s := run { engine with cb := ⟨h0, #v[0, 0, 0, 0, 0, 0, 0, 1]⟩ } 0x03
    s.regValue (.ks 0) = 0xBEEF007B ∧ s.regValue (.ks 1) = 0x6553F100 ∧ s.regValue (.ks 2) = 0 ∧
      s.regValue (.ks 3) = 0x01000000 ∧ s.statusWord = 2 := by decide

/-- V6.2: KS is kept. -/
theorem test_genKs_V6_2 :
    let s := run { engine with keyBits := 0, ks := Vector.replicate 16 0x5A } 0x03
    s.statusWord = 0x204 ∧ s.ks = Vector.replicate 16 0x5A := by decide

/-- V12.2. -/
theorem test_hdrLoad_V12_2 :
    let s := run { engine with
      srcAddr := 0x5000, mem := bytesAt 0x5000 [0x11, 0x22, 0x33, 0x44, 0x55, 0x66, 0x77, 0x88] } 0x04
    s.regValue (.cb 0) = 0x44332211 ∧ s.regValue (.cb 1) = 0x88776655 ∧ s.statusWord = 2 := by decide

/-- V11.3: a bus error in the read; CB is unchanged. -/
theorem test_hdrLoad_V11_3 :
    let s := run { engine with srcAddr := 0x200C, platform := deadRange, cb := ⟨h0, h0⟩ } 0x04
    s.statusWord = 0x604 ∧ s.cb = ⟨h0, h0⟩ := by decide

/-- V12.1. -/
theorem test_hdrStore_V12_1 :
    let s := run { engine with dstAddr := 0x4000, cb := ⟨h0, zeroBytes 8⟩ } 0x05
    Memory.bytes s.mem 0x4000 8 = [0x7B, 0x00, 0xEF, 0xBE, 0x00, 0xF1, 0x53, 0x65] ∧ s.statusWord = 2 := by decide

/-- V10.13 and the address after it. -/
theorem test_hdrStore_V10_13 :
    (run { engine with dstAddr := 0xFFFFFFF8 } 0x05).statusWord = 2 ∧
    (run { engine with dstAddr := 0xFFFFFFF9 } 0x05).statusWord = 0x404 := by decide

/-- V7.5. -/
theorem test_encrypt_V7_5 :
    let s := run engine 0x10
    Memory.bytes s.mem 0x2000 25 = v75 ∧ s.outLen = 25 ∧ s.idx = 2 ∧ s.statusWord = 2 ∧ s.ks = zeroBytes 16 ∧
      s.cb = ⟨h0, #v[0, 0, 0, 0, 0, 0, 0, 1]⟩ := by decide

/-- V11: a bus error at block 0's write; the header stays, and 0x2018 is not written. -/
theorem test_encrypt_V11 :
    let s := run { engine with keyBits := 192, platform := deadRange } 0x10
    Memory.bytes s.mem 0x2000 8 = h0.toList ∧ Memory.find s.mem 0x2018 = none ∧ s.statusWord = 0x604 ∧ s.outLen = 0 ∧
      s.idx = 0 ∧ s.ks = zeroBytes 16 ∧ s.cb = ⟨h0, zeroBytes 8⟩ := by decide

/-- V8.1. -/
theorem test_decrypt_V8_1 :
    let s := run { engine with len := 25, mem := bytesAt 0x1000 v75 } 0x11
    Memory.bytes s.mem 0x2000 17 = p17 ∧ s.outLen = 17 ∧ s.idx = 2 ∧ s.statusWord = 2 := by decide

/-- V10.2, V10.3, V10.4, V10.6. -/
theorem test_decrypt_errors :
    (run { engine with keyBits := 100, len := 3 } 0x11).statusWord = 0x204 ∧
    (run { engine with keyBits := 256, len := 3 } 0x11).statusWord = 0x304 ∧
    (run { engine with srcAddr := 0xFFFFFFF8, len := 9 } 0x11).statusWord = 0x404 ∧
    (run { engine with keyBits := 256, srcAddr := 0x100, dstAddr := 0x104, len := 16 } 0x11).statusWord = 0x504 := by
  decide

/-! ## The register port -/

/-- V10.14, V10.15. -/
theorem test_status_write_clears :
    (result (step (offer { engine with status := ⟨false, true, false, 1⟩ } [.hostWrite 0x04 4 4]))).statusWord = 0 ∧
    (result (step (offer { engine with status := ⟨false, true, false, 2⟩ } [.hostWrite 0x04 4 2]))).statusWord = 0x204 := by
  decide

/-- V10.16: the first half. -/
theorem test_write_while_busy :
    let s := result (step (offer running [.hostWrite 0x18 4 5]))
    s.len = 17 ∧ s.statusWord = 0x9 := by decide

/-- V5.4: SHIFT after reset and for a supplied sequence 0. -/
theorem test_shift_readback :
    (result (step (offer State.reset [.hostRead 0x34 4]))).response = some 8 ∧
    (result (step (offer { State.reset with ctrl := ⟨true, false⟩ } [.hostRead 0x34 4]))).response = some 0x40 := by
  decide

/-- NONCE_RND and CTRL keep only their fields (R33, R42). -/
theorem test_reserved_fields_ignored :
    (result (step (offer engine [.hostWrite 0x28 4 0xFFFF1234]))).regValue .nonceRnd = 0x1234 ∧
    (result (step (offer engine [.hostWrite 0x00 4 0xFFFFFFFE]))).regValue .ctrl = 2 := by decide

/-- V10.17, V10.18, V10.19. -/
theorem test_irq :
    ({ engine with ctrl := ⟨false, true⟩, status := ⟨true, false, false, 0⟩ } : State).irq = true ∧
    ({ engine with ctrl := ⟨false, true⟩, status := ⟨false, true, false, 2⟩ } : State).irq = true ∧
    ({ engine with ctrl := ⟨false, true⟩, status := ⟨false, false, true, 0⟩ } : State).irq = false ∧
    ({ engine with ctrl := ⟨false, false⟩, status := ⟨true, false, false, 0⟩ } : State).irq = false := by decide

/-- R108, R109: the transactions of two pseudo-operations. -/
theorem test_script_expansion :
    expandScript 0 [.cmd .encrypt, .wr64Nonce 1700000000123, .clr] =
      [.hostWrite 0x08 4 0x10, .hostWrite 0x20 4 0xCFE5687B, .hostWrite 0x24 4 0x18B, .hostWrite 0x04 4 0xE] := by
  decide

/-! ## The action list, one move each -/

/-- R174: A0 passes to A1. -/
theorem test_move_checks : (result (step running)).phase = .busy ⟨0x10, .a1, 0, [], none⟩ := by decide

/-- R174: A1 sets the header, and A2 is next. -/
theorem test_move_header :
    let s := result (step { running with phase := .busy ⟨0x10, .a1, 0, [], none⟩ })
    s.cb.header = h0 ∧ s.phase = .busy ⟨0x10, .a2, 0, [], none⟩ := by decide

/-- R251: reset abandons the command; a read in progress leaves memory alone. -/
theorem test_reset_while_busy :
    let s := result (step (offer { running with phase := .busy ⟨0x11, .a2, 0, [], some (.read 0x1000 8)⟩ } [.reset]))
    s.phase = .idle ∧ s.statusWord = 0 ∧ s.keyBits = 0 ∧ s.mem = engine.mem ∧ s.cipher = .identity := by decide

/-- R251: a late cipher response is ignored. -/
theorem test_stale_response :
    (result (step (offer engine [.staleCipherResponse (Vector.replicate 16 0xFF)]))).ks = zeroBytes 16 := by decide

/-- 10_state.md section 2: the offsets of KEY_BITS, OUT_LEN and NONCE_RND, and of CB0 and KS3 (R46, R47, V5.1, V6.1). -/
theorem test_read_offsets :
    let s : State := { engine with outLen := 25, cb := ⟨h0, zeroBytes 8⟩, ks := #v[0, 0, 0, 0, 0, 0, 0, 0, 0, 0, 0, 0, 0, 0, 0, 1] }
    let read := fun offset => (result (step (offer s [.hostRead offset 4]))).response
    read 0x0C = some 128 ∧ read 0x1C = some 25 ∧ read 0x28 = some 0xBEEF ∧ read 0x40 = some 0xBEEF007B ∧
      read 0x5C = some 0x01000000 := by decide

/-- Log 10: a load in a command's ranges keeps no copy, a fill does. -/
theorem test_watched_load_keeps_no_copy :
    let s := cached.accept 0x10
    (result (step (offer s [.hostLoad 0x1000 1]))).hostCache.find 0x1000 = none ∧
    ((result (step (offer s [.hostCache .fill 0x1000 1]))).hostCache.find 0x1000).isSome = true := by decide

/-! ## Other agents, races and caches -/

/-- R84: what the host wrote to IDX is read back, also before a STATUS read. -/
theorem test_idx_write_reads_back :
    let s := result (step (offer (run engine 0x01) [.hostWrite 0x38 4 7]))
    s.windows ≠ [] ∧ (result (step (offer s [.hostRead 0x38 4]))).response = some 7 := by decide

/-- R171: a GEN_KS that ends with KEYSIZE keeps KS, also where the key changed while it ran. -/
theorem test_key_change_then_keysize :
    let s := result (step (offer ({ engine with keyBits := 0, ks := Vector.replicate 16 0x5A }.accept 0x03)
      [.programCipher (.device 1)]))
    (result (step s)).ks = Vector.replicate 16 0x5A ∧ (result (step s)).statusWord = 0x204 := by decide

/-- R155: INIT_CB replaces a header that a race has made unspecified. -/
theorem test_initCb_after_race :
    let s := result (step (offer (run engine 0x04) [.masterWrite .bus 0x1000 [1]]))
    (run s 0x01).cb.header = h0 := by decide

/-- R251: reset after a race leaves the bytes that the command had not written. -/
theorem test_reset_after_race :
    let s := result (step (offer running [.masterWrite .bus 0x1000 [0x48]]))
    (result (step (offer s [.reset]))).mem = engine.mem := by decide

/-- R174, R256: a race on a source byte after a run that a bus error ended frees no byte past the failing block. -/
theorem test_race_after_bus_error :
    let s := result (step (offer (run { engine with platform := deadRange } 0x10) [.masterWrite .bus 0x1000 [0x48]]))
    Memory.find s.mem 0x2018 = none ∧ Memory.bytes s.mem 0x2000 8 = h0.toList := by decide

/-- R88: without coherence the source must be written back before the engine sees it. -/
theorem test_store_needs_write_back :
    let s := result (step (offer cached [.hostStore 0x3000 [0xAB]]))
    Memory.find s.mem 0x3000 = none ∧
    Memory.byte (result (step (offer s [.hostCache .writeBack 0x3000 1]))).mem 0x3000 = 0xAB := by decide

/-- A platform with a second engine instance, whose command writes the first source byte of this engine's command. -/
def shared : State :=
  otherAccepts 1 0x05 ⟨0, 0⟩ ⟨0x0FF9, 8⟩ { engine with platform := ⟨0, [], [], true, 3⟩ }

/-- R90: on overlapping ranges the byte made from the overlap is free, and no other byte. -/
theorem test_overlapping_instances :
    let s := run shared 0x10
    s.draws = 1 ∧ Memory.bytes s.mem 0x2000 8 = h0.toList ∧ Memory.bytes s.mem 0x2009 16 = v75.drop 9 ∧
      s.statusWord = 2 := by decide

/-- R90: the same where the other command is accepted while this one runs; once it is over, nothing is free. -/
theorem test_overlap_while_running :
    let s := offer { running with platform := shared.platform } [.otherAccepts 1 0x10 ⟨0x1000, 1⟩ ⟨0x2017, 9⟩]
    ((result (step s)).windows.map fun w => (w.readRaces, w.writeRaces)) = [([0x1000], [0x2017, 0x2018])] ∧
    (run (result (step (offer shared [.otherEnds 1]))) 0x10).draws = 0 := by decide

/-- R90, U4: the race stands in the other command's window too, so that its byte in the overlap is free at its end, also
when it wrote it after this engine's window was closed; its other bytes are as it wrote them. -/
theorem test_overlap_outlives_this_window :
    let s := result (step (offer (run shared 0x10) [.hostRead 4 4]))
    let t := result (step (offer s [.masterWrite (.engine 1) 0x0FFF [0xAA, 0xBB]]))
    let u := result (step (offer t [.otherEnds 1]))
    s.windows = [] ∧ Memory.bytes t.mem 0x0FFF 2 = [0xAA, 0xBB] ∧ u.draws = 2 ∧
      Memory.find u.mem 0x0FFF = some 0xAA ∧ Memory.find u.mem 0x1000 = some (Config.freeByte 1) := by
  refine ⟨by decide, by decide, by decide, by decide, by rfl⟩

/-- R90: the race also stays where the other instance has accepted a later command with that destination, which a bus
error or a reset may keep from writing it. -/
theorem test_overlap_outlives_a_later_command :
    let s := result (step (offer (run shared 0x10) [.hostRead 4 4]))
    let t := result (step (offer s [.masterWrite (.engine 1) 0x1000 [0xBB]]))
    let u := otherEnds 1 (otherAccepts 1 0x05 ⟨0, 0⟩ ⟨0x0FF9, 8⟩ t)
    u.others = [] ∧ Memory.find u.mem 0x1000 = some (Config.freeByte 1) := by
  refine ⟨by decide, by rfl⟩

/-- R90: the same for two other instances, after one has ended; a body byte made from a raced source byte is free. -/
theorem test_other_instances_race :
    let s := result (step (offer shared [.otherAccepts 2 0x10 ⟨0x1000, 2⟩ ⟨0x4000, 10⟩]))
    let t := result (step (offer (otherEnds 1 s) [.masterWrite (.engine 2) 0x4008 [1, 2]]))
    let u := result (step (offer t [.otherEnds 2]))
    (otherEnds 1 s).draws = 1 ∧ u.draws = 2 ∧ Memory.find u.mem 0x4009 = some 2 ∧
      Memory.find u.mem 0x4008 = some (Config.freeByte 1) :=
  ⟨by decide, by decide, by decide, rfl⟩

/-- R84, log 10: a host store that stays in its cache leaves another instance's destination byte unspecified. -/
theorem test_cached_store_into_other_destination :
    let s := result (step (offer { shared with platform := ⟨0, [], [], false, 2⟩ } [.hostStore 0x0FF9 [0xCC]]))
    s.hostCache.find 0x0FF9 = some 0xCC ∧ Memory.find s.mem 0x0FF9 = some (Config.freeByte 0) := ⟨by decide, rfl⟩

/-- R90: an engine instance that the platform does not have does nothing. -/
theorem test_absent_instance :
    (result (step (offer engine [.masterWrite (.engine 1) 0x1000 [0xFF]]))).mem = engine.mem := by decide

/-! ## States that meet the hypotheses of the statements

One theorem for each statement that has hypotheses; a clause of its own has its own conjunct, at the ends of its
range. -/

/-- A command word waits and the engine is idle. -/
def offered (w : Word) : State := offer engine [.command w]

theorem no_copies_wf : HostCache.Wf ⟨[], []⟩ := by unfold HostCache.Wf; decide

/-- An idle engine that meets the invariant. -/
theorem engine_inv (es : List Event) : (offer engine es).Inv := by
  have h : Memory.wf (bytesAt 0x1000 p17) := by decide
  refine ⟨h, no_copies_wf, ?_, ?_⟩
  · simp [Status.Consistent, offer, engine, State.reset]
  · simp [State.PhaseOk, offer, engine, State.reset]

/-- A running engine that meets the invariant. -/
theorem running_inv (es : List Event) : (offer running es).Inv := by
  have h : Memory.wf (bytesAt 0x1000 p17) := by decide
  refine ⟨h, no_copies_wf, ?_, ?_⟩
  · simp [Status.Consistent, offer, running, State.accept, Status.accepted, engine, State.reset]
  · simp [State.PhaseOk, Running.Legal, offer, running, State.accept, Status.accepted, engine, State.reset,
      State.newWindow]

theorem test_meets_DecodeAndEncodeAgree : decodeWord 0x11 = .ok .decrypt := by decide

theorem test_meets_StepRunsDecodedCommand :
    (offered 0x10).events = [.command 0x10] ∧ (offered 0x10).phase = .idle ∧ decodeWord 0x10 = .ok .encrypt := by decide

theorem test_meets_CmdWriteWhileIdleIsAccepted :
    let s := offer engine [.hostWrite (0 + 0x08) 4 0x10]
    s.events = .hostWrite (s.platform.regBase + 0x08) 4 0x10 :: [] ∧ s.phase = .idle := by decide

theorem test_meets_CmdWriteWhileBusyIsDropped :
    let s := offer running [.hostWrite (0 + 0x08) 4 0x01]
    let s' := offer running [.command 0x01]
    (s.events = .hostWrite (s.platform.regBase + 0x08) 4 0x01 :: [] ∧ s.phase ≠ .idle) ∧
    s'.events = .command 0x01 :: [] ∧ s'.phase ≠ .idle := by decide

theorem test_meets_IllegalWordEndsWithCodeOne :
    (offered 0x110).Inv ∧ (offered 0x06).Inv ∧
    (BitVec.extractLsb' 8 24 (0x110 : Word) ≠ 0 ∧ (offered 0x110).phase = .idle) ∧
    ((BitVec.extractLsb' 0 8 (0x06 : Word)).toNat ∉ [0x00, 0x01, 0x02, 0x03, 0x04, 0x05, 0x10, 0x11] ∧
      (offered 0x06).phase = .idle) ∧
    (offer running [.command 0xFF]).events = .command 0xFF :: [] ∧ (offer running [.command 0xFF]).phase ≠ .idle ∧
    (BitVec.extractLsb' 0 8 (0xFF : Word)).toNat ∉ [0x00, 0x01, 0x02, 0x03, 0x04, 0x05, 0x10, 0x11] :=
  ⟨engine_inv _, engine_inv _, by decide⟩

theorem test_meets_OperandWritesWhileBusyAreDropped :
    ∀ offset ∈ [0x00, 0x08, 0x0C, 0x10, 0x14, 0x18, 0x20, 0x24, 0x28, 0x2C, 0x30, 0x38],
      let s := offer running [.hostWrite (0 + offset) 4 7]
      s.events = .hostWrite (s.platform.regBase + offset) 4 7 :: [] ∧ s.phase ≠ .idle := by decide

theorem test_meets_OperandWritesWhileIdleAreDone : engine.phase = .idle := by decide

theorem test_meets_StatusWriteClearsWrittenOnes :
    let s := offer running [.hostWrite (0 + 0x04) 4 0xE]
    s.events = .hostWrite (s.platform.regBase + 0x04) 4 0xE :: [] := by decide

theorem test_meets_StatusReadShowsTheFlags :
    let s := offer running [.hostRead (0 + 0x04) 4]
    s.events = .hostRead (s.platform.regBase + 0x04) 4 :: [] := by decide

theorem test_meets_ReservedAndReadOnlyIgnoreWrites :
    (∀ offset ∈ [0x1C, 0x34, 0x3C, 0x40, 0x5C, 0x60, 0xFC],
      let s := offer running [.hostWrite (0 + offset) 4 7]
      s.events = .hostWrite (s.platform.regBase + offset) 4 7 :: [] ∧ offset % 4 = 0 ∧
        (offset = 0x3C ∨ (0x60 ≤ offset ∧ offset ≤ 0xFC) ∨ offset = 0x1C ∨ offset = 0x34 ∨
          (0x40 ≤ offset ∧ offset < 0x60))) ∧
    (∀ offset ∈ [0x3C, 0x60, 0xFC],
      let s := offer running [.hostRead (0 + offset) 4]
      s.events = .hostRead (s.platform.regBase + offset) 4 :: [] ∧ offset % 4 = 0) ∧
    BitVec.extractLsb' 0 2 (0xFFFFFFFD : Word) = BitVec.extractLsb' 0 2 (1 : Word) ∧
    BitVec.extractLsb' 1 3 (0xFFFFFFFF : Word) = BitVec.extractLsb' 1 3 (0xE : Word) ∧
    BitVec.extractLsb' 0 16 (0xFFFFBEEF : Word) = BitVec.extractLsb' 0 16 (0xBEEF : Word) := by decide

/-- The engine with its window at 0x400. -/
def based : State := { engine with platform := ⟨0x400, [], [], true, 1⟩ }

/-- Of another width at the first byte; at an odd offset at the last; from below the window, up to its first byte; past
the window; right before it. -/
theorem test_meets_MalformedRegisterAccessIsRefused :
    let s0 := offer based [.hostWrite 0x400 2 7]
    let s1 := offer based [.hostRead 0x4FF 4]
    let s2 := offer based [.hostRead 0x3FD 4]
    let s3 := offer based [.hostRead 0x500 4]
    let s4 := offer based [.hostWrite 0x3FC 4 7]
    (s0.events = .hostWrite 0x400 2 7 :: [] ∧ ¬0x400 < s0.platform.regBase ∧ 0x400 < s0.platform.regBase + 256) ∧
    (s1.events = .hostRead 0x4FF 4 :: [] ∧ ¬0x4FF < s1.platform.regBase ∧ 0x4FF < s1.platform.regBase + 256 ∧
      (0x4FF - s1.platform.regBase) % 4 ≠ 0) ∧
    (s2.events = .hostRead 0x3FD 4 :: [] ∧ 0x3FD < s2.platform.regBase ∧ s2.platform.regBase < 0x3FD + 4) ∧
    (s3.events = .hostRead 0x500 4 :: [] ∧ s3.platform.regBase + 256 ≤ 0x500) ∧
    s4.events = .hostWrite 0x3FC 4 7 :: [] ∧ 0x3FC < s4.platform.regBase ∧ 0x3FC + 4 ≤ s4.platform.regBase := by decide

/-- Idle and with no window open, at both ends; a register that R52 does not name, while a command runs; IDX, written
since the last command. -/
theorem test_meets_RegisterReadHasNoSideEffect :
    (∀ k ∈ [0, 63], k < 64 ∧
      let s := offer engine [.hostRead (0 + 4 * k) 4]
      s.events = .hostRead (s.platform.regBase + 4 * k) 4 :: [] ∧ s.phase = .idle ∧ s.windows = []) ∧
    ((offer running [.hostRead (0 + 4 * 6) 4]).events = .hostRead (0 + 4 * 6) 4 :: [] ∧
      (regAt 6).intermediate = false ∧ running.phase ≠ .idle) ∧
    let s : State := { engine with idxWritten := true }
    s.phase = .idle ∧ s.idxWritten = true ∧ 4 * 14 = 0x38 := by decide

theorem test_meets_ShiftReadsTheCurrentShift :
    let s := offer engine [.hostRead (0 + 0x34) 4]
    s.events = .hostRead (s.platform.regBase + 0x34) 4 :: [] := by decide

theorem test_meets_InterruptIsALevel :
    let s0 := offer engine [.hostWrite (0 + 0x04) 4 6]
    let s1 := offer engine [.hostWrite (0 + 0x00) 4 1]
    let s2 := offer engine [.hostWrite (0 + 0x08) 4 0]
    (s0.events = .hostWrite (s0.platform.regBase + 0x04) 4 6 :: [] ∧ (6 : Word).getLsbD 1 = true ∧
      (6 : Word).getLsbD 2 = true) ∧
    (s1.events = .hostWrite (s1.platform.regBase + 0x00) 4 1 :: [] ∧ (1 : Word).getLsbD 1 = false ∧ s1.phase = .idle) ∧
    s2.events = .hostWrite (s2.platform.regBase + 0x08) 4 0 :: [] ∧ s2.phase = .idle := by decide

theorem test_meets_NopOnlyCompletes :
    (offered 0).Inv ∧ (offered 0).events = .command 0 :: [] ∧ (offered 0).phase = .idle :=
  ⟨engine_inv _, by decide⟩

theorem test_meets_HeaderReadsBackThroughCb : ∃ t, exec .initCb engine = .next t :=
  ⟨result (exec .initCb engine), rfl⟩

theorem test_meets_BitLengthBracketsTheSequence :
    (1 : BitVec 64) ≠ 0 ∧ bitLength 1 = 1 ∧ (0xFFFFFFFFFFFFFFFF : BitVec 64) ≠ 0 ∧
      bitLength 0xFFFFFFFFFFFFFFFF = 64 := by decide

theorem test_meets_SmallSequencesContributeNothing :
    (0xFFFFFFFF : BitVec 64).toNat < 2 ^ 32 ∧ 2 ^ 32 ≤ (0x100000000 : BitVec 64).toNat ∧
      2 ^ 32 ≤ (0xFFFFFFFFFFFFFFFF : BitVec 64).toNat := by decide

theorem test_meets_CounterBlocksOfAPacketAreDistinct :
    (2 ^ 32 - 1 < 2 ^ 32 ∧ 2 ^ 28 - 1 < blockCount (2 ^ 32 - 1)) ∧
      joinBytes h0 (encodeCounter 3 false 0) = joinBytes h0 (encodeCounter 3 false 0) :=
  ⟨⟨by omega, by unfold blockCount; omega⟩, rfl⟩

theorem test_meets_HeadersDifferWhenNoncesDo :
    (∃ t, exec .encrypt engine = .next t ∧ engine.status.err = false ∧ t.status.err = false) ∧
    ∃ t, exec .encrypt { engine with nonceLo := 0, dstAddr := 0x3000 } = .next t ∧ t.status.err = false :=
  ⟨⟨result (exec .encrypt engine), rfl, by decide, by decide⟩,
   ⟨result (exec .encrypt { engine with nonceLo := 0, dstAddr := 0x3000 }), rfl, by decide⟩⟩

theorem test_meets_GenKsAsksTheCipher :
    (∀ kb ∈ [128, 192, 256], let s : State := { engine with keyBits := kb }
      s.keyBits = 128 ∨ s.keyBits = 192 ∨ s.keyBits = 256) ∧
    ∀ kb ∈ [0, 127, 129, 0x10080], let s : State := { engine with keyBits := kb }
      s.keyBits ≠ 128 ∧ s.keyBits ≠ 192 ∧ s.keyBits ≠ 256 := by
  constructor <;> simp

theorem test_meets_HdrLoadCopiesTheHeader :
    let s : State := { engine with srcAddr := 0xFFFFFFF8 }
    s.srcAddr.toNat + 8 ≤ 2 ^ 32 ∧ s.Reachable s.srcAddr.toNat 8 := by
  unfold State.Reachable; decide

theorem test_meets_HdrLoadErrorsChangeOnlyStatus :
    let s : State := { engine with srcAddr := 0xFFFFFFF9 }
    let s' : State := { engine with srcAddr := 0x2009, platform := deadRange }
    2 ^ 32 < s.srcAddr.toNat + 8 ∧
    s'.srcAddr.toNat + 8 ≤ 2 ^ 32 ∧ (∀ i < 8, s'.isDevice (s'.srcAddr.toNat + i) = false) ∧
      ∃ i < 8, s'.busOk (s'.srcAddr.toNat + i) = false := by decide

theorem test_meets_HdrStoreWritesTheHeader :
    let s : State := { engine with dstAddr := 0xFFFFFFF8 }
    s.dstAddr.toNat + 8 ≤ 2 ^ 32 ∧ s.Reachable s.dstAddr.toNat 8 := by
  unfold State.Reachable; decide

theorem test_meets_HdrStoreErrorsKeepOtherMemory :
    let s : State := { engine with dstAddr := 0xFFFFFFF9 }
    let s' : State := { engine with dstAddr := 0x201F, platform := deadRange }
    2 ^ 32 < s.dstAddr.toNat + 8 ∧
    s'.dstAddr.toNat + 8 ≤ 2 ^ 32 ∧ (∀ i < 8, s'.isDevice (s'.dstAddr.toNat + i) = false) ∧
      ∃ i < 8, s'.busOk (s'.dstAddr.toNat + i) = false := by decide

/-- A device register at the last byte of the source and the first of the destination, for each command. -/
theorem test_meets_DeviceBuffersAreRefused :
    let s : State := { engine with platform := ⟨0, [], [⟨0x1007, 1⟩, ⟨0x2000, 1⟩], true, 1⟩ }
    let s' : State := { s with len := 8 }
    (s.srcAddr.toNat + 8 ≤ 2 ^ 32 ∧ ∃ i < 8, s.isDevice (s.srcAddr.toNat + i) = true) ∧
    (s.dstAddr.toNat + 8 ≤ 2 ^ 32 ∧ ∃ i < 8, s.isDevice (s.dstAddr.toNat + i) = true) ∧
    (encryptCheck s = none ∧ (∀ i < s.len.toNat, s.busOk (s.srcAddr.toNat + i) = true) ∧
      (∀ i < s.len.toNat + 8, s.busOk (s.dstAddr.toNat + i) = true) ∧
      ∃ i < s.len.toNat + 8, s.isDevice (s.dstAddr.toNat + i) = true) ∧
    decryptCheck s' = none ∧ (∀ i < s'.len.toNat, s'.busOk (s'.srcAddr.toNat + i) = true) ∧
      (∀ i < s'.len.toNat - 8, s'.busOk (s'.dstAddr.toNat + i) = true) ∧
      ∃ i < s'.len.toNat, s'.isDevice (s'.srcAddr.toNat + i) = true := by decide

/-- The hypotheses of the statement about a successful ENCRYPT. -/
def EncryptRuns (s : State) : Prop :=
  (s.keyBits = 128 ∨ s.keyBits = 192 ∨ s.keyBits = 256) ∧
  s.srcAddr.toNat + s.len.toNat ≤ 2 ^ 32 ∧ s.dstAddr.toNat + (s.len.toNat + 8) ≤ 2 ^ 32 ∧
  (s.len.toNat = 0 ∨ s.srcAddr.toNat + s.len.toNat ≤ s.dstAddr.toNat ∨
    s.dstAddr.toNat + (s.len.toNat + 8) ≤ s.srcAddr.toNat) ∧
  s.Reachable s.srcAddr.toNat s.len.toNat ∧ s.Reachable s.dstAddr.toNat (s.len.toNat + 8)

/-- No byte; the output right after the input, at the top of the space; the output right before it. -/
theorem test_meets_EncryptWritesHeaderAndBody :
    EncryptRuns { engine with len := 0 } ∧
    EncryptRuns { engine with keyBits := 192, srcAddr := 0xFFFFFFD6, dstAddr := 0xFFFFFFE7 } ∧
    EncryptRuns { engine with keyBits := 256, dstAddr := 0xFE7 } := by
  unfold EncryptRuns State.Reachable; decide

/-- The hypotheses of the statement about a successful DECRYPT. -/
def DecryptRuns (s : State) : Prop :=
  (s.keyBits = 128 ∨ s.keyBits = 192 ∨ s.keyBits = 256) ∧ 8 ≤ s.len.toNat ∧
  s.srcAddr.toNat + s.len.toNat ≤ 2 ^ 32 ∧ s.dstAddr.toNat + (s.len.toNat - 8) ≤ 2 ^ 32 ∧
  (s.len.toNat = 8 ∨ s.srcAddr.toNat + s.len.toNat ≤ s.dstAddr.toNat ∨
    s.dstAddr.toNat + (s.len.toNat - 8) ≤ s.srcAddr.toNat) ∧
  s.Reachable s.srcAddr.toNat s.len.toNat ∧ s.Reachable s.dstAddr.toNat (s.len.toNat - 8)

theorem test_meets_DecryptReadsHeaderAndWritesBody :
    DecryptRuns { engine with len := 8 } ∧
    DecryptRuns { engine with keyBits := 192, len := 25, srcAddr := 0xFFFFFFD6, dstAddr := 0xFFFFFFEF } ∧
    DecryptRuns { engine with keyBits := 256, len := 25, dstAddr := 0xFEF } := by
  unfold DecryptRuns State.Reachable; decide

/-- V10.1, a source and a destination one byte past the top, V10.9. -/
theorem test_meets_EncryptChecksInOrder :
    (let s : State := { engine with keyBits := 100 }; ¬(s.keyBits = 128 ∨ s.keyBits = 192 ∨ s.keyBits = 256)) ∧
    (let s : State := { engine with srcAddr := 0xFFFFFFF0 }; 2 ^ 32 < s.srcAddr.toNat + s.len.toNat) ∧
    (let s : State := { engine with dstAddr := 0xFFFFFFE8 }
     s.srcAddr.toNat + s.len.toNat ≤ 2 ^ 32 ∧ 2 ^ 32 < s.dstAddr.toNat + (s.len.toNat + 8)) ∧
    (let s : State := { engine with len := 16, dstAddr := 0x100F }
     s.srcAddr.toNat + s.len.toNat ≤ 2 ^ 32 ∧ s.dstAddr.toNat + (s.len.toNat + 8) ≤ 2 ^ 32 ∧ 0 < s.len.toNat ∧
      s.srcAddr.toNat < s.dstAddr.toNat + (s.len.toNat + 8) ∧ s.dstAddr.toNat < s.srcAddr.toNat + s.len.toNat) := by
  decide

/-- V10.2, LEN = 7, V10.4, a destination one byte past the top, V10.6. -/
theorem test_meets_DecryptChecksInOrder :
    (let s : State := { engine with keyBits := 100 }; ¬(s.keyBits = 128 ∨ s.keyBits = 192 ∨ s.keyBits = 256)) ∧
    (let s : State := { engine with len := 7 }; s.len.toNat < 8) ∧
    (let s : State := { engine with len := 9, srcAddr := 0xFFFFFFF8 }
     8 ≤ s.len.toNat ∧ 2 ^ 32 < s.srcAddr.toNat + s.len.toNat) ∧
    (let s : State := { engine with dstAddr := 0xFFFFFFF8 }
     8 ≤ s.len.toNat ∧ s.srcAddr.toNat + s.len.toNat ≤ 2 ^ 32 ∧ 2 ^ 32 < s.dstAddr.toNat + (s.len.toNat - 8)) ∧
    (let s : State := { engine with len := 16, srcAddr := 0x100, dstAddr := 0x104 }
     8 < s.len.toNat ∧ s.srcAddr.toNat + s.len.toNat ≤ 2 ^ 32 ∧ s.dstAddr.toNat + (s.len.toNat - 8) ≤ 2 ^ 32 ∧
      s.srcAddr.toNat < s.dstAddr.toNat + (s.len.toNat - 8) ∧ s.dstAddr.toNat < s.srcAddr.toNat + s.len.toNat) := by
  decide

/-- V11. -/
def v11 : State := { engine with platform := deadRange }

/-- V11.2: the header write fails. -/
def v112 : State := { engine with platform := deadRange, dstAddr := 0x2010 }

/-- V11.4: a block's read fails; here it is the second block's. -/
def v11Read : State := { engine with platform := deadRange, srcAddr := 0x2000, dstAddr := 0x3000 }

/-- Some byte of a command's ranges does not answer, and none is a device register. -/
def Silent (s : State) (src dst : Nat) : Prop :=
  (∀ i < src, s.isDevice (s.srcAddr.toNat + i) = false) ∧ (∀ i < dst, s.isDevice (s.dstAddr.toNat + i) = false) ∧
  ((∃ i < src, s.busOk (s.srcAddr.toNat + i) = false) ∨ ∃ i < dst, s.busOk (s.dstAddr.toNat + i) = false)

/-- The last byte of the source is silent. -/
def silentSource : State := { v11 with srcAddr := 0x2000, dstAddr := 0x3000 }

/-- The last byte of the destination is silent, for ENCRYPT at 0x1FF8 and for DECRYPT at 0x2008. -/
def silentDestination (d : Word) : State := { v11 with dstAddr := d }

theorem test_meets_EncryptBusErrorIsRaised :
    (encryptCheck silentSource = none ∧ Silent silentSource 17 25) ∧
    encryptCheck (silentDestination 0x1FF8) = none ∧ Silent (silentDestination 0x1FF8) 17 25 := by
  unfold Silent; exact ⟨⟨by decide, by decide, by decide, .inl ⟨16, by decide⟩⟩,
    by decide, by decide, by decide, .inr ⟨24, by decide⟩⟩

theorem test_meets_DecryptBusErrorIsRaised :
    (decryptCheck silentSource = none ∧ Silent silentSource 17 9) ∧
    decryptCheck (silentDestination 0x2008) = none ∧ Silent (silentDestination 0x2008) 17 9 := by
  unfold Silent; exact ⟨⟨by decide, by decide, by decide, .inl ⟨16, by decide⟩⟩,
    by decide, by decide, by decide, .inr ⟨8, by decide⟩⟩

theorem test_meets_EncryptBusErrorKeepsEarlierBlocks :
    (∃ t, encryptCheck v11 = none ∧ exec .encrypt v11 = .next t ∧ v11.status.err = false ∧ t.status.err = true) ∧
    (∃ t, encryptCheck v112 = none ∧ exec .encrypt v112 = .next t ∧ v112.status.err = false ∧ t.status.err = true) ∧
    ∃ t, encryptCheck v11Read = none ∧ exec .encrypt v11Read = .next t ∧ v11Read.status.err = false ∧
      t.status.err = true ∧ t.idx = 1 :=
  ⟨⟨result (exec .encrypt v11), by decide, rfl, by decide, by decide⟩,
   ⟨result (exec .encrypt v112), by decide, rfl, by decide, by decide⟩,
   ⟨result (exec .encrypt v11Read), by decide, rfl, by decide, by decide, by decide⟩⟩

/-- DECRYPT with the header in the dead range, with it in front of the dead range, and with the output there. -/
theorem test_meets_DecryptBusErrorKeepsEarlierBlocks :
    ∀ a ∈ [((0x2010 : Word), (0x3000 : Word)), (0x2008, 0x3000), (0x1000, 0x201F)],
      let s : State := { v11 with srcAddr := a.1, dstAddr := a.2 }
      decryptCheck s = none ∧ s.status.err = false ∧ ∃ t, exec .decrypt s = .next t ∧ t.status.err = true := by
  intro a ha
  simp only [List.mem_cons, List.not_mem_nil, or_false] at ha
  rcases ha with rfl | rfl | rfl
  · exact ⟨by decide, by decide, result (exec .decrypt { v11 with srcAddr := 0x2010, dstAddr := 0x3000 }), rfl, by decide⟩
  · exact ⟨by decide, by decide, result (exec .decrypt { v11 with srcAddr := 0x2008, dstAddr := 0x3000 }), rfl, by decide⟩
  · exact ⟨by decide, by decide, result (exec .decrypt { v11 with srcAddr := 0x1000, dstAddr := 0x201F }), rfl, by decide⟩

/-- A success and an error of ENCRYPT, the same of DECRYPT, and another command. -/
theorem test_meets_OutLenTellsTheOutputLength :
    (∃ t, exec .encrypt engine = .next t ∧ engine.status.err = false ∧ t.status.err = false) ∧
    (∃ t, exec .encrypt { engine with keyBits := 0 } = .next t ∧ t.status.err = true) ∧
    (∃ t, exec .decrypt engine = .next t ∧ t.status.err = false) ∧
    (∃ t, exec .decrypt { engine with len := 7 } = .next t ∧ t.status.err = true) ∧
    ∃ t, Instr.hdrLoad ≠ .encrypt ∧ Instr.hdrLoad ≠ .decrypt ∧ exec .hdrLoad engine = .next t :=
  ⟨⟨result (exec .encrypt engine), rfl, by decide, by decide⟩,
   ⟨result (exec .encrypt { engine with keyBits := 0 }), rfl, by decide⟩,
   ⟨result (exec .decrypt engine), rfl, by decide⟩,
   ⟨result (exec .decrypt { engine with len := 7 }), rfl, by decide⟩,
   ⟨result (exec .hdrLoad engine), by decide, by decide, rfl⟩⟩

theorem test_meets_EncryptHeaderIsThePackedNonce :
    ∃ t, exec .encrypt engine = .next t ∧ engine.status.err = false ∧ t.status.err = false :=
  ⟨result (exec .encrypt engine), rfl, by decide, by decide⟩

theorem test_meets_BodyTransformIsMalleable : ([0x00, 0x01] : List Byte).length = ([0x33, 0x65] : List Byte).length := by
  decide

theorem test_meets_BlocksCoverTheBody :
    (0 < blockCount 17 ∧ 0 + 1 < blockCount 17) ∧ (1 < blockCount 17 ∧ 1 + 1 = blockCount 17) ∧
      0 < blockCount 16 ∧ 0 + 1 = blockCount 16 := by decide

/-- A state in which the host asks for the DECRYPT of V7.5's output, to `d`, after other work. -/
def later (d : Word) : State :=
  { result (exec .encrypt engine) with srcAddr := 0x2000, dstAddr := d, len := 25, nonceLo := 0, idx := 7 }

/-- Into 0x3000, and right behind the ciphertext. -/
theorem test_meets_DecryptUndoesEncrypt :
    ∃ t, exec .encrypt engine = .next t ∧ engine.status.err = false ∧ t.status.err = false ∧
      ∀ u, u = later 0x3000 ∨ u = later 0x2019 →
        u.keyBits = engine.keyBits ∧ u.cipher = engine.cipher ∧ u.ctrl.seqPresent = engine.ctrl.seqPresent ∧
        u.seqHi ++ u.seqLo = engine.seqHi ++ engine.seqLo ∧ u.srcAddr = engine.dstAddr ∧
        u.len.toNat = engine.len.toNat + 8 ∧ u.mem = t.mem ∧ u.dstAddr.toNat + engine.len.toNat ≤ 2 ^ 32 ∧
        engine.dstAddr.toNat + (engine.len.toNat + 8) ≤ u.dstAddr.toNat ∧
        u.Reachable engine.dstAddr.toNat (engine.len.toNat + 8) ∧ u.Reachable u.dstAddr.toNat engine.len.toNat := by
  refine ⟨result (exec .encrypt engine), rfl, by decide, by decide, ?_⟩
  rintro u (rfl | rfl)
  · exact ⟨rfl, rfl, rfl, rfl, rfl, by decide, rfl, by decide, by decide, fun _ _ => ⟨rfl, rfl⟩, fun _ _ => ⟨rfl, rfl⟩⟩
  · exact ⟨rfl, rfl, rfl, rfl, rfl, by decide, rfl, by decide, by decide, fun _ _ => ⟨rfl, rfl⟩, fun _ _ => ⟨rfl, rfl⟩⟩

theorem test_meets_CommandsKeepHostRegisters : ∃ t, exec .hdrStore engine = .next t :=
  ⟨result (exec .hdrStore engine), rfl⟩

theorem test_meets_CommandsEndWithDoneOrErr :
    (∃ t, exec .decrypt engine = .next t) ∧ (∃ t, exec .decrypt { engine with len := 3 } = .next t) ∧
      engine.status.done = false ∧ engine.status.err = false ∧ engine.status.errcode = 0 :=
  ⟨⟨result (exec .decrypt engine), rfl⟩, ⟨result (exec .decrypt { engine with len := 3 }), rfl⟩, by decide⟩

theorem test_meets_CommandsWriteOnlyTheirDestination :
    (∃ t, exec .encrypt engine = .next t) ∧ inRegion (destination .encrypt engine) 0x1FFF = false ∧
      inRegion (destination .encrypt engine) 0x2019 = false :=
  ⟨⟨result (exec .encrypt engine), rfl⟩, by decide⟩

theorem test_meets_OnlyTheirCommandsChangeBuffers :
    ∃ t, exec .nop engine = .next t ∧ Instr.nop ∉ [Instr.initCb, .hdrLoad, .encrypt, .decrypt] ∧
      Instr.nop ∉ [Instr.encodeIdx, .encrypt, .decrypt] ∧ Instr.nop ∉ [Instr.genKs, .encrypt, .decrypt] ∧
      Instr.nop ∉ [Instr.encrypt, .decrypt] :=
  ⟨result (exec .nop engine), rfl, by decide⟩

theorem test_meets_StreamCommandsZeroKeystream :
    (∃ t, exec .encrypt engine = .next t) ∧ ∃ t, exec .decrypt { engine with keyBits := 0 } = .next t :=
  ⟨⟨result (exec .encrypt engine), rfl⟩, ⟨result (exec .decrypt { engine with keyBits := 0 }), rfl⟩⟩

/-- A data write in progress. -/
def writing : State := { running with phase := .busy ⟨0x10, .a2, 0, [], some (.write 0x2000 h0.toList)⟩ }

theorem test_meets_ResetLeavesZeros :
    (offer running [.reset]).events = .reset :: [] ∧ (offer running [.reset]).windows.all Window.quiet = true ∧
      ∀ r a bs, (offer running [.reset]).phase = .busy r → r.outstanding ≠ some (.write a bs) :=
  ⟨rfl, by decide, fun r a bs h => by
    obtain rfl : ⟨0x10, .a0, 0, [], none⟩ = r := by injection h
    simp⟩

theorem test_meets_ResetInputRestoresTheEngine :
    ((offer engine [.reset]).events = .reset :: [] ∧ (offer engine [.reset]).windows.all Window.quiet = true) ∧
    (offer writing [.reset]).events = .reset :: [] ∧ (offer writing [.reset]).windows.all Window.quiet = true := by
  decide

theorem test_meets_StepKeepsInvariant :
    (offer engine [.command 0x10]).Inv ∧ ∃ t, step (offer engine [.command 0x10]) = .next t :=
  ⟨engine_inv _, result (step (offer engine [.command 0x10])), rfl⟩

theorem test_meets_EngineMoveNeverFaults : (offer running []).Inv := running_inv []

theorem test_meets_OneStepAgreesWithActionList :
    (offer engine []).Inv ∧ (offer engine []).phase = .idle ∧
      ∃ t, step { offer engine [] with events := [.command 0x10] } = .next t :=
  ⟨engine_inv [], by decide, result (step { offer engine [] with events := [.command 0x10] }), rfl⟩

theorem test_meets_EveryCommandEnds :
    (offer running []).Inv ∧ (offer running []).events = [] ∧
      (offer running []).phase = .busy ⟨0x10, .a0, 0, [], none⟩ :=
  ⟨running_inv [], rfl, rfl⟩

theorem test_meets_IdleEngineDoesNothing :
    (offer engine []).Inv ∧ (offer engine []).events = [] ∧ (offer engine []).phase = .idle :=
  ⟨engine_inv [], by decide⟩

/-- A write up to the top of the space, and a read right behind a running command's destination; by the host, and by
the last of two other engine instances. -/
theorem test_meets_UnwatchedMasterAccessIsPlain :
    (let s := offer running [.masterWrite .bus 0xFFFFFFFE [1, 2]]
     s.Inv ∧ s.hasMaster .bus = true ∧ s.events = .masterWrite .bus 0xFFFFFFFE [1, 2] :: [] ∧
      0xFFFFFFFE + [1, 2].length ≤ 2 ^ 32 ∧ ∀ i < [1, 2].length, s.watched .bus (0xFFFFFFFE + i) = false) ∧
    (let s := offer running [.masterRead .bus 0x2019 4]
     s.Inv ∧ s.hasMaster .bus = true ∧ s.events = .masterRead .bus 0x2019 4 :: [] ∧ 0x2019 + 4 ≤ 2 ^ 32 ∧
      ∀ i < 4, s.watched .bus (0x2019 + i) = false) ∧
    ({ engine with platform := ⟨0, [], [], true, 3⟩ } : State).hasMaster (.engine 2) = true :=
  ⟨⟨running_inv _, rfl, rfl, Nat.le_of_ble_eq_true rfl, by decide⟩,
   ⟨running_inv _, rfl, rfl, by omega, by decide⟩, by decide⟩

/-- Two bytes at the top of the space, on either platform. -/
theorem test_meets_HostAccessesFollowCoherence :
    ((offer engine []).Inv ∧ engine.platform.coherent = true) ∧
    ((offer cached []).Inv ∧ cached.platform.coherent = false) ∧
    ([1, 2] : List Byte).length = 2 ∧ 0xFFFFFFFE + 2 ≤ 2 ^ 32 ∧ ∀ i < 2, cached.watched .bus (0xFFFFFFFE + i) = false :=
  ⟨⟨engine_inv [], rfl⟩, ⟨engine_inv [], rfl⟩, rfl, Nat.le_of_ble_eq_true rfl, by decide⟩

end Sys2Proof.Tests
end

/-! Proofs about the register slave port (R33 to R55, R80, R100): what a step does with a host access, what a register
read answers, which writes a register ignores, and how the interrupt follows from CTRL and STATUS. -/

namespace Sys2Proof.Machine

/-! ## A host access at an offset of the window -/

theorem step_of_events_cons {s : State} {e : Event} {rest : List Event} (h : s.events = e :: rest) :
    step s = handle e { s with events := rest } := by
  rw [step, h]

/-- An aligned 32-bit access at an offset inside the window reaches the register there (R80, R100). -/
theorem State.access_regBase_add (s : State) {offset : Nat} (haligned : offset % 4 = 0) (hinside : offset < 256) :
    s.access (s.platform.regBase + offset) 4 = .reg (regAt (offset / 4)) := by
  have hform : wellFormedTransaction offset 4 = true := by simp [wellFormedTransaction, haligned, hinside]
  have hwindow : ¬s.platform.regBase + 256 ≤ s.platform.regBase + offset := by omega
  have hbase : ¬s.platform.regBase + offset < s.platform.regBase := by omega
  simp [State.access, hwindow, hbase, hform]

theorem step_hostWrite {s : State} {offset : Nat} {v : Word} {rest : List Event}
    (h : s.events = .hostWrite (s.platform.regBase + offset) 4 v :: rest) (haligned : offset % 4 = 0)
    (hinside : offset < 256) : step s = .next (writeReg (regAt (offset / 4)) v { s with events := rest }) := by
  have haccess := State.access_regBase_add { s with events := rest } haligned hinside
  rw [step_of_events_cons h, handle, hostWrite, haccess]

theorem step_hostRead {s : State} {offset : Nat} {rest : List Event}
    (h : s.events = .hostRead (s.platform.regBase + offset) 4 :: rest) (haligned : offset % 4 = 0)
    (hinside : offset < 256) : step s = .next (readReg (regAt (offset / 4)) { s with events := rest }) := by
  have haccess := State.access_regBase_add { s with events := rest } haligned hinside
  rw [step_of_events_cons h, handle, hostRead, haccess]

/-! ## The register map -/

/-- Offset 0x3C and the offsets from 0x60 on are reserved (R48). -/
theorem regAt_reserved {k : Nat} (h : k = 15 ∨ 24 ≤ k) : regAt k = .reserved := by
  rcases h with rfl | h
  · rfl
  · obtain ⟨j, rfl⟩ := Nat.exists_eq_add_of_le' h
    rfl

/-- The read-only and reserved places of the register map hold no register that a write is done to or dropped for. -/
theorem regAt_unwritable {k : Nat} (h : k = 7 ∨ k = 13 ∨ 15 ≤ k) :
    (regAt k).guarded = false ∧ regAt k ≠ .status := by
  by_cases hk : k < 24
  · have hmap : ∀ k < 24, k = 7 ∨ k = 13 ∨ 15 ≤ k → (regAt k).guarded = false ∧ regAt k ≠ .status := by decide
    exact hmap k hk h
  · rw [regAt_reserved (.inr (by omega))]
    decide

/-! ## Register reads -/

@[simp] theorem State.unread_of_not_intermediate (s : State) {g : Reg} (h : g.intermediate = false) :
    s.unread g = false := by
  simp [State.unread, h]

/-- A register that a running command does not change reads its value at any time; STATUS, whose read closes the hazard
windows, has a rule of its own. -/
theorem readReg_of_not_intermediate (s : State) {g : Reg} (h : g.intermediate = false) (hstatus : g ≠ .status) :
    readReg g s = { s with response := some (s.regValue g) } := by
  simp [readReg, h, hstatus]

/-! ## Register writes -/

/-- A register that is neither guarded nor STATUS ignores a write, busy or idle (R48). -/
theorem writeReg_of_unwritable (v : Word) (s : State) {g : Reg} (hguarded : g.guarded = false) (hstatus : g ≠ .status) :
    writeReg g v s = s := by
  cases g with
  | status => contradiction
  | outLen | shift | cb _ | ks _ | reserved => rfl
  | _ => cases hguarded

/-- A register other than STATUS and CMD takes the value, unless BUSY = 1 guards it (R51). -/
theorem writeReg_eq_setReg (v : Word) (s : State) {g : Reg} (hstatus : g ≠ .status) (hcmd : g ≠ .cmd) :
    writeReg g v s = if g.guarded && s.busy then s.dropWrite else s.setReg v g := by
  cases g with
  | status | cmd => contradiction
  | _ => rfl

theorem State.busy_of_idle {s : State} (h : s.phase = .idle) : s.busy = false := by
  simp [State.busy, h]

theorem writeReg_of_idle (v : Word) {s : State} {g : Reg} (hidle : s.phase = .idle) (hstatus : g ≠ .status)
    (hcmd : g ≠ .cmd) : writeReg g v s = s.setReg v g := by
  simp [writeReg_eq_setReg v s hstatus hcmd, State.busy_of_idle hidle]

theorem writeReg_cmd_of_idle (v : Word) {s : State} (hidle : s.phase = .idle) : writeReg .cmd v s = s.accept v := by
  simp [writeReg, State.busy_of_idle hidle]

@[simp] theorem writeReg_status (v : Word) (s : State) :
    writeReg .status v s = { s with status := s.status.clear v } := rfl

/-- Two values that a register takes alike are written alike, busy or idle. -/
theorem writeReg_congr {v v' : Word} {s : State} {g : Reg} (h : s.setReg v g = s.setReg v' g) (hstatus : g ≠ .status)
    (hcmd : g ≠ .cmd) : writeReg g v s = writeReg g v' s := by
  rw [writeReg_eq_setReg v s hstatus hcmd, writeReg_eq_setReg v' s hstatus hcmd, h]

/-! ## Reserved fields (R48)

The library's rules for a slice of `x ++ y` want the width as a sum, so a proof about a register's word first writes
its 32 as the sum of its fields' widths. -/

theorem getLsbD_eq_of_extractLsb'_eq {v v' : Word} {start len i : Nat}
    (h : v.extractLsb' start len = v'.extractLsb' start len) (hi : i < len) :
    v.getLsbD (start + i) = v'.getLsbD (start + i) := by
  have hbit := congrArg (fun field => field.getLsbD i) h
  simpa [hi] using hbit

theorem State.ctrlWord_reserved (s : State) : s.ctrlWord.extractLsb' 2 30 = 0 := by
  change BitVec.extractLsb' (n := 30 + 1 + 1) 2 30 _ = 0
  rw [State.ctrlWord]
  iterate 2 rw [BitVec.extractLsb'_append_eq_of_le (by decide)]
  decide

/-- Above BUSY, DONE, ERR and OVR, STATUS reads four zeros, ERRCODE and zeros (R34). -/
theorem State.statusWord_extractLsb'_above_flags (s : State) {start len : Nat} (h : 4 ≤ start) :
    s.statusWord.extractLsb' start len =
      ((0 : BitVec 20) ++ s.status.errcode ++ (0 : BitVec 4)).extractLsb' (start - 4) len := by
  change BitVec.extractLsb' (n := 20 + 4 + 4 + 1 + 1 + 1 + 1) start len _ = _
  rw [State.statusWord]
  iterate 4 rw [BitVec.extractLsb'_append_eq_of_le (by omega)]
  rfl

theorem State.statusWord_reserved_low (s : State) : s.statusWord.extractLsb' 4 4 = 0 := by
  rw [s.statusWord_extractLsb'_above_flags (by decide), BitVec.extractLsb'_append_eq_of_add_le (by decide)]
  decide

theorem State.statusWord_reserved_high (s : State) : s.statusWord.extractLsb' 12 20 = 0 := by
  rw [s.statusWord_extractLsb'_above_flags (by decide)]
  iterate 2 rw [BitVec.extractLsb'_append_eq_of_le (by decide)]
  decide

/-- A register of 16 bits reads 0 above them. -/
theorem extractLsb'_setWidth_high (r : BitVec 16) : (r.setWidth 32).extractLsb' 16 16 = 0 := by
  ext i hi
  simp

theorem State.setReg_ctrl_congr (s : State) {v v' : Word} (h : v.extractLsb' 0 2 = v'.extractLsb' 0 2) :
    s.setReg v .ctrl = s.setReg v' .ctrl := by
  have hseq : v.getLsbD 0 = v'.getLsbD 0 := getLsbD_eq_of_extractLsb'_eq h (i := 0) (by decide)
  have hie : v.getLsbD 1 = v'.getLsbD 1 := getLsbD_eq_of_extractLsb'_eq h (i := 1) (by decide)
  rw [State.setReg, State.setReg, hseq, hie]

theorem State.setReg_nonceRnd_congr (s : State) {v v' : Word} (h : v.extractLsb' 0 16 = v'.extractLsb' 0 16) :
    s.setReg v .nonceRnd = s.setReg v' .nonceRnd := by
  simp only [State.setReg, BitVec.setWidth_eq_extractLsb' (show 16 ≤ 32 by decide), h]

theorem Status.clear_congr (st : Status) {v v' : Word} (h : v.extractLsb' 1 3 = v'.extractLsb' 1 3) :
    st.clear v = st.clear v' := by
  have hdone : v.getLsbD 1 = v'.getLsbD 1 := getLsbD_eq_of_extractLsb'_eq h (i := 0) (by decide)
  have herr : v.getLsbD 2 = v'.getLsbD 2 := getLsbD_eq_of_extractLsb'_eq h (i := 1) (by decide)
  have hovr : v.getLsbD 3 = v'.getLsbD 3 := getLsbD_eq_of_extractLsb'_eq h (i := 2) (by decide)
  rw [Status.clear, Status.clear, hdone, herr, hovr]

/-- Settles O12. A reserved or read-only place of the map holds a register that ignores writes; a reserved field is
zero in the word read, and a write takes only the bits outside it. -/
theorem reservedAndReadOnlyIgnoreWrites : Obligations.ReservedAndReadOnlyIgnoreWrites := by
  refine ⟨fun s offset v rest h haligned hplace => ?_, fun s offset rest h haligned hplace => ?_, fun s => ?_,
    fun s v v' => ?_⟩
  · obtain ⟨hguarded, hstatus⟩ := regAt_unwritable (k := offset / 4) (by omega)
    rw [step_hostWrite h haligned (by omega), writeReg_of_unwritable v _ hguarded hstatus]
  · have hreserved : regAt (offset / 4) = .reserved := regAt_reserved (by omega)
    rw [step_hostRead h haligned (by omega), hreserved, readReg_of_not_intermediate _ rfl (by decide), State.regValue]
  · exact ⟨s.ctrlWord_reserved, s.statusWord_reserved_low, s.statusWord_reserved_high,
      extractLsb'_setWidth_high s.nonceRnd⟩
  · refine ⟨fun h => ?_, fun h => ?_, fun h => ?_⟩
    · exact writeReg_congr (s.setReg_ctrl_congr h) (by decide) (by decide)
    · rw [writeReg_status, writeReg_status, s.status.clear_congr h]
    · exact writeReg_congr (s.setReg_nonceRnd_congr h) (by decide) (by decide)

/-! ## SHIFT (R44, R150, R151) -/

theorem lz64_le (seq : BitVec 64) : lz64 seq ≤ 64 := Nat.sub_le _ _

theorem shiftOf_le (present : Bool) (seq : BitVec 64) : shiftOf present seq ≤ 64 := by
  cases present with
  | false => exact (by decide : 8 ≤ 64)
  | true => exact lz64_le seq

theorem State.toNat_shiftWord (s : State) : s.shiftWord.toNat = shiftOf s.ctrl.seqPresent s.seq := by
  have hle := shiftOf_le s.ctrl.seqPresent s.seq
  rw [State.shiftWord, BitVec.toNat_ofNat, Nat.mod_eq_of_lt (by omega)]

/-- Settles O15. SHIFT is no register of R52, so every read answers the shift, which fits its field. -/
theorem shiftReadsTheCurrentShift : Obligations.ShiftReadsTheCurrentShift := by
  refine ⟨fun s rest h => ⟨s.shiftWord, ?_, s.toNat_shiftWord, ?_⟩, rfl⟩
  · rw [step_hostRead h (by decide) (by decide), readReg_of_not_intermediate _ rfl (by decide)]
    rfl
  · rw [s.toNat_shiftWord]
    exact shiftOf_le _ _

/-! ## The interrupt (R55) -/

theorem State.irq_iff (s : State) :
    s.irq = true ↔ s.ctrl.ie = true ∧ (s.status.done = true ∨ s.status.err = true) := by
  simp [State.irq]

theorem State.irq_eq_false_of_not_ie {s : State} (h : s.ctrl.ie = false) : s.irq = false := by
  simp [State.irq, h]

theorem State.irq_eq_false_of_no_flag {s : State} (hdone : s.status.done = false) (herr : s.status.err = false) :
    s.irq = false := by
  simp [State.irq, hdone, herr]

theorem irq_writeReg_status (s : State) {v : Word} (hdone : v.getLsbD 1 = true) (herr : v.getLsbD 2 = true) :
    (writeReg .status v s).irq = false := by
  apply State.irq_eq_false_of_no_flag
  · simp [hdone]
  · simp [herr]

theorem irq_writeReg_ctrl {s : State} {v : Word} (hidle : s.phase = .idle) (hie : v.getLsbD 1 = false) :
    (writeReg .ctrl v s).irq = false := by
  rw [writeReg_of_idle v hidle (by decide) (by decide)]
  exact State.irq_eq_false_of_not_ie hie

/-- An accepted command has DONE and ERR 0 (R130). -/
theorem irq_writeReg_cmd {s : State} (v : Word) (hidle : s.phase = .idle) : (writeReg .cmd v s).irq = false := by
  rw [writeReg_cmd_of_idle v hidle]
  exact State.irq_eq_false_of_no_flag (by simp) (by simp)

/-- Settles O17. The level is its definition, and each of the three writes leaves IE or both flags 0. -/
theorem interruptIsALevel : Obligations.InterruptIsALevel := by
  refine ⟨State.irq_iff, rfl, fun s v rest => ⟨fun h hdone herr => ?_, fun h hie hidle => ?_, fun h hidle => ?_⟩⟩
  · exact ⟨_, step_hostWrite h (by decide) (by decide), irq_writeReg_status _ hdone herr⟩
  · exact ⟨_, step_hostWrite h (by decide) (by decide), irq_writeReg_ctrl hidle hie⟩
  · exact ⟨_, step_hostWrite h (by decide) (by decide), irq_writeReg_cmd v hidle⟩

end Sys2Proof.Machine

/-! Proofs about the opcode map and the decoder of a command word (R101 to R105). -/

namespace Sys2Proof

/-! ## The opcode map (R103, R104) -/

theorem ofOpcode_opcode (i : Instr) : ofOpcode (opcode i) = some i := by
  cases i <;> rfl

/-- The map gives each opcode at most one command, so `ofOpcode` inverts `opcode`. -/
theorem ofOpcode_eq_some_iff {op : BitVec 8} {i : Instr} : ofOpcode op = some i ↔ op = opcode i := by
  constructor
  · intro h
    unfold ofOpcode at h
    split at h
    case h_9 => cases h
    all_goals
      cases h
      exact BitVec.eq_of_toNat_eq ‹_›
  · rintro rfl
    exact ofOpcode_opcode i

/-! ## Decoding a word (R103 to R105) -/

theorem decodeWord_of_reserved_ne_zero {w : Word} (h : w.extractLsb' 8 24 ≠ 0) :
    decodeWord w = .error .reservedField := if_neg h

theorem decodeWord_of_reserved_zero {w : Word} (h : w.extractLsb' 8 24 = 0) :
    decodeWord w = (ofOpcode (w.extractLsb' 0 8)).elim (.error .reservedOpcode) .ok := by
  rw [decodeWord, if_pos h]
  cases ofOpcode (w.extractLsb' 0 8) <;> rfl

/-- R103 for every command at once. -/
theorem decodeWord_eq_ok_iff (w : Word) (i : Instr) :
    decodeWord w = .ok i ↔ w.extractLsb' 8 24 = 0 ∧ w.extractLsb' 0 8 = opcode i := by
  by_cases hres : w.extractLsb' 8 24 = 0
  · rw [decodeWord_of_reserved_zero hres, and_iff_right hres, ← ofOpcode_eq_some_iff]
    cases ofOpcode (w.extractLsb' 0 8) <;> simp
  · rw [decodeWord_of_reserved_ne_zero hres]
    exact iff_of_false nofun fun h => hres h.1

/-- Settles O2. Each clause is `decodeWord_eq_ok_iff` at its command, whose opcode is the clause's literal. -/
theorem wordSelectsCommandByOpcode : Obligations.WordSelectsCommandByOpcode := fun w =>
  ⟨decodeWord_eq_ok_iff w .nop, decodeWord_eq_ok_iff w .initCb, decodeWord_eq_ok_iff w .encodeIdx,
    decodeWord_eq_ok_iff w .genKs, decodeWord_eq_ok_iff w .hdrLoad, decodeWord_eq_ok_iff w .hdrStore,
    decodeWord_eq_ok_iff w .encrypt, decodeWord_eq_ok_iff w .decrypt⟩

end Sys2Proof

/-! Proofs about the control of commands (R104, R130 to R138): a dropped CMD write, an ILLEGAL word, and NOP. -/

namespace Sys2Proof

/-! ## Words outside the opcode map (R104, R105) -/

theorem toNat_opcode_mem_map (i : Instr) :
    (opcode i).toNat ∈ [0x00, 0x01, 0x02, 0x03, 0x04, 0x05, 0x10, 0x11] := by
  cases i <;> decide

/-- A word with a non-zero reserved field or an unassigned opcode is ILLEGAL. -/
theorem decodeWord_eq_error_of_outside_map {w : Word}
    (h : w.extractLsb' 8 24 ≠ 0 ∨
      (w.extractLsb' 0 8).toNat ∉ [0x00, 0x01, 0x02, 0x03, 0x04, 0x05, 0x10, 0x11]) :
    ∃ e, decodeWord w = .error e := by
  cases hdecode : decodeWord w with
  | error e => exact ⟨e, rfl⟩
  | ok i =>
    obtain ⟨hreserved, hopcode⟩ := (decodeWord_eq_ok_iff w i).1 hdecode
    rcases h with hne | hunassigned
    · exact absurd hreserved hne
    · exact absurd (hopcode ▸ toNat_opcode_mem_map i) hunassigned

end Sys2Proof

namespace Sys2Proof.Machine

/-! ## A CMD write while a command runs (R131) -/

theorem State.busy_of_not_idle {s : State} (h : s.phase ≠ .idle) : s.busy = true := by
  simp [State.busy, h]

/-- BUSY = 1 guards CMD and the read-write registers other than STATUS (R51). -/
theorem writeReg_of_guarded_of_busy (v : Word) {s : State} {g : Reg} (hguarded : g.guarded = true)
    (hbusy : s.phase ≠ .idle) : writeReg g v s = s.dropWrite := by
  simp [writeReg, hguarded, State.busy_of_not_idle hbusy]

theorem command_of_busy (w : Word) {s : State} (hbusy : s.phase ≠ .idle) : command w s = .next s.dropWrite := by
  rw [command, if_pos (State.busy_of_not_idle hbusy)]

theorem command_of_idle (w : Word) {s : State} (hidle : s.phase = .idle) :
    command w s = ended (runAccepted w (s.accept w)) := by
  simp [command, State.busy_of_idle hidle]

theorem step_command {s : State} {w : Word} {rest : List Event} (h : s.events = .command w :: rest) :
    step s = command w { s with events := rest } :=
  step_of_events_cons h

/-! ## A command without accesses, run in one step (R130, R135) -/

/-- In an idle state of the invariant no race is left to settle. -/
theorem State.Inv.windows_quiet {s : State} (h : s.Inv) (hidle : s.phase = .idle) :
    s.windows.all Window.quiet = true := by
  obtain ⟨-, -, -, hphase⟩ := h
  simpa only [State.PhaseOk, hidle] using hphase

/-- A command without accesses meets no other command: its acceptance opens a window that watches nothing. -/
theorem State.accept_of_no_ranges {s : State} {w : Word} (h : s.ranges (decodeWord w) = (⟨0, 0⟩, ⟨0, 0⟩)) :
    s.accept w = { s with
      status := s.status.accepted
      phase := .busy ⟨w, .a0, 0, [], none⟩
      windows := ⟨w, ⟨0, 0⟩, ⟨0, 0⟩, .none, [], [], false⟩ :: s.windows
      idxWritten := false } := by
  rw [State.accept, State.newWindow_of_no_ranges h, map_meet_of_no_ranges _ rfl rfl]
  rfl

@[simp] theorem State.ranges_error (s : State) (e : DecodeError) : s.ranges (.error e) = (⟨0, 0⟩, ⟨0, 0⟩) := rfl

@[simp] theorem State.ranges_nop (s : State) : s.ranges (.ok .nop) = (⟨0, 0⟩, ⟨0, 0⟩) := rfl

/-- A command without accesses that touches STATUS alone, run from an idle state without races: at its end it has
changed nothing else, but for the model's records (log 11, log 14). -/
theorem State.endCommand_of_no_ranges {s t : State} {w : Word}
    (hframe : t = { s.accept w with status := t.status, phase := .idle })
    (hranges : s.ranges (decodeWord w) = (⟨0, 0⟩, ⟨0, 0⟩)) (hidle : s.phase = .idle)
    (hquiet : s.windows.all Window.quiet = true) :
    ∃ windows, t.endCommand = { s with status := t.status, windows, idxWritten := false } := by
  have hwindows : t.windows.all Window.quiet = true := by
    rw [hframe, State.accept_of_no_ranges hranges]
    simpa [Window.quiet] using hquiet
  generalize t.status = st at hframe
  subst hframe
  rw [endCommand_of_quiet hwindows, State.accept_of_no_ranges hranges, ← hidle]
  exact ⟨_, rfl⟩

/-! ## An ILLEGAL word (R138) -/

theorem command_of_illegal {s : State} {w : Word} {e : DecodeError} (hdecode : decodeWord w = .error e)
    (hidle : s.phase = .idle) : command w s = .next ((s.accept w).raiseError .illegal).endCommand := by
  rw [command_of_idle w hidle, runAccepted, hdecode]
  rfl

/-- Settles O7. An ILLEGAL word opens a window without ranges, so its end settles nothing; while busy it is dropped as
any CMD write is. -/
theorem illegalWordEndsWithCodeOne : Obligations.IllegalWordEndsWithCodeOne := by
  intro s w rest hevents houtside
  obtain ⟨e, hdecode⟩ := decodeWord_eq_error_of_outside_map houtside
  by_cases hidle : s.phase = .idle
  · refine ⟨_, (step_command hevents).trans (command_of_illegal hdecode hidle), fun hinv _ => ?_, absurd hidle⟩
    obtain ⟨windows, hend⟩ := State.endCommand_of_no_ranges (t := (State.accept { s with events := rest } w).raiseError
      .illegal) rfl (by rw [hdecode, State.ranges_error]) hidle (hinv.windows_quiet hidle)
    rw [hend]
    rfl
  · exact ⟨_, (step_command hevents).trans (command_of_busy w hidle), fun _ h => absurd h hidle, fun _ => rfl⟩

/-- Settles O6. CMD is guarded, and a whole command offered while busy is dropped like a write to it. -/
theorem cmdWriteWhileBusyIsDropped : Obligations.CmdWriteWhileBusyIsDropped := by
  intro s w rest hevents hbusy
  rcases hevents with hwrite | hcommand
  · exact (step_hostWrite hwrite (by decide) (by decide)).trans
      (congrArg Host.Outcome.next (writeReg_of_guarded_of_busy w (g := .cmd) rfl hbusy))
  · exact (step_command hcommand).trans (command_of_busy w hbusy)

/-! ## NOP (R137) -/

theorem exec_nop (s : State) : exec .nop s = .next s.complete := rfl

theorem decodeWord_zero : decodeWord 0 = .ok .nop := by decide

theorem command_nop {s : State} (hidle : s.phase = .idle) :
    command 0 s = .next (s.accept 0).complete.endCommand := by
  rw [command_of_idle 0 hidle, runAccepted, decodeWord_zero]
  rfl

/-- Settles O18. Acceptance clears the stale error, completion sets DONE, and NOP's window has no ranges. -/
theorem nopOnlyCompletes : Obligations.NopOnlyCompletes := by
  refine ⟨exec_nop, fun s rest hinv hevents hidle => ⟨_, (step_command hevents).trans (command_nop hidle), ?_⟩⟩
  obtain ⟨windows, hend⟩ := State.endCommand_of_no_ranges (t := (State.accept { s with events := rest } 0).complete)
    rfl (by rw [decodeWord_zero, State.ranges_nop]) hidle (hinv.windows_quiet hidle)
  rw [hend]
  rfl

end Sys2Proof.Machine

/-! Proofs about the counter-block codec (R150 to R160): the bit length of a sequence, the shifted sequence word, and
the values of the bytes that INIT_CB and ENCODE_IDX pack. -/

namespace Sys2Proof.Machine

/-! ## Byte strings (R10) -/

theorem toNat_le16 (v : BitVec 16) : (le16 v)[0].toNat + 256 * (le16 v)[1].toNat = v.toNat := by
  have hlt := v.isLt
  change (v.extractLsb' 0 8).toNat + 256 * (v.extractLsb' 8 8).toNat = v.toNat
  simp only [BitVec.extractLsb'_toNat, Nat.shiftRight_eq_div_pow]
  omega

theorem toNat_le32 (v : Word) :
    (le32 v)[0].toNat + 256 * (le32 v)[1].toNat + 65536 * (le32 v)[2].toNat + 16777216 * (le32 v)[3].toNat =
      v.toNat := by
  have hlt := v.isLt
  change (v.extractLsb' 0 8).toNat + 256 * (v.extractLsb' 8 8).toNat + 65536 * (v.extractLsb' 16 8).toNat +
    16777216 * (v.extractLsb' 24 8).toNat = v.toNat
  simp only [BitVec.extractLsb'_toNat, Nat.shiftRight_eq_div_pow]
  omega

theorem toNat_be32 (v : Word) :
    (be32 v)[3].toNat + 256 * (be32 v)[2].toNat + 65536 * (be32 v)[1].toNat + 16777216 * (be32 v)[0].toNat =
      v.toNat :=
  toNat_le32 v

theorem be32_injective : Function.Injective be32 := fun v w h =>
  BitVec.eq_of_toNat_eq (by rw [← toNat_be32 v, ← toNat_be32 w, h])

theorem joinBytes_right_inj {n m : Nat} (b : Bytes n) {c c' : Bytes m} : joinBytes b c = joinBytes b c' ↔ c = c' := by
  rw [← Vector.toList_inj, toList_joinBytes, toList_joinBytes, List.append_cancel_left_eq, Vector.toList_inj]

/-! ## Bit length and leading zeros (R150) -/

/-- The bit length of `s` is the least width that holds `s`; this fixes it, 0 included. -/
theorem bitLength_le_iff {s : BitVec 64} {k : Nat} : bitLength s ≤ k ↔ s.toNat < 2 ^ k := by
  by_cases hs : s = 0
  · simp [bitLength, hs]
  · have hne : s.toNat ≠ 0 := mt (BitVec.eq_of_toNat_eq (y := 0)) hs
    rw [bitLength, if_neg hs, Nat.add_comm, Nat.succ_le_iff, Nat.log2_lt hne]

theorem bitLength_le (s : BitVec 64) : bitLength s ≤ 64 := bitLength_le_iff.2 s.isLt

theorem toNat_lt_two_pow_bitLength (s : BitVec 64) : s.toNat < 2 ^ bitLength s := bitLength_le_iff.1 (Nat.le_refl _)

theorem bitLength_pos {s : BitVec 64} (hs : s ≠ 0) : 0 < bitLength s := by
  rw [bitLength, if_neg hs]
  omega

theorem two_pow_bitLength_sub_one_le {s : BitVec 64} (hs : s ≠ 0) : 2 ^ (bitLength s - 1) ≤ s.toNat := by
  have hpos := bitLength_pos hs
  have hlong : ¬bitLength s ≤ bitLength s - 1 := by omega
  exact Nat.not_lt.1 (mt bitLength_le_iff.2 hlong)

/-- Settles O23. Both powers follow from `bitLength_le_iff`, at the bit length and one below it. -/
theorem bitLengthBracketsTheSequence : Obligations.BitLengthBracketsTheSequence :=
  ⟨by decide, by decide, fun s hs => ⟨bitLength_pos hs, bitLength_le s, two_pow_bitLength_sub_one_le hs,
    toNat_lt_two_pow_bitLength s, rfl⟩⟩

/-! ## The sequence word (R151, R152) -/

/-- A shift of 64 or more leaves nothing, as the quotient does. -/
theorem toNat_shr (v : BitVec 64) (k : Nat) : (shr v k).toNat = v.toNat / 2 ^ k := by
  by_cases hk : 64 ≤ k
  · have hlt : v.toNat < 2 ^ k := Nat.lt_of_lt_of_le v.isLt (Nat.pow_le_pow_right (by decide) hk)
    rw [shr, if_pos hk, Nat.div_eq_of_lt hlt]
    rfl
  · rw [shr, if_neg hk, BitVec.toNat_ushiftRight, Nat.shiftRight_eq_div_pow]

theorem toNat_seqWord_true (s : BitVec 64) : (seqWord true s).toNat = s.toNat / 2 ^ (64 - bitLength s) % 2 ^ 32 := by
  rw [seqWord, BitVec.toNat_setWidth, toNat_shr]
  rfl

@[simp] theorem seqWord_false (s : BitVec 64) : seqWord false s = 0 :=
  (by decide : (shr 0 8).setWidth 32 = (0 : Word))

@[simp] theorem seqWord_true_zero : seqWord true 0 = 0 := rfl

theorem toNat_seqWord (p : Bool) (s : BitVec 64) :
    (seqWord p s).toNat = if p then s.toNat / 2 ^ (64 - bitLength s) % 2 ^ 32 else 0 := by
  cases p with
  | false => rw [seqWord_false]; rfl
  | true => exact toNat_seqWord_true s

/-- The shift is at least 32 here, so it moves every bit out (R159). -/
theorem seqWord_true_of_lt {s : BitVec 64} (h : s.toNat < 2 ^ 32) : seqWord true s = 0 := by
  have hlen : bitLength s ≤ 32 := bitLength_le_iff.2 h
  have hshift : s.toNat < 2 ^ (64 - bitLength s) :=
    Nat.lt_of_lt_of_le h (Nat.pow_le_pow_right (by decide) (by omega))
  apply BitVec.eq_of_toNat_eq
  rw [toNat_seqWord_true, Nat.div_eq_of_lt hshift]
  rfl

/-- The shift leaves the top `2 * bitLength s - 64` bits of a long sequence (R159). -/
theorem toNat_seqWord_true_of_le {s : BitVec 64} (h : 2 ^ 32 ≤ s.toNat) :
    (seqWord true s).toNat = s.toNat / 2 ^ (bitLength s - (2 * bitLength s - 64)) % 2 ^ 32 := by
  have hlong : ¬bitLength s ≤ 32 := mt bitLength_le_iff.1 (Nat.not_lt.2 h)
  have hlen := bitLength_le s
  rw [toNat_seqWord_true, show bitLength s - (2 * bitLength s - 64) = 64 - bitLength s by omega]

theorem encodeCounter_congr_seqWord {p q : Bool} {s s' : BitVec 64} (h : seqWord p s = seqWord q s') (i : Nat) :
    encodeCounter i p s = encodeCounter i q s' := by
  rw [encodeCounter, h, encodeCounter]

/-- Settles O25. The four clauses go through the value of the sequence word; `2 ^ 63` is shifted by 0, and its low 32
bits are 0. -/
theorem smallSequencesContributeNothing : Obligations.SmallSequencesContributeNothing := by
  refine ⟨fun s => seqWord_true_of_lt, fun s => toNat_seqWord_true_of_le, by decide, fun i s => ⟨?_, rfl, rfl⟩⟩
  exact encodeCounter_congr_seqWord ((seqWord_false s).trans seqWord_true_zero.symm) i

/-! ## The packed nonce and the counter field (R153, R154) -/

/-- Settles O22. The bytes are those of three little-endian fields. -/
theorem noncePackingByteByByte : Obligations.NoncePackingByteByByte := by
  intro n r b
  have hms : b 0 + 256 * b 1 = n.toNat % 1000 := by
    refine (toNat_le16 (BitVec.ofNat 16 (n.toNat % 1000))).trans ?_
    rw [BitVec.toNat_ofNat]
    omega
  have hsec := toNat_le32 (BitVec.ofNat 32 (n.toNat / 1000))
  rw [BitVec.toNat_ofNat] at hsec
  exact ⟨hms, by omega, toNat_le16 r, hsec⟩

/-- Settles O24. The bytes are those of two big-endian words, the sequence word and the index. -/
theorem counterPackingByteByByte : Obligations.CounterPackingByteByByte := by
  intro i p s b
  have hseq := toNat_be32 (seqWord p s)
  have hidx := toNat_be32 (BitVec.ofNat 32 i)
  rw [toNat_seqWord] at hseq
  rw [BitVec.toNat_ofNat] at hidx
  exact ⟨hseq, hidx⟩

/-! ## Distinct counter blocks (R160) -/

theorem encodeCounter_eq_iff {i j : Nat} {p : Bool} {s : BitVec 64} :
    encodeCounter i p s = encodeCounter j p s ↔ i % 2 ^ 32 = j % 2 ^ 32 := by
  rw [encodeCounter, encodeCounter, joinBytes_right_inj, be32_injective.eq_iff, ← BitVec.toNat_inj,
    BitVec.toNat_ofNat, BitVec.toNat_ofNat]

theorem lt_two_pow_of_lt_blockCount {m i : Nat} (hm : m < 2 ^ 32) (hi : i < blockCount m) : i < 2 ^ 32 := by
  rw [blockCount] at hi
  omega

/-- Settles O26. A packet has fewer than `2 ^ 32` blocks, so its indexes are equal when they agree modulo `2 ^ 32`. -/
theorem counterBlocksOfAPacketAreDistinct : Obligations.CounterBlocksOfAPacketAreDistinct := by
  refine ⟨fun i j p s => encodeCounter_eq_iff, fun m i j h p s hm hi hj heq => ?_⟩
  have hmod := encodeCounter_eq_iff.1 ((joinBytes_right_inj h).1 heq)
  rwa [Nat.mod_eq_of_lt (lt_two_pow_of_lt_blockCount hm hi), Nat.mod_eq_of_lt (lt_two_pow_of_lt_blockCount hm hj)]
    at hmod

/-! ## INIT_CB and ENCODE_IDX (R155, R156) -/

theorem exec_initCb (s : State) : exec .initCb s = .next (s.setHeader s.packedNonce).complete := rfl

theorem exec_encodeIdx (s : State) :
    exec .encodeIdx s = .next (s.setCounter (encodeCounter s.idx.toNat s.ctrl.seqPresent s.seq)).complete := rfl

/-- Settles O19. Setting the header and completing touch CB[0..8), DONE and the phase alone. -/
theorem initCbPacksTheNonce : Obligations.InitCbPacksTheNonce := exec_initCb

/-- Settles O21. Setting the counter field and completing touch CB[8..16), DONE and the phase alone. -/
theorem encodeIdxPacksTheCounter : Obligations.EncodeIdxPacksTheCounter := exec_encodeIdx

end Sys2Proof.Machine

/-! Proofs about framing (R200 to R205): the header that a successful ENCRYPT leaves in front of its output, and when
two headers are equal. -/

namespace Sys2Proof.Machine

/-! ## The header of a successful ENCRYPT (R173, R204) -/

/-- The state after ENCRYPT's action A2, where the header write succeeds (R173, R174). -/
def State.withHeaderWritten (s : State) : State :=
  { s.encryptStart with mem := Memory.storeBytes s.mem s.dst s.packedNonce.toList }

theorem State.bytes_withHeaderWritten (s : State) :
    Memory.bytes s.withHeaderWritten.mem s.dst 8 = s.packedNonce.toList := by
  have hback := Memory.bytes_storeBytes s.mem s.dst s.packedNonce.toList
  rwa [Vector.length_toList] at hback

/-- An ENCRYPT that ends without an error has written its header, and then changed memory behind the header alone. -/
theorem execEncrypt_of_success {s t : State} (h : execEncrypt s = .next t) (hok : t.status.err = false) :
    ∃ u, Change (s.dst + 8) (s.dst + 8 + s.length) s.withHeaderWritten u ∧
      t = u.finishStream s.length (s.length + 8) := by
  have hnoError (c : ErrCode) (u : State) : .next (u.failStream c) ≠ (.next t : Host.Outcome State Fault Refusal) := by
    rintro ⟨⟩
    simp at hok
  unfold execEncrypt at h
  cases hcheck : encryptCheck s with
  | some c =>
    rw [hcheck] at h
    exact absurd h (hnoError c s)
  | none =>
    rw [hcheck] at h
    rcases State.writeThen_cases s.encryptStart s.dst s.packedNonce.toList (State.failStream .bus)
      (fun s' => streamBlocks s.encryptJob (blockCount s.encryptJob.bodyLen) 0 s') with
      ⟨-, hwrite⟩ | ⟨-, hwrite⟩ | ⟨-, hwrite⟩ | ⟨-, hwrite⟩ <;> rw [hwrite] at h
    · change (streamBlocks s.encryptJob _ 0 s.withHeaderWritten).andThen _ = _ at h
      rcases streamBlocks_change (j := s.encryptJob) (blockCount s.encryptJob.bodyLen) 0 (by omega)
        s.withHeaderWritten with ⟨u, hloop, hchange, -⟩ | ⟨u, hloop, -⟩ | hloop | hloop <;> rw [hloop] at h
      · cases h
        exact ⟨u, hchange, rfl⟩
      · exact absurd h (hnoError .bus u)
      · cases h
      · cases h
    · exact absurd h (hnoError .bus _)
    · cases h
    · cases h

theorem encrypt_bytes_header {s t : State} (h : exec .encrypt s = .next t) (hok : t.status.err = false) :
    Memory.bytes t.mem s.dst 8 = s.packedNonce.toList := by
  obtain ⟨u, hchange, rfl⟩ := execEncrypt_of_success h hok
  rw [State.finishStream_mem, ← s.bytes_withHeaderWritten]
  exact Memory.bytes_congr fun i hi => hchange.outside _ (by omega)

/-- Settles O41. The header is written first, and the block loop writes behind it. -/
theorem encryptHeaderIsThePackedNonce : Obligations.EncryptHeaderIsThePackedNonce :=
  fun _ _ h _ hok => encrypt_bytes_header h hok

/-! ## Equal headers (R205) -/

theorem le16_injective : Function.Injective le16 := fun v w h =>
  BitVec.eq_of_toNat_eq (by rw [← toNat_le16 v, ← toNat_le16 w, h])

theorem le32_injective : Function.Injective le32 := fun v w h =>
  BitVec.eq_of_toNat_eq (by rw [← toNat_le32 v, ← toNat_le32 w, h])

theorem joinBytes_inj {n m : Nat} {b b' : Bytes n} {c c' : Bytes m} :
    joinBytes b c = joinBytes b' c' ↔ b = b' ∧ c = c' := by
  rw [← Vector.toList_inj, toList_joinBytes, toList_joinBytes, List.append_eq_append_iff_of_size_eq_left (by simp),
    Vector.toList_inj, Vector.toList_inj]

/-- The milliseconds below 1000 and the low 32 bits of the seconds are the mixed-radix digits of the nonce modulo
`1000 * 2 ^ 32` (R153). -/
theorem mod_thousand_mul_two_pow_eq_iff {a b : Nat} :
    a % (1000 * 2 ^ 32) = b % (1000 * 2 ^ 32) ↔ a % 1000 = b % 1000 ∧ a / 1000 % 2 ^ 32 = b / 1000 % 2 ^ 32 := by
  rw [Nat.mod_mul, Nat.mod_mul]
  omega

theorem packNonce_eq_iff {n n' : BitVec 64} {r r' : BitVec 16} :
    packNonce n r = packNonce n' r' ↔ n.toNat % (1000 * 2 ^ 32) = n'.toNat % (1000 * 2 ^ 32) ∧ r = r' := by
  have hms : BitVec.ofNat 16 (n.toNat % 1000) = BitVec.ofNat 16 (n'.toNat % 1000) ↔
      n.toNat % 1000 = n'.toNat % 1000 := by
    rw [← BitVec.toNat_inj, BitVec.toNat_ofNat, BitVec.toNat_ofNat]
    omega
  have hsec : BitVec.ofNat 32 (n.toNat / 1000) = BitVec.ofNat 32 (n'.toNat / 1000) ↔
      n.toNat / 1000 % 2 ^ 32 = n'.toNat / 1000 % 2 ^ 32 := by
    rw [← BitVec.toNat_inj, BitVec.toNat_ofNat, BitVec.toNat_ofNat]
  rw [packNonce, packNonce, joinBytes_inj, joinBytes_inj, le16_injective.eq_iff, le16_injective.eq_iff,
    le32_injective.eq_iff, hms, hsec, mod_thousand_mul_two_pow_eq_iff, and_right_comm]

/-- Settles O27. The packing keeps the nonce's two digits and the random value apart, and a successful ENCRYPT's first
eight output bytes are the packing. -/
theorem headersDifferWhenNoncesDo : Obligations.HeadersDifferWhenNoncesDo := by
  refine ⟨fun n n' r r' => packNonce_eq_iff, fun s t s' t' h _ hok h' _ hok' => ?_⟩
  have hheader : Memory.bytes t.mem s.dstAddr.toNat 8 = s.packedNonce.toList := encrypt_bytes_header h hok
  have hheader' : Memory.bytes t'.mem s'.dstAddr.toNat 8 = s'.packedNonce.toList := encrypt_bytes_header h' hok'
  rw [hheader, hheader', Vector.toList_inj]
  exact packNonce_eq_iff

end Sys2Proof.Machine

/-! Proofs about exceptions (R228): a host write that arrives while BUSY = 1 is dropped. -/

namespace Sys2Proof.Machine

/-! ## A guarded write while a command runs (R51, R228) -/

/-- The offsets of CMD and of the read-write registers other than STATUS are aligned, inside the window, and hold guarded
registers. -/
theorem regAt_guarded :
    ∀ offset ∈ [0x00, 0x08, 0x0C, 0x10, 0x14, 0x18, 0x20, 0x24, 0x28, 0x2C, 0x30, 0x38],
      offset % 4 = 0 ∧ offset < 256 ∧ (regAt (offset / 4)).guarded = true := by decide

/-- OVR is not a source of the interrupt (R55). -/
@[simp] theorem State.irq_dropWrite (s : State) : s.dropWrite.irq = s.irq := rfl

/-- A write to a guarded register while a command runs sets OVR and does nothing else. -/
theorem step_hostWrite_of_guarded_of_busy {s : State} {offset : Nat} {v : Word} {rest : List Event}
    (h : s.events = .hostWrite (s.platform.regBase + offset) 4 v :: rest) (haligned : offset % 4 = 0)
    (hinside : offset < 256) (hguarded : (regAt (offset / 4)).guarded = true) (hbusy : s.phase ≠ .idle) :
    step s = .next (State.dropWrite { s with events := rest }) :=
  (step_hostWrite h haligned hinside).trans
    (congrArg Host.Outcome.next (writeReg_of_guarded_of_busy v hguarded hbusy))

/-- Settles O8. The twelve offsets hold guarded registers, and a dropped write changes OVR alone, which is no part of the
interrupt level. -/
theorem operandWritesWhileBusyAreDropped : Obligations.OperandWritesWhileBusyAreDropped := by
  intro s offset v rest hevents hbusy hoffset
  obtain ⟨haligned, hinside, hguarded⟩ := regAt_guarded offset hoffset
  exact ⟨_, step_hostWrite_of_guarded_of_busy hevents haligned hinside hguarded hbusy, rfl,
    State.irq_dropWrite { s with events := rest }⟩

end Sys2Proof.Machine

/-! Proofs about every command alike (R102, R132, R133, R231): how a command ends, and what it leaves alone. -/

namespace Sys2Proof.Machine

/-! ## How a command ends (R132, R133, R173, R175) -/

/-- Everything the end of a command can do: it comes after changes of memory in [lo, hi) alone, and is a completion or
an error, of a stream command or of another. -/
inductive Ending (lo hi : Nat) (s : State) : State → Prop
  | complete {u : State} (h : Change lo hi s u) : Ending lo hi s u.complete
  | raiseError {u : State} (h : Change lo hi s u) (c : ErrCode) : Ending lo hi s (u.raiseError c)
  | finishStream {u : State} (h : Change lo hi s u) (m n : Nat) : Ending lo hi s (u.finishStream m n)
  | failStream {u : State} (h : Change lo hi s u) (c : ErrCode) : Ending lo hi s (u.failStream c)

section

variable {lo hi : Nat} {s t : State}

theorem Ending.weaken {lo' hi' : Nat} (h : Ending lo hi s t) (h1 : lo' ≤ lo) (h2 : hi ≤ hi') :
    Ending lo' hi' s t := by
  cases h with
  | complete h => exact .complete (h.weaken h1 h2)
  | raiseError h c => exact .raiseError (h.weaken h1 h2) c
  | finishStream h m n => exact .finishStream (h.weaken h1 h2) m n
  | failStream h c => exact .failStream (h.weaken h1 h2) c

theorem Ending.frame (h : Ending lo hi s t) : t = { s with
    status := t.status, phase := .idle, idx := t.idx, outLen := t.outLen, cb := t.cb, ks := t.ks, mem := t.mem
    draws := t.draws } := by
  cases h with
  | complete h | raiseError h c | finishStream h m n | failStream h c => rw [h.frame]; rfl

theorem Ending.outside (h : Ending lo hi s t) {x : Nat} (hx : x < lo ∨ hi ≤ x) :
    Memory.byte t.mem x = Memory.byte s.mem x := by
  cases h with
  | complete h | raiseError h c | finishStream h m n | failStream h c => exact h.outside x hx

theorem Ending.wf (h : Ending lo hi s t) (hwf : Memory.wf s.mem) : Memory.wf t.mem := by
  cases h with
  | complete h | raiseError h c | finishStream h m n | failStream h c => exact h.wf hwf

theorem Change.status (h : Change lo hi s t) : t.status = s.status := by
  rw [h.frame]

theorem Ending.status (h : Ending lo hi s t) : t.status = s.status.completed ∨ ∃ c, t.status = s.status.failed c := by
  cases h with
  | complete h | finishStream h m n => exact .inl (by simp [h.status])
  | raiseError h c | failStream h c => exact .inr ⟨c, by simp [h.status]⟩

theorem Ending.phase (h : Ending lo hi s t) : t.phase = .idle := by
  rw [h.frame]

end

/-! ## What a command does to memory and its flags (R133, R231) -/

theorem execGenKs_ending {s t : State} (h : execGenKs s = .next t) (a : Nat) : Ending a a s t := by
  rcases execGenKs_cases s with ⟨c, -, he⟩ | ⟨-, he⟩ <;> rw [he] at h <;> cases h
  · exact .raiseError (.refl ..) c
  · exact .complete (.of_frame rfl)

theorem execHdrLoad_ending {s t : State} (h : execHdrLoad s = .next t) (a : Nat) : Ending a a s t := by
  rcases execHdrLoad_cases s with ⟨c, -, he⟩ | ⟨-, ⟨-, he⟩ | ⟨-, he⟩ | ⟨-, he⟩⟩ <;> rw [he] at h <;> cases h
  · exact .raiseError (.refl ..) c
  · exact .complete (.of_frame rfl)
  · exact .raiseError (.refl ..) .bus

theorem execHdrStore_ending {s t : State} (h : execHdrStore s = .next t) : Ending s.dst (s.dst + 8) s t := by
  rcases execHdrStore_cases s with ⟨c, -, he⟩ | ⟨-, ⟨hv, he⟩ | ⟨hv, he⟩ | ⟨-, he⟩⟩ <;> rw [he] at h <;> cases h
  · exact .raiseError (.refl ..) c
  · have hlength : s.cb.header.toList.length = 8 := by simp
    exact .complete (.write (Nat.le_refl _) (by rw [hlength]) (by rwa [hlength]))
  · exact .raiseError (.scramble (Nat.le_refl _) (Nat.le_refl _) hv) .bus

theorem execEncrypt_ending {s t : State} (h : execEncrypt s = .next t) :
    Ending s.dst (s.dst + (s.length + 8)) s t := by
  rcases execEncrypt_cases s with ⟨c, -, he⟩ | ⟨-, u, hu, -, he | he⟩ | he | he <;> rw [he] at h <;> cases h
  · exact .failStream (.refl ..) c
  · exact .failStream hu .bus
  · exact .finishStream hu _ _

theorem execDecrypt_ending {s t : State} (h : execDecrypt s = .next t) :
    Ending s.dst (s.dst + (s.length - 8)) s t := by
  rcases execDecrypt_cases s with ⟨c, -, he⟩ | ⟨-, u, hu, he | he⟩ | he | he <;> rw [he] at h <;> cases h
  · exact .failStream (.refl ..) c
  · exact .failStream hu .bus
  · exact .finishStream hu _ _

/-- Every command ends as `Ending` says, its changes of memory inside its destination. -/
theorem exec_ending {i : Instr} {s t : State} (h : exec i s = .next t) :
    Ending (destination i s).base ((destination i s).base + (destination i s).len) s t := by
  cases i with
  | nop => cases h; exact .complete (.refl ..)
  | initCb => cases h; exact .complete (.of_frame rfl)
  | encodeIdx => cases h; exact .complete (.of_frame rfl)
  | genKs => exact execGenKs_ending h _
  | hdrLoad => exact execHdrLoad_ending h _
  | hdrStore => exact execHdrStore_ending h
  | encrypt => exact execEncrypt_ending h
  | decrypt => exact execDecrypt_ending h

end Sys2Proof.Machine

namespace Sys2Proof.Machine

/-! ## What every command leaves alone (R102, R132, R133) -/

theorem Ending.ovr {lo hi : Nat} {s t : State} (h : Ending lo hi s t) : t.status.ovr = s.status.ovr := by
  rcases h.status with hst | ⟨c, hst⟩ <;> rw [hst]
  · exact Status.completed_ovr _
  · exact Status.failed_ovr _ c

/-- Settles O46. A command's end keeps OVR, and everything before it changes buffers, draws and memory alone. -/
theorem commandsKeepHostRegisters : Obligations.CommandsKeepHostRegisters := by
  intro i s t h
  have hend := exec_ending h
  rw [← hend.ovr]
  exact hend.frame

theorem errNumber_bounds (c : ErrCode) : 1 ≤ (errNumber c).toNat ∧ (errNumber c).toNat ≤ 6 := by
  cases c <;> decide

/-- Settles O47. A completion sets DONE alone and an error ERR with its code; the interrupt follows from either. -/
theorem commandsEndWithDoneOrErr : Obligations.CommandsEndWithDoneOrErr := by
  intro i s t h hdone herr hcode
  have hend := exec_ending h
  have hctrl : t.ctrl = s.ctrl := by rw [hend.frame]
  rcases hend.status with hst | ⟨c, hst⟩
  · exact ⟨.inl (by simp [hst, herr, hcode]), by simp [State.irq, hctrl, hst]⟩
  · obtain ⟨hmin, hmax⟩ := errNumber_bounds c
    exact ⟨.inr (by simp [hst, hdone, hmin, hmax]), by simp [State.irq, hctrl, hst]⟩

/-- Settles O48. Every command's changes of memory lie in its destination. -/
theorem commandsWriteOnlyTheirDestination : Obligations.CommandsWriteOnlyTheirDestination := by
  intro i s t h a houtside
  refine (exec_ending h).outside ?_
  simp only [inRegion, decide_eq_false_iff_not] at houtside
  omega

/-! ## Which buffers a command changes (R49, R50) -/

theorem execGenKs_frame {s t : State} (h : execGenKs s = .next t) :
    t = { s with ks := t.ks, status := t.status, phase := .idle } := by
  rcases execGenKs_cases s with ⟨c, -, he⟩ | ⟨-, he⟩ <;> rw [he] at h <;> cases h <;> rfl

theorem execHdrLoad_frame {s t : State} (h : execHdrLoad s = .next t) :
    t = { s with cb := ⟨t.cb.header, s.cb.counter⟩, status := t.status, phase := .idle } := by
  rcases execHdrLoad_cases s with ⟨c, -, he⟩ | ⟨-, ⟨-, he⟩ | ⟨-, he⟩ | ⟨-, he⟩⟩ <;> rw [he] at h <;> cases h <;> rfl

theorem execHdrStore_frame {s t : State} (h : execHdrStore s = .next t) :
    t = { s with mem := t.mem, draws := t.draws, status := t.status, phase := .idle } := by
  rcases execHdrStore_cases s with ⟨c, -, he⟩ | ⟨-, ⟨-, he⟩ | ⟨-, he⟩ | ⟨-, he⟩⟩ <;> rw [he] at h <;> cases h
  · rfl
  · rfl
  · rw [State.scramble_eq]; rfl

/-- Settles O49. Each command but ENCRYPT and DECRYPT has a frame that names the one buffer it changes. -/
theorem onlyTheirCommandsChangeBuffers : Obligations.OnlyTheirCommandsChangeBuffers := by
  intro i s t h
  cases i with
  | nop | initCb | encodeIdx => cases h; simp
  | genKs => rw [execGenKs_frame h]; simp
  | hdrLoad => rw [execHdrLoad_frame h]; simp
  | hdrStore => rw [execHdrStore_frame h]; simp
  | encrypt | decrypt => simp

/-- Settles O50. The keystream is zeroed by the completion and by the error of a stream command alike. -/
theorem streamCommandsZeroKeystream : Obligations.StreamCommandsZeroKeystream := by
  rintro i s t (rfl | rfl) h
  · change execEncrypt s = .next t at h
    rcases execEncrypt_cases s with ⟨c, -, he⟩ | ⟨-, u, -, -, he | he⟩ | he | he <;> rw [he] at h <;> cases h <;> rfl
  · change execDecrypt s = .next t at h
    rcases execDecrypt_cases s with ⟨c, -, he⟩ | ⟨-, u, -, he | he⟩ | he | he <;> rw [he] at h <;> cases h <;> rfl

/-! ## OUT_LEN (R40, R179) -/

theorem execEncrypt_outLen {s t : State} (h : execEncrypt s = .next t) (herr : s.status.err = false) :
    t.outLen.toNat = if t.status.err then 0 else s.length + 8 := by
  rcases execEncrypt_cases s with ⟨c, -, he⟩ | ⟨hcheck, u, hu, -, he | he⟩ | he | he <;> rw [he] at h <;> cases h
  · simp
  · simp
  · have hlength : s.length + 8 < 2 ^ 32 := encryptCheck_length hcheck
    simpa [hu.status, herr] using hlength

theorem execDecrypt_outLen {s t : State} (h : execDecrypt s = .next t) (herr : s.status.err = false) :
    (t.status.err = false → 8 ≤ s.length) ∧ t.outLen.toNat = if t.status.err then 0 else s.length - 8 := by
  rcases execDecrypt_cases s with ⟨c, -, he⟩ | ⟨hcheck, u, hu, he | he⟩ | he | he <;> rw [he] at h <;> cases h
  · simp
  · simp
  · obtain ⟨-, hshort, -⟩ := decryptCheck_eq_none.1 hcheck
    have hlength : s.length - 8 < 2 ^ 32 := Nat.lt_of_le_of_lt (Nat.sub_le ..) s.len.isLt
    exact ⟨fun _ => hshort, by simpa [hu.status, herr] using hlength⟩

/-- Settles O40. The completion sets OUT_LEN to a length that the checks keep below `2 ^ 32`, and an error sets 0. -/
theorem outLenTellsTheOutputLength : Obligations.OutLenTellsTheOutputLength := by
  refine ⟨fun s t h herr => execEncrypt_outLen h herr, fun s t h herr => execDecrypt_outLen h herr,
    fun i s t hencrypt hdecrypt h => ?_⟩
  cases i with
  | nop | initCb | encodeIdx => cases h; rfl
  | genKs => rw [execGenKs_frame h]
  | hdrLoad => rw [execHdrLoad_frame h]
  | hdrStore => rw [execHdrStore_frame h]
  | encrypt => exact absurd rfl hencrypt
  | decrypt => exact absurd rfl hdecrypt

end Sys2Proof.Machine

/-! Proofs about the sequencer one move at a time (R53, R134, R174, R176): what every move of the engine side does. -/

namespace Sys2Proof.Machine

/-! ## The kinds of commands and of moves -/

/-- The body of a stream command (R200). -/
def State.job (s : State) : Instr → StreamJob
  | .decrypt => s.decryptJob
  | _ => s.encryptJob

/-- The checks of a stream command (R229). -/
def State.streamCheck (s : State) : Instr → Option ErrCode
  | .decrypt => decryptCheck s
  | _ => encryptCheck s

/-- The access to the header that a stream command makes at A2 (R174, R176). -/
def State.headerAccess (s : State) : Instr → Request
  | .decrypt => .read s.src 8
  | _ => .write s.dst s.cb.header.toList

/-- A stream command's action A1 (R174, R176). -/
def State.start (s : State) : Instr → State
  | .decrypt => { s with idx := 0 }
  | _ => s.encryptStart

/-- The output length of a stream command (R40). -/
def State.outLength (s : State) : Instr → Nat
  | .decrypt => s.length - 8
  | _ => s.length + 8

/-- ENCRYPT and DECRYPT: the commands that transform a body. -/
def streamInstrs : List Instr := [.encrypt, .decrypt]

/-- GEN_KS, HDR_LOAD and HDR_STORE: the commands that make one exchange, with the cipher or with data memory. -/
def exchangeInstrs : List Instr := [.genKs, .hdrLoad, .hdrStore]

/-- The check of a command of one exchange (R229). -/
def State.exchangeCheck (s : State) : Instr → Option ErrCode
  | .genKs => genKsCheck s
  | .hdrLoad => hdrLoadCheck s
  | _ => hdrStoreCheck s

/-- The position from which a command of one exchange makes it (R171, R201, R202). -/
def exchangeAction : Instr → Action
  | .genKs => .b2
  | _ => .a2

/-- The exchange of a command that makes one (R171, R201, R202). -/
def State.exchange (s : State) : Instr → Request
  | .genKs => .cipher s.keyBits s.cb.bytes
  | .hdrLoad => .read s.src 8
  | _ => .write s.dst s.cb.header.toList

/-- How many blocks the command of a word has (R172). -/
def State.blocks (s : State) (w : Word) : Nat :=
  match decodeWord w with
  | .ok .encrypt => blockCount s.length
  | .ok .decrypt => blockCount (s.length - 8)
  | _ => 0

/-- How many moves a command of so many blocks makes at most from a position on: an access or a cipher exchange is two,
the request and the answer, so that a block is seven (R174, R176; log 16). -/
def Running.movesLeft (r : Running) (blocks : Nat) : Nat :=
  (match r.action with
  | .a0 => 7 * blocks + 5
  | .a1 => 7 * blocks + 4
  | .a2 => 7 * blocks + 3
  | .b1 => 7 * (blocks - r.block) + 1
  | .b2 => max (7 * (blocks - r.block)) 3
  | .b3 => 7 * (blocks - r.block) - 2
  | .b4 => 7 * (blocks - r.block) - 4
  | .a3 => 1) - r.outstanding.elim 0 fun _ => 1

/-- Everything a move of the engine side may do while a command runs: it leaves the command running at a legal position
nearer to its end, with memory changed inside the data space alone; or ends it; or is refused at a device buffer. -/
inductive Moves (r : Running) (s : State) : Host.Outcome State Fault Refusal → Prop
  | goesOn {u : State} {r' : Running} (hchange : Change 0 dataSpaceBytes s u) (hword : r'.word = r.word)
      (hlegal : r'.Legal u) (hless : r'.movesLeft (s.blocks r.word) < r.movesLeft (s.blocks r.word)) :
      Moves r s (.next { u with phase := .busy r' })
  | ends {t : State} (h : Ending 0 dataSpaceBytes s t) : Moves r s (.next t)
  | refused : Moves r s (.refused .deviceBuffer)

section

variable {s u : State} {r : Running} {i : Instr}

theorem Change.job {lo hi : Nat} (h : Change lo hi s u) (i : Instr) : u.job i = s.job i := by
  rw [h.frame]; rfl

theorem Change.streamCheck {lo hi : Nat} (h : Change lo hi s u) (i : Instr) : u.streamCheck i = s.streamCheck i := by
  rw [h.frame]; rfl

theorem State.start_change (s : State) (i : Instr) (lo hi : Nat) : Change lo hi s (s.start i) := by
  unfold State.start
  split <;> exact .of_frame rfl

theorem State.blocks_of_stream (hi : i ∈ streamInstrs) (hword : decodeWord r.word = .ok i) :
    s.blocks r.word = blockCount (s.job i).bodyLen := by
  simp only [streamInstrs, List.mem_cons, List.not_mem_nil, or_false] at hi
  rcases hi with rfl | rfl <;> simp [State.blocks, hword, State.job, State.encryptJob, State.decryptJob]

theorem Running.legal_a0 (haction : r.action = .a0) (hnone : r.outstanding = none) : r.Legal s :=
  .inl ⟨haction, hnone⟩

theorem Running.legal_stream_iff (hi : i ∈ streamInstrs) (hword : decodeWord r.word = .ok i) :
    r.Legal s ↔ (r.action = .a0 ∧ r.outstanding = none) ∨ (s.streamCheck i = none ∧
      ((r.action = .a1 ∧ r.outstanding = none) ∨ (r.action = .a2 ∧ r.awaits (s.headerAccess i)) ∨
        r.streamLegal s (s.job i))) := by
  simp only [streamInstrs, List.mem_cons, List.not_mem_nil, or_false] at hi
  rcases hi with rfl | rfl <;> simp only [Running.Legal, hword] <;> rfl

/-- Both checks of a stream command keep its accesses inside the data space (R72). -/
theorem State.job_inSpace (h : s.streamCheck i = none) :
    (s.job i).inBase + (s.job i).bodyLen ≤ dataSpaceBytes ∧ (s.job i).outBase + (s.job i).bodyLen ≤ dataSpaceBytes := by
  have hencrypt (h : encryptCheck s = none) :
      s.encryptJob.inBase + s.encryptJob.bodyLen ≤ dataSpaceBytes ∧
        s.encryptJob.outBase + s.encryptJob.bodyLen ≤ dataSpaceBytes := by
    obtain ⟨-, hsrc, hdst, -⟩ := encryptCheck_eq_none.1 h
    simp only [State.encryptJob]
    omega
  cases i with
  | decrypt =>
    obtain ⟨-, hlen, hsrc, hdst, -⟩ := decryptCheck_eq_none.1 h
    simp only [State.job, State.decryptJob]
    omega
  | _ => exact hencrypt h

theorem Moves.read {a n : Nat} (hspace : a + n ≤ dataSpaceBytes)
    (hafter : Moves r s (afterRead r (Memory.bytes s.mem a n) s)) : Moves r s (readMove r a n s) := by
  have houtside := State.verdict_ne_outside (s := s) hspace
  unfold readMove
  cases hv : s.verdict a n with
  | ok => exact hafter
  | busError =>
    simp only [State.busError]
    split
    · exact .ends (.failStream (.refl ..) .bus)
    · exact .ends (.failStream (.refl ..) .bus)
    · exact .ends (.raiseError (.refl ..) .bus)
  | device => exact .refused
  | outside => exact absurd hv houtside

theorem Moves.write {a : Nat} {bs : List Byte} (hspace : a + bs.length ≤ dataSpaceBytes)
    (hafter : Change 0 dataSpaceBytes s { s with mem := Memory.storeBytes s.mem a bs } →
      Moves r s (afterWrite r { s with mem := Memory.storeBytes s.mem a bs })) : Moves r s (writeMove r a bs s) := by
  have houtside := State.verdict_ne_outside (s := s) hspace
  unfold writeMove
  cases hv : s.verdict a bs.length with
  | ok => exact hafter (.write (Nat.zero_le _) hspace hv)
  | busError =>
    have hchange := Change.scramble (Nat.zero_le _) hspace hv
    simp only [State.busError]
    split
    · exact .ends (.failStream hchange .bus)
    · exact .ends (.failStream hchange .bus)
    · exact .ends (.raiseError hchange .bus)
  | device => exact .refused
  | outside => exact absurd hv houtside

theorem Moves.request {q : Request} (hnone : r.outstanding = none)
    (hlegal : Running.Legal { r with outstanding := some q } s) (hpos : 0 < r.movesLeft (s.blocks r.word)) :
    Moves r s (.next (s.request r q)) := by
  refine .goesOn (.refl ..) rfl hlegal ?_
  simp only [Running.movesLeft, hnone, Option.elim_none, Option.elim_some] at hpos ⊢
  omega

theorem Moves.afterCheck {fail : ErrCode → State → State} {next : Action} {check : Option ErrCode}
    (hfail : ∀ c, Ending 0 dataSpaceBytes s (fail c s))
    (hnext : check = none → Moves r s (.next (s.goTo r next))) : Moves r s (afterCheck s r fail next check) := by
  cases check with
  | none => exact hnext rfl
  | some c => exact .ends (hfail c)

/-! ## The stream commands, move by move (R174, R176) -/

section

variable (hi : i ∈ streamInstrs) (hword : decodeWord r.word = .ok i) (hcheck : s.streamCheck i = none)
include hi hword hcheck

/-- A move of a stream command to a later position of its action list. -/
theorem Moves.toPosition {r' : Running} (hchange : Change 0 dataSpaceBytes s u) (hsame : r'.word = r.word)
    (hlegal : (r'.action = .a1 ∧ r'.outstanding = none) ∨ (r'.action = .a2 ∧ r'.awaits (u.headerAccess i)) ∨
      r'.streamLegal u (s.job i))
    (hless : r'.movesLeft (blockCount (s.job i).bodyLen) < r.movesLeft (blockCount (s.job i).bodyLen)) :
    Moves r s (.next { u with phase := .busy r' }) := by
  rw [← State.blocks_of_stream hi hword] at hless
  refine .goesOn hchange hsame ((Running.legal_stream_iff hi (by rw [hsame, hword])).2 (.inr ⟨?_, ?_⟩)) hless
  · rw [hchange.streamCheck, hcheck]
  · rwa [hchange.job]

/-- A move of a stream command to a place in its block loop, or to A3. -/
theorem Moves.toStream {r' : Running} (hchange : Change 0 dataSpaceBytes s u) (hsame : r'.word = r.word)
    (hlegal : r'.streamLegal u (s.job i))
    (hless : r'.movesLeft (blockCount (s.job i).bodyLen) < r.movesLeft (blockCount (s.job i).bodyLen)) :
    Moves r s (.next { u with phase := .busy r' }) :=
  Moves.toPosition hi hword hcheck hchange hsame (.inr (.inr hlegal)) hless

theorem Moves.nextBlock {r' : Running} {b : Nat} (hchange : Change 0 dataSpaceBytes s u) (hsame : r'.word = r.word)
    (hless : 7 * (blockCount (s.job i).bodyLen - b) + 1 < r.movesLeft (blockCount (s.job i).bodyLen)) :
    Moves r s (.next (u.nextBlock r' (s.job i) b)) := by
  unfold State.nextBlock
  split
  · rename_i hb
    refine Moves.toStream hi hword hcheck (r' := { r' with block := b, action := .b1, outstanding := none }) hchange
      hsame (.inl ⟨hb, .inl ⟨rfl, rfl⟩⟩) ?_
    simpa [Running.movesLeft] using hless
  · refine Moves.toStream hi hword hcheck (r' := { r' with action := .a3, outstanding := none }) hchange hsame
      (.inr ⟨rfl, rfl⟩) ?_
    simp only [Running.movesLeft, Option.elim_none] at hless ⊢
    omega

theorem streamMove_moves (hnone : r.outstanding = none) (hlegal : r.streamLegal s (s.job i)) (outLen : Nat) :
    Moves r s (streamMove (s.job i) outLen r s) := by
  have hblocks := State.blocks_of_stream (s := s) hi hword
  rcases hlegal with ⟨hb, ⟨ha, -⟩ | ⟨ha, -⟩ | ⟨ha, -⟩ | ⟨ha, hlatch, -⟩⟩ | ⟨ha, -⟩ <;> simp only [streamMove, ha]
  · refine Moves.toStream hi hword hcheck (u := s.startBlock r.block) (.of_frame rfl) rfl
      (.inl ⟨hb, .inr (.inl ⟨rfl, .inl rfl⟩)⟩) ?_
    simp only [Running.movesLeft, ha, hnone, Option.elim_none]
    omega
  · refine Moves.toStream hi hword hcheck (r' := { r with outstanding := some _ }) (.refl ..) rfl
      (.inl ⟨hb, .inr (.inl ⟨ha, .inr rfl⟩)⟩) ?_
    simp only [Running.movesLeft, ha, hnone, Option.elim_none, Option.elim_some]
    omega
  · refine Moves.toStream hi hword hcheck (r' := { r with outstanding := some _ }) (.refl ..) rfl
      (.inl ⟨hb, .inr (.inr (.inl ⟨ha, .inr rfl⟩))⟩) ?_
    simp only [Running.movesLeft, ha, hnone, Option.elim_none, Option.elim_some]
    omega
  · refine Moves.toStream hi hword hcheck (r' := { r with outstanding := some _ }) (.refl ..) rfl
      (.inl ⟨hb, .inr (.inr (.inr ⟨ha, hlatch, .inr rfl⟩))⟩) ?_
    simp only [Running.movesLeft, ha, hnone, Option.elim_none, Option.elim_some]
    omega
  · exact .ends (.finishStream (.refl ..) _ _)

omit hcheck in
/-- Past A2 the sequencer is in the block loop, the same for both stream commands. -/
theorem sequencerMove_of_stream (hlegal : r.streamLegal s (s.job i)) :
    sequencerMove r s = streamMove (s.job i) (s.outLength i) r s := by
  simp only [streamInstrs, List.mem_cons, List.not_mem_nil, or_false] at hi
  rcases hi with rfl | rfl <;> simp only [sequencerMove, hword, encryptMove, decryptMove] <;>
    rcases hlegal with ⟨-, ⟨ha, -⟩ | ⟨ha, -⟩ | ⟨ha, -⟩ | ⟨ha, -⟩⟩ | ⟨ha, -⟩ <;> rw [ha] <;> rfl

omit hcheck in
theorem cipherMove_of_stream (kb : Word) (b : Block) :
    cipherMove r kb b s = .next (({ s with ks := pCipher s.cipher kb b } : State).goTo r .b3) := by
  simp only [streamInstrs, List.mem_cons, List.not_mem_nil, or_false] at hi
  rcases hi with rfl | rfl <;> simp only [cipherMove, hword]

omit hcheck in
theorem afterRead_of_stream (ha : r.action = .b3) (bs : List Byte) :
    afterRead r bs s = .next (s.goTo { r with latch := bs } .b4) := by
  simp only [streamInstrs, List.mem_cons, List.not_mem_nil, or_false] at hi
  rcases hi with rfl | rfl <;> simp only [afterRead, hword, ha]

omit hcheck in
theorem afterWrite_of_stream (ha : r.action = .b4) :
    afterWrite r s = .next (s.nextBlock { r with latch := [] } (s.job i) (r.block + 1)) := by
  simp only [streamInstrs, List.mem_cons, List.not_mem_nil, or_false] at hi
  rcases hi with rfl | rfl <;> simp only [afterWrite, hword, ha] <;> rfl

/-- From any place in the block loop, or A3, the engine's move is legal. -/
theorem engineMove_of_stream (hphase : s.phase = .busy r) (hlegal : r.streamLegal s (s.job i)) :
    Moves r s (engineMove s) := by
  have hsequencer (hnone : r.outstanding = none) : Moves r s (engineMove s) := by
    simp only [engineMove, hphase, hnone, sequencerMove_of_stream hi hword hlegal]
    exact streamMove_moves hi hword hcheck hnone hlegal _
  obtain ⟨hin, hout⟩ := State.job_inSpace hcheck
  rcases hlegal with
    ⟨hb, ⟨-, hnone⟩ | ⟨ha, hnone | hsome⟩ | ⟨ha, hnone | hsome⟩ | ⟨ha, hlatch, hnone | hsome⟩⟩ | ⟨-, hnone⟩
  · exact hsequencer hnone
  · exact hsequencer hnone
  · simp only [engineMove, hphase, hsome, cipherMove_of_stream hi hword]
    refine Moves.toStream hi hword hcheck (u := { s with ks := _ }) (.of_frame rfl) rfl
      (.inl ⟨hb, .inr (.inr (.inl ⟨rfl, .inl rfl⟩))⟩) ?_
    simp only [Running.movesLeft, ha, hsome, Option.elim_none, Option.elim_some]
    omega
  · exact hsequencer hnone
  · have hinside := block_inside hb
    simp only [engineMove, hphase, hsome]
    refine Moves.read (by omega) ?_
    rw [afterRead_of_stream hi hword ha]
    refine Moves.toStream hi hword hcheck (u := s) (.refl ..) rfl
      (.inl ⟨hb, .inr (.inr (.inr ⟨rfl, Memory.length_bytes .., .inl rfl⟩))⟩) ?_
    simp only [Running.movesLeft, ha, hsome, Option.elim_none, Option.elim_some]
    omega
  · exact hsequencer hnone
  · have hinside := block_inside hb
    have hlength : (xorBytes r.latch (s.ks.toList.take (blockLen (s.job i).bodyLen r.block))).length =
        blockLen (s.job i).bodyLen r.block := by
      have hle := blockLen_le (s.job i).bodyLen r.block
      simp [hlatch, hle]
    simp only [engineMove, hphase, hsome]
    refine Moves.write (by omega) fun hchange => ?_
    rw [afterWrite_of_stream hi hword ha]
    refine Moves.nextBlock hi hword hcheck hchange rfl ?_
    simp only [Running.movesLeft, ha, hsome, Option.elim_some]
    omega
  · exact hsequencer hnone

/-! The head of a stream command's action list (R174, R176). -/

omit hcheck in
theorem sequencerMove_a0_of_stream (ha : r.action = .a0) :
    sequencerMove r s = afterCheck s r State.failStream .a1 (s.streamCheck i) := by
  simp only [streamInstrs, List.mem_cons, List.not_mem_nil, or_false] at hi
  rcases hi with rfl | rfl <;> simp only [sequencerMove, hword, encryptMove, decryptMove, ha] <;> rfl

omit hcheck in
theorem sequencerMove_a1_of_stream (ha : r.action = .a1) : sequencerMove r s = .next ((s.start i).goTo r .a2) := by
  simp only [streamInstrs, List.mem_cons, List.not_mem_nil, or_false] at hi
  rcases hi with rfl | rfl <;> simp only [sequencerMove, hword, encryptMove, decryptMove, ha] <;> rfl

omit hcheck in
theorem sequencerMove_a2_of_stream (ha : r.action = .a2) :
    sequencerMove r s = .next (s.request r (s.headerAccess i)) := by
  simp only [streamInstrs, List.mem_cons, List.not_mem_nil, or_false] at hi
  rcases hi with rfl | rfl <;> simp only [sequencerMove, hword, encryptMove, decryptMove, ha] <;> rfl

/-- The header access of a stream command has been answered: the block loop begins. -/
theorem engineMove_header_answer (hphase : s.phase = .busy r) (ha : r.action = .a2)
    (hsome : r.outstanding = some (s.headerAccess i)) : Moves r s (engineMove s) := by
  have hless : 7 * (blockCount (s.job i).bodyLen - 0) + 1 < r.movesLeft (blockCount (s.job i).bodyLen) := by
    simp only [Running.movesLeft, ha, hsome, Option.elim_some]
    omega
  have hnext {u : State} (hchange : Change 0 dataSpaceBytes s u) : Moves r s (.next (u.nextBlock r (s.job i) 0)) :=
    Moves.nextBlock hi hword hcheck hchange rfl hless
  simp only [streamInstrs, List.mem_cons, List.not_mem_nil, or_false] at hi
  rcases hi with rfl | rfl <;> simp only [engineMove, hphase, hsome, State.headerAccess]
  · obtain ⟨-, -, hdst, -⟩ := encryptCheck_eq_none.1 hcheck
    refine Moves.write (by simp; omega) fun hchange => ?_
    simp only [afterWrite, hword, ha]
    exact hnext hchange
  · obtain ⟨-, hlength, hsrc, -⟩ := decryptCheck_eq_none.1 hcheck
    refine Moves.read (by omega) ?_
    simp only [afterRead, hword, ha]
    exact hnext (u := s.setHeader _) (.of_frame rfl)

end

/-! ## Every command, move by move -/

theorem engineMove_of_none (hphase : s.phase = .busy r) (hnone : r.outstanding = none) :
    engineMove s = sequencerMove r s := by
  simp only [engineMove, hphase, hnone]

theorem stream_moves (hi : i ∈ streamInstrs) (hword : decodeWord r.word = .ok i) (hphase : s.phase = .busy r)
    (hlegal : r.Legal s) : Moves r s (engineMove s) := by
  rcases (Running.legal_stream_iff hi hword).1 hlegal with
    ⟨ha, hnone⟩ | ⟨hcheck, ⟨ha, hnone⟩ | ⟨ha, hnone | hsome⟩ | hstream⟩
  · rw [engineMove_of_none hphase hnone, sequencerMove_a0_of_stream hi hword ha]
    refine Moves.afterCheck (fun c => .failStream (.refl ..) c) fun hcheck => ?_
    refine Moves.toPosition hi hword hcheck (.refl ..) rfl (.inl ⟨rfl, rfl⟩) ?_
    simp [Running.movesLeft, ha, hnone]
  · rw [engineMove_of_none hphase hnone, sequencerMove_a1_of_stream hi hword ha]
    refine Moves.toPosition hi hword hcheck (s.start_change i _ _) rfl (.inr (.inl ⟨rfl, .inl rfl⟩)) ?_
    simp [Running.movesLeft, ha, hnone]
  · rw [engineMove_of_none hphase hnone, sequencerMove_a2_of_stream hi hword ha]
    refine Moves.toPosition hi hword hcheck (r' := { r with outstanding := some _ }) (.refl ..) rfl
      (.inr (.inl ⟨ha, .inr rfl⟩)) ?_
    simp [Running.movesLeft, ha, hnone]
  · exact engineMove_header_answer hi hword hcheck hphase ha hsome
  · exact engineMove_of_stream hi hword hcheck hphase hstream

/-! The commands of one exchange, with the cipher or with data memory (R171, R201, R202). -/

section

variable (hi : i ∈ exchangeInstrs) (hword : decodeWord r.word = .ok i)
include hi hword

theorem Running.legal_exchange_iff : r.Legal s ↔ (r.action = .a0 ∧ r.outstanding = none) ∨
    (s.exchangeCheck i = none ∧
      ((r.action = exchangeAction i ∧ r.awaits (s.exchange i)) ∨ (r.action = .a3 ∧ r.outstanding = none))) := by
  simp only [exchangeInstrs, List.mem_cons, List.not_mem_nil, or_false] at hi
  rcases hi with rfl | rfl | rfl <;> simp only [Running.Legal, hword] <;> rfl

theorem State.blocks_of_exchange : s.blocks r.word = 0 := by
  simp only [exchangeInstrs, List.mem_cons, List.not_mem_nil, or_false] at hi
  rcases hi with rfl | rfl | rfl <;> simp only [State.blocks, hword]

theorem sequencerMove_a0_of_exchange (ha : r.action = .a0) :
    sequencerMove r s = afterCheck s r State.raiseError (exchangeAction i) (s.exchangeCheck i) := by
  simp only [exchangeInstrs, List.mem_cons, List.not_mem_nil, or_false] at hi
  rcases hi with rfl | rfl | rfl <;> simp only [sequencerMove, hword, genKsMove, hdrLoadMove, hdrStoreMove, ha] <;> rfl

theorem sequencerMove_request_of_exchange (ha : r.action = exchangeAction i) :
    sequencerMove r s = .next (s.request r (s.exchange i)) := by
  simp only [exchangeInstrs, List.mem_cons, List.not_mem_nil, or_false] at hi
  rcases hi with rfl | rfl | rfl <;> simp only [exchangeAction] at ha <;>
    simp only [sequencerMove, hword, genKsMove, hdrLoadMove, hdrStoreMove, ha] <;> rfl

theorem sequencerMove_a3_of_exchange (ha : r.action = .a3) : sequencerMove r s = .next s.complete := by
  simp only [exchangeInstrs, List.mem_cons, List.not_mem_nil, or_false] at hi
  rcases hi with rfl | rfl | rfl <;> simp only [sequencerMove, hword, genKsMove, hdrLoadMove, hdrStoreMove, ha]

omit hword in
theorem movesLeft_exchangeAction (hnone : r.outstanding = none) (ha : r.action = exchangeAction i) :
    r.movesLeft 0 = 3 := by
  simp only [exchangeInstrs, List.mem_cons, List.not_mem_nil, or_false] at hi
  rcases hi with rfl | rfl | rfl <;> simp [Running.movesLeft, ha, hnone, exchangeAction]

/-- A move of a command of one exchange to a later position of its action list. -/
theorem Moves.toExchange {r' : Running} (hcheck : s.exchangeCheck i = none) (hchange : Change 0 dataSpaceBytes s u)
    (hsame : r'.word = r.word)
    (hlegal : (r'.action = exchangeAction i ∧ r'.awaits (u.exchange i)) ∨ (r'.action = .a3 ∧ r'.outstanding = none))
    (hless : r'.movesLeft 0 < r.movesLeft 0) : Moves r s (.next { u with phase := .busy r' }) := by
  rw [← State.blocks_of_exchange hi hword (s := s)] at hless
  refine .goesOn hchange hsame ((Running.legal_exchange_iff hi (by rw [hsame, hword])).2 (.inr ⟨?_, hlegal⟩)) hless
  rw [hchange.frame]
  exact hcheck

/-- The exchange has been answered: only the completion is left. -/
theorem engineMove_exchange_answer (hphase : s.phase = .busy r) (hcheck : s.exchangeCheck i = none)
    (ha : r.action = exchangeAction i) (hsome : r.outstanding = some (s.exchange i)) : Moves r s (engineMove s) := by
  have hdone {u : State} (hchange : Change 0 dataSpaceBytes s u) : Moves r s (.next (u.goTo r .a3)) := by
    refine Moves.toExchange hi hword hcheck hchange rfl (.inr ⟨rfl, rfl⟩) ?_
    have hless := movesLeft_exchangeAction (r := { r with outstanding := none }) hi rfl ha
    simp only [Running.movesLeft, hsome, Option.elim_none, Option.elim_some] at hless ⊢
    omega
  simp only [exchangeInstrs, List.mem_cons, List.not_mem_nil, or_false] at hi
  rcases hi with rfl | rfl | rfl <;> simp only [exchangeAction] at ha <;>
    simp only [engineMove, hphase, hsome, State.exchange]
  · simp only [cipherMove, hword]
    exact hdone (u := { s with ks := _ }) (.of_frame rfl)
  · refine Moves.read (hdrLoadCheck_eq_none.1 hcheck) ?_
    simp only [afterRead, hword, ha]
    exact hdone (u := s.setHeader _) (.of_frame rfl)
  · refine Moves.write (by simpa using hdrStoreCheck_eq_none.1 hcheck) fun hchange => ?_
    simp only [afterWrite, hword, ha]
    exact hdone hchange

theorem exchange_moves (hphase : s.phase = .busy r) (hlegal : r.Legal s) : Moves r s (engineMove s) := by
  rcases (Running.legal_exchange_iff hi hword).1 hlegal with
    ⟨ha, hnone⟩ | ⟨hcheck, ⟨ha, hnone | hsome⟩ | ⟨ha, hnone⟩⟩
  · rw [engineMove_of_none hphase hnone, sequencerMove_a0_of_exchange hi hword ha]
    refine Moves.afterCheck (fun c => .raiseError (.refl ..) c) fun hcheck => ?_
    refine Moves.toExchange hi hword hcheck (.refl ..) rfl (.inl ⟨rfl, .inl rfl⟩) ?_
    rw [movesLeft_exchangeAction hi rfl rfl]
    simp [Running.movesLeft, ha, hnone]
  · rw [engineMove_of_none hphase hnone, sequencerMove_request_of_exchange hi hword ha]
    refine Moves.toExchange hi hword hcheck (r' := { r with outstanding := some _ }) (.refl ..) rfl
      (.inl ⟨ha, .inr rfl⟩) ?_
    have hmoves := movesLeft_exchangeAction hi hnone ha
    simp only [Running.movesLeft, hnone, Option.elim_none, Option.elim_some] at hmoves ⊢
    omega
  · exact engineMove_exchange_answer hi hword hphase hcheck ha hsome
  · rw [engineMove_of_none hphase hnone, sequencerMove_a3_of_exchange hi hword ha]
    exact .ends (.complete (.refl ..))

end

/-- A word is that of a stream command, of a command of one exchange, or of neither: ILLEGAL or of one action (R134). -/
theorem word_kinds (w : Word) : (∃ i ∈ streamInstrs, decodeWord w = .ok i) ∨
    (∃ i ∈ exchangeInstrs, decodeWord w = .ok i) ∨ ∀ i ∈ streamInstrs ++ exchangeInstrs, decodeWord w ≠ .ok i := by
  by_cases hstream : ∃ i ∈ streamInstrs, decodeWord w = .ok i
  · exact .inl hstream
  by_cases hexchange : ∃ i ∈ exchangeInstrs, decodeWord w = .ok i
  · exact .inr (.inl hexchange)
  refine .inr (.inr fun i hi hword => ?_)
  rcases List.mem_append.1 hi with hi | hi
  · exact hstream ⟨i, hi, hword⟩
  · exact hexchange ⟨i, hi, hword⟩

section

variable (hword : ∀ i ∈ streamInstrs ++ exchangeInstrs, decodeWord r.word ≠ .ok i)
include hword

/-- An ILLEGAL word and a command of one action stand at their only position. -/
theorem Running.legal_oneAction_iff : r.Legal s ↔ r.action = .a0 ∧ r.outstanding = none := by
  refine ⟨fun hlegal => ?_, .inl⟩
  rcases hlegal with ha0 | hlater
  · exact ha0
  · split at hlater
    case h_6 => exact hlater.elim
    all_goals exact absurd ‹_› (hword _ (by decide))

/-- They do all they do in one move (R134, R135). -/
theorem sequencerMove_of_oneAction : sequencerMove r s = runAccepted r.word s := by
  cases hdecode : decodeWord r.word with
  | error e => simp only [sequencerMove, runAccepted, hdecode]
  | ok i =>
    cases i with
    | nop | initCb | encodeIdx => simp only [sequencerMove, runAccepted, hdecode, exec]
    | _ => exact absurd hdecode (hword _ (by decide))

theorem oneAction_moves (hphase : s.phase = .busy r) (hlegal : r.Legal s) : Moves r s (engineMove s) := by
  obtain ⟨-, hnone⟩ := (Running.legal_oneAction_iff hword).1 hlegal
  rw [engineMove_of_none hphase hnone, sequencerMove]
  split
  · exact .ends (.raiseError (.refl ..) .illegal)
  · exact .ends (.complete (.refl ..))
  · exact .ends (.complete (.of_frame rfl))
  · exact .ends (.complete (.of_frame rfl))
  all_goals exact absurd ‹_› (hword _ (by decide))

end

/-- From a legal position every move of the engine side is of the three kinds of `Moves`. -/
theorem engineMove_moves (hphase : s.phase = .busy r) (hlegal : r.Legal s) : Moves r s (engineMove s) := by
  rcases word_kinds r.word with ⟨i, hi, hword⟩ | ⟨i, hi, hword⟩ | hword
  · exact stream_moves hi hword hphase hlegal
  · exact exchange_moves hi hword hphase hlegal
  · exact oneAction_moves hword hphase hlegal

/-! ## How many moves are left (R134) -/

theorem Running.movesLeft_le (r : Running) (blocks : Nat) : r.movesLeft blocks ≤ 7 * blocks + 5 := by
  rcases r with ⟨word, action, block, latch, outstanding⟩
  cases action <;> simp only [Running.movesLeft] <;> omega

theorem Running.movesLeft_pos_of_answer_due {blocks : Nat}
    (h : 1 < Running.movesLeft { r with outstanding := none } blocks) :
    0 < r.movesLeft blocks := by
  simp only [Running.movesLeft, Option.elim_none] at h ⊢
  cases r.outstanding <;> simp only [Option.elim_none, Option.elim_some] <;> omega

/-- At a legal position the command has not ended. -/
theorem Running.Legal.movesLeft_pos (h : r.Legal s) : 0 < r.movesLeft (s.blocks r.word) := by
  have hatEnd (ha : r.action = .a0 ∨ r.action = .a3) (hnone : r.outstanding = none) :
      0 < r.movesLeft (s.blocks r.word) := by
    rcases ha with ha | ha <;> simp [Running.movesLeft, ha, hnone]
  rcases word_kinds r.word with ⟨i, hi, hword⟩ | ⟨i, hi, hword⟩ | hword
  · rw [State.blocks_of_stream hi hword] at hatEnd ⊢
    rcases (Running.legal_stream_iff hi hword).1 h with
      ⟨ha, hnone⟩ | ⟨-, ⟨ha, -⟩ | ⟨ha, -⟩ | ⟨hb, hloop⟩ | ⟨ha, hnone⟩⟩
    · exact hatEnd (.inl ha) hnone
    · exact Running.movesLeft_pos_of_answer_due (by simp [Running.movesLeft, ha])
    · exact Running.movesLeft_pos_of_answer_due (by simp [Running.movesLeft, ha])
    · refine Running.movesLeft_pos_of_answer_due ?_
      rcases hloop with ⟨ha, -⟩ | ⟨ha, -⟩ | ⟨ha, -⟩ | ⟨ha, -⟩ <;>
        simp only [Running.movesLeft, ha, Option.elim_none] <;> omega
    · exact hatEnd (.inr ha) hnone
  · rw [State.blocks_of_exchange hi hword] at hatEnd ⊢
    rcases (Running.legal_exchange_iff hi hword).1 h with ⟨ha, hnone⟩ | ⟨-, ⟨ha, -⟩ | ⟨ha, hnone⟩⟩
    · exact hatEnd (.inl ha) hnone
    · refine Running.movesLeft_pos_of_answer_due ?_
      rw [movesLeft_exchangeAction (r := { r with outstanding := none }) hi rfl ha]
      decide
    · exact hatEnd (.inr ha) hnone
  · obtain ⟨ha, hnone⟩ := (Running.legal_oneAction_iff hword).1 h
    exact hatEnd (.inl ha) hnone

end

end Sys2Proof.Machine

/-! Proofs about the invariant: what it says, and that every input and every move of the engine side keeps it. -/

namespace Sys2Proof.Machine

/-! ## The invariant (R34, R53) -/

theorem Status.Consistent.completed {st : Status} (h : st.Consistent) (herr : st.err = false) :
    st.completed.Consistent := by
  obtain ⟨-, hcode, hmax⟩ := h
  exact ⟨fun _ => herr, hcode, hmax⟩

theorem Status.Consistent.failed (st : Status) (hdone : st.done = false) (c : ErrCode) :
    (st.failed c).Consistent := by
  refine ⟨by simp [hdone], ?_, ?_⟩ <;> cases c <;> simp [errNumber]

theorem Status.Consistent.accepted (st : Status) : st.accepted.Consistent := by
  simp [Status.Consistent]

theorem Status.Consistent.clear {st : Status} (h : st.Consistent) (w : Word) : (st.clear w).Consistent := by
  obtain ⟨hone, hcode, hmax⟩ := h
  refine ⟨fun hdone => ?_, ?_, ?_⟩
  · simp only [Status.clear_done, Bool.and_eq_true] at hdone
    simp [hone hdone.1]
  · rw [Status.clear_err, Status.clear_errcode]
    cases w.getLsbD 2 with
    | false => simpa using hcode
    | true => simp
  · rw [Status.clear_errcode]
    split
    · exact Nat.zero_le 6
    · exact hmax

theorem State.Inv.of_idle {t : State} (hmem : Memory.wf t.mem) (hcache : t.hostCache.Wf)
    (hstatus : t.status.Consistent) (hidle : t.phase = .idle) (hquiet : t.windows.all Window.quiet = true) : t.Inv :=
  ⟨hmem, hcache, hstatus, by simpa only [State.PhaseOk, hidle] using hquiet⟩

/-- What the invariant says while a command runs. -/
theorem State.phaseOk_of_busy {s : State} {r : Running} (hphase : s.phase = .busy r) :
    s.PhaseOk ↔ s.status.done = false ∧ s.status.err = false ∧ r.Legal s ∧
      ∃ w ws, s.windows = w :: ws ∧ w.word = r.word := by
  simp only [State.PhaseOk, hphase]

/-- The end of a command brings the engine to an idle state of the invariant. -/
theorem Ending.inv {lo hi : Nat} {s t : State} (h : Ending lo hi s t) (hmem : Memory.wf s.mem)
    (hcache : s.hostCache.Wf) (hstatus : s.status.Consistent) (hdone : s.status.done = false)
    (herr : s.status.err = false) : t.endCommand.Inv := by
  have hsettles := endCommand_settles t
  have hconsistent : t.status.Consistent := by
    rcases h.status with hst | ⟨c, hst⟩ <;> rw [hst]
    · exact hstatus.completed herr
    · exact .failed _ hdone c
  refine .of_idle (hsettles.wf (h.wf hmem)) ?_ ?_ ?_ (endCommand_quiet t)
  · rw [hsettles.hostCache, h.frame]
    exact hcache
  · rwa [hsettles.status]
  · rw [hsettles.phase, h.phase]

/-- A move of the engine side that leaves the command running keeps the invariant. -/
theorem State.Inv.goesOn {s u : State} {r r' : Running} {lo hi : Nat} (h : s.Inv) (hphase : s.phase = .busy r)
    (hchange : Change lo hi s u) (hword : r'.word = r.word) (hlegal : r'.Legal u) :
    State.Inv { u with phase := .busy r' } := by
  obtain ⟨hmem, hcache, hstatus, hok⟩ := h
  obtain ⟨hdone, herr, -, w, ws, hwindows, hw⟩ := (State.phaseOk_of_busy hphase).1 hok
  have hframe := hchange.frame
  refine ⟨hchange.wf hmem, ?_, ?_, ?_, ?_, hlegal, w, ws, ?_, hw.trans hword.symm⟩ <;> rw [hframe] <;> assumption

/-- A change that leaves a running command its operands, its buffers, its position and its window keeps the
invariant. -/
theorem State.Inv.of_busy {s t : State} (h : s.Inv) (hbusy : s.phase ≠ .idle)
    (hframe : t = { s with
      status := t.status, mem := t.mem, hostCache := t.hostCache, draws := t.draws, windows := t.windows
      others := t.others, response := t.response, dataResponse := t.dataResponse, events := t.events
      cipher := t.cipher })
    (hmem : Memory.wf t.mem) (hcache : t.hostCache.Wf) (hstatus : t.status.Consistent)
    (hdone : s.status.done = false → t.status.done = false) (herr : s.status.err = false → t.status.err = false)
    (hwords : t.windows.map Window.word = s.windows.map Window.word) : t.Inv := by
  cases hphase : s.phase with
  | idle => exact absurd hphase hbusy
  | busy r =>
    obtain ⟨hdone', herr', hlegal, w, ws, hwindows, hw⟩ := (State.phaseOk_of_busy hphase).1 h.2.2.2
    have hphase' : t.phase = .busy r := by rw [hframe]; exact hphase
    refine ⟨hmem, hcache, hstatus, (State.phaseOk_of_busy hphase').2 ⟨hdone hdone', herr herr', ?_, ?_⟩⟩
    · rw [hframe]
      exact hlegal
    · rw [hwindows] at hwords
      cases ht : t.windows with
      | nil => simp [ht] at hwords
      | cons v vs =>
        simp only [ht, List.map_cons, List.cons.injEq] at hwords
        exact ⟨v, vs, rfl, hwords.1.trans hw⟩

/-- An access, and the settling after it, keeps the invariant. -/
theorem Accesses.inv {s t : State} (hacc : Accesses s t) (h : s.Inv) : t.settleIfIdle.Inv := by
  obtain ⟨hmem, hcache, hstatus, -⟩ := id h
  have hmem' := hacc.mem hmem hcache
  have hcache' := hacc.cache hcache
  have hstatus' : t.status = s.status := by rw [hacc.frame]
  have hphase : t.phase = s.phase := by rw [hacc.frame]
  by_cases hidle : s.phase = .idle
  · have hsettles := settle_settles t
    rw [State.settleIfIdle, if_pos (hphase.trans hidle)]
    refine .of_idle (hsettles.wf hmem') ?_ ?_ ?_ (settle_quiet t)
    · rwa [hsettles.hostCache]
    · rwa [hsettles.status, hstatus']
    · rw [hsettles.phase, hphase, hidle]
  · rw [settleIfIdle_of_busy (by rwa [hphase])]
    refine h.of_busy hidle (by rw [hacc.frame]) hmem' hcache' ?_ ?_ ?_ hacc.words <;> rw [hstatus']
    · exact hstatus
    · exact id
    · exact id

/-- What keeps memory, the caches, the phase and the windows, and clears or keeps DONE and ERR, keeps the invariant
where no command runs. -/
theorem State.Inv.of_same {s t : State} (h : s.Inv) (hidle : s.phase = .idle) (hmem : t.mem = s.mem)
    (hcache : t.hostCache = s.hostCache) (hstatus : t.status.Consistent) (hphase : t.phase = s.phase)
    (hwindows : t.windows = s.windows) : t.Inv :=
  .of_idle (hmem ▸ h.1) (hcache ▸ h.2.1) hstatus (hphase.trans hidle) (hwindows ▸ h.windows_quiet hidle)

/-! ## The inputs keep the invariant -/

theorem dropWrite_inv {s : State} (h : s.Inv) (hbusy : s.phase ≠ .idle) : s.dropWrite.Inv :=
  h.of_busy hbusy rfl h.1 h.2.1 h.2.2.1 id id rfl

theorem accept_inv {s : State} (h : s.Inv) (w : Word) : (s.accept w).Inv :=
  ⟨h.1, h.2.1, .accepted _, rfl, rfl, .inl ⟨rfl, rfl⟩, _, _, rfl, State.newWindow_word s w⟩

theorem setReg_inv {s : State} (h : s.Inv) (hidle : s.phase = .idle) (v : Word) (g : Reg) : (s.setReg v g).Inv := by
  cases g <;> exact h.of_same hidle rfl rfl h.2.2.1 rfl rfl

theorem writeReg_inv {s : State} (h : s.Inv) (v : Word) (g : Reg) : (writeReg g v s).Inv := by
  by_cases hstatus : g = .status
  · subst hstatus
    have hclear := h.2.2.1.clear v
    by_cases hidle : s.phase = .idle
    · exact h.of_same hidle rfl rfl hclear rfl rfl
    · exact h.of_busy hidle rfl h.1 h.2.1 hclear (by simp +contextual) (by simp +contextual) rfl
  by_cases hidle : s.phase = .idle
  · by_cases hcmd : g = .cmd
    · subst hcmd
      rw [writeReg_cmd_of_idle v hidle]
      exact accept_inv h v
    · rw [writeReg_of_idle v hidle hstatus hcmd]
      exact setReg_inv h hidle v g
  · cases hguarded : g.guarded with
    | true =>
      rw [writeReg_of_guarded_of_busy v hguarded hidle]
      exact dropWrite_inv h hidle
    | false =>
      rw [writeReg_of_unwritable v s hguarded hstatus]
      exact h

/-- A register read changes at most the port's answer, the draw counter, and the windows where no command runs. -/
theorem readReg_frame (g : Reg) (s : State) : readReg g s = { s with
    response := (readReg g s).response, draws := (readReg g s).draws, windows := (readReg g s).windows } := by
  unfold readReg
  split
  · rfl
  · split <;> rfl

theorem readReg_windows (g : Reg) (s : State) : (readReg g s).windows = s.windows ∨
    ((readReg g s).windows = [] ∧ s.phase = .idle) := by
  unfold readReg
  split
  · exact .inl rfl
  · split
    · rename_i hclose
      refine .inr ⟨rfl, ?_⟩
      simpa [State.busy] using (Bool.and_eq_true_iff.1 hclose).2
    · exact .inl rfl

theorem readReg_inv {s : State} (h : s.Inv) (g : Reg) : (readReg g s).Inv := by
  have hframe := readReg_frame g s
  have hmem : (readReg g s).mem = s.mem := by rw [hframe]
  have hcache : (readReg g s).hostCache = s.hostCache := by rw [hframe]
  have hstatus : (readReg g s).status = s.status := by rw [hframe]
  have hphase : (readReg g s).phase = s.phase := by rw [hframe]
  by_cases hidle : s.phase = .idle
  · refine .of_idle (hmem ▸ h.1) (hcache ▸ h.2.1) (hstatus ▸ h.2.2.1) (hphase.trans hidle) ?_
    rcases readReg_windows g s with hw | ⟨hw, -⟩ <;> rw [hw]
    · exact h.windows_quiet hidle
    · rfl
  · have hwindows := (readReg_windows g s).resolve_right fun hw => hidle hw.2
    exact h.of_busy hidle (by rw [hframe]) (hmem ▸ h.1) (hcache ▸ h.2.1) (hstatus ▸ h.2.2.1) (hstatus ▸ id)
      (hstatus ▸ id) (by rw [hwindows])

theorem hostWrite_inv {s t : State} (h : s.Inv) {addr width : Nat} {v : Word}
    (hnext : hostWrite addr width v s = .next t) : t.Inv := by
  unfold hostWrite at hnext
  split at hnext <;> cases hnext
  · exact h
  · exact writeReg_inv h v _

theorem hostRead_inv {s t : State} (h : s.Inv) {addr width : Nat} (hnext : hostRead addr width s = .next t) :
    t.Inv := by
  unfold hostRead at hnext
  split at hnext <;> cases hnext
  · exact h
  · exact readReg_inv h _

theorem command_inv {s t : State} (h : s.Inv) {w : Word} (hnext : command w s = .next t) : t.Inv := by
  by_cases hidle : s.phase = .idle
  · rw [command_of_idle w hidle, ended_eq_next] at hnext
    obtain ⟨u, hrun, rfl⟩ := hnext
    have hacc := accept_inv h w
    have hend (lo hi : Nat) (hu : Ending lo hi (s.accept w) u) : u.endCommand.Inv :=
      hu.inv hacc.1 hacc.2.1 hacc.2.2.1 rfl rfl
    unfold runAccepted at hrun
    split at hrun
    · exact hend _ _ (exec_ending hrun)
    · cases hrun
      exact hend 0 0 (.raiseError (.refl ..) .illegal)
  · rw [command_of_busy w hidle] at hnext
    cases hnext
    exact dropWrite_inv h hidle

/-- What `progress` does while a command runs: the engine's move, and the settling at the command's end. -/
theorem progress_moves {s : State} {r : Running} (hphase : s.phase = .busy r) (hlegal : r.Legal s) :
    (∃ u r', progress s = .next { u with phase := .busy r' } ∧ Change 0 dataSpaceBytes s u ∧ r'.word = r.word ∧
      r'.Legal u ∧ r'.movesLeft (s.blocks r.word) < r.movesLeft (s.blocks r.word)) ∨
    (∃ t, progress s = .next t.endCommand ∧ Ending 0 dataSpaceBytes s t) ∨ progress s = .refused .deviceBuffer := by
  have hmoves := engineMove_moves hphase hlegal
  simp only [progress, hphase]
  generalize engineMove s = o at hmoves ⊢
  cases hmoves with
  | goesOn hchange hword hlegal' hless => exact .inl ⟨_, _, rfl, hchange, hword, hlegal', hless⟩
  | ends hend => exact .inr (.inl ⟨_, by simp only [hend.phase, if_true], hend⟩)
  | refused => exact .inr (.inr rfl)

theorem progress_inv {s t : State} (h : s.Inv) (hnext : progress s = .next t) : t.Inv := by
  cases hphase : s.phase with
  | idle =>
    simp only [progress, hphase] at hnext
    cases hnext
    exact h
  | busy r =>
    obtain ⟨hdone, herr, hlegal, -⟩ := (State.phaseOk_of_busy hphase).1 h.2.2.2
    rcases progress_moves hphase hlegal with ⟨u, r', hmove, hchange, hword, hlegal', -⟩ | ⟨u, hmove, hend⟩ | hmove <;>
      rw [hmove] at hnext <;> cases hnext
    · exact h.goesOn hphase hchange hword hlegal'
    · exact hend.inv h.1 h.2.1 h.2.2.1 hdone herr

theorem resetEngine_inv {s : State} (h : s.Inv) : (resetEngine s).Inv := by
  have hsettles := ((breakWrite_settles s).trans (recordAbandoned_settles _)).trans (settle_settles _)
  exact .of_idle (hsettles.wf h.1) (hsettles.hostCache ▸ h.2.1 : HostCache.Wf (resetEngine s).hostCache)
    (by simp [resetEngine, Status.Consistent, State.reset]) rfl rfl

theorem programCipher_inv {s : State} (h : s.Inv) (c : Collaborator) : (programCipher c s).Inv := by
  by_cases hidle : s.phase = .idle
  · have hprogram : programCipher c s = { s with cipher := c } := by simp only [programCipher, hidle]
    rw [hprogram]
    exact h.of_same hidle rfl rfl h.2.2.1 rfl rfl
  · unfold programCipher
    split
    · rename_i hwindows
      exact h.of_busy hidle rfl h.1 h.2.1 h.2.2.1 id id (by simp [hwindows])
    · exact h.of_busy hidle rfl h.1 h.2.1 h.2.2.1 id id rfl

theorem Accesses.withDataResponse {s t : State} (h : Accesses s t) (bs : List Byte) :
    Accesses { s with dataResponse := bs } { t with dataResponse := bs } :=
  ⟨by rw [h.frame], h.mem, h.cache, h.words⟩

theorem Accesses.ofMem (s : State) {m : Memory} (h : Memory.wf s.mem → Memory.wf m) : Accesses s { s with mem := m } :=
  ⟨rfl, fun hm _ => h hm, id, rfl⟩

theorem Accesses.ofHostCache (s : State) {c : HostCache} (h : s.hostCache.Wf → c.Wf) :
    Accesses s { s with hostCache := c } :=
  ⟨rfl, fun hm _ => hm, h, rfl⟩

theorem Accesses.ofOthers (s : State) (others : List OtherCommand) : Accesses s { s with others } :=
  ⟨rfl, fun hm _ => hm, id, rfl⟩

theorem State.Inv.withDataResponse {s : State} (h : s.Inv) (bs : List Byte) :
    State.Inv { s with dataResponse := bs } := h

theorem masterRead_inv {s t : State} (h : s.Inv) {who : Master} {a n : Nat}
    (hnext : masterRead who a n s = .next t) : t.Inv := by
  unfold masterRead at hnext
  split at hnext
  · obtain ⟨-, rfl⟩ := inSpace_eq_next.1 hnext
    have hread := readEach_accesses (fun b _ u => observe_accesses who u b) s (as := addresses a n)
    exact ((hread.withDataResponse _).trans (noteReads_accesses _ who _)).inv (h.withDataResponse _)
  · cases hnext
    exact h

/-- The writes of another agent, and the settling after them, keep the invariant. -/
theorem afterWrites_inv {s u : State} (h : s.Inv) (hacc : Accesses s u) (who : Master) {as : List Nat}
    (hspace : ∀ a ∈ as, a < dataSpaceBytes) : (u.afterWrites who as).Inv := by
  have hspoil := scramble_accesses (s := u) (as := as.filter (u.spoils who))
    fun a ha => hspace a (List.mem_filter.1 ha).1
  exact ((hacc.trans hspoil).trans (noteWrites_accesses _ who _)).inv h

theorem masterWrite_inv {s t : State} (h : s.Inv) {who : Master} {a : Nat} {bs : List Byte}
    (hnext : masterWrite who a bs s = .next t) : t.Inv := by
  unfold masterWrite at hnext
  split at hnext
  · obtain ⟨hspace, rfl⟩ := inSpace_eq_next.1 hnext
    exact afterWrites_inv h (.ofMem s fun hm => Memory.wf_storeBytes hm hspace) who
      fun b hb => mem_addresses_lt hspace hb
  · cases hnext
    exact h

theorem hostStore_inv {s t : State} (h : s.Inv) {a : Nat} {bs : List Byte} (hnext : hostStore a bs s = .next t) :
    t.Inv := by
  unfold hostStore at hnext
  split at hnext
  · exact masterWrite_inv h hnext
  · obtain ⟨hspace, rfl⟩ := inSpace_eq_next.1 hnext
    exact afterWrites_inv h
      (.ofHostCache s fun hc => ⟨Memory.wf_erase hc.1 a bs.length, Memory.wf_storeBytes hc.2 hspace⟩) .bus
      fun b hb => mem_addresses_lt hspace hb

theorem hostLoad_inv {s t : State} (h : s.Inv) {a n : Nat} (hnext : hostLoad a n s = .next t) : t.Inv := by
  unfold hostLoad at hnext
  split at hnext
  · exact masterRead_inv h hnext
  · obtain ⟨hspace, rfl⟩ := inSpace_eq_next.1 hnext
    have hread := readEach_accesses (fun b hb u => load_accesses u (mem_addresses_lt hspace hb)) s
    exact ((hread.withDataResponse _).trans (noteReads_accesses _ .bus _)).inv (h.withDataResponse _)

theorem hostCacheOp_inv {s t : State} (h : s.Inv) {op : CacheOp} {a n : Nat}
    (hnext : hostCacheOp op a n s = .next t) : t.Inv := by
  unfold hostCacheOp at hnext
  split at hnext
  · cases hnext
    exact h
  cases op with
  | fill =>
    obtain ⟨hspace, rfl⟩ := inSpace_eq_next.1 hnext
    exact ((fill_accesses (fun b hb => mem_addresses_lt hspace hb) s).trans (noteReads_accesses _ .bus _)).inv h
  | writeBack =>
    obtain ⟨hspace, rfl⟩ := inSpace_eq_next.1 hnext
    exact afterWrites_inv h (writeBack_accesses (fun b hb => mem_addresses_lt hspace hb) s) .bus
      fun b hb => mem_addresses_lt hspace (List.mem_filter.1 hb).1
  | invalidate =>
    obtain ⟨-, rfl⟩ := inSpace_eq_next.1 hnext
    exact ⟨h.1, h.2.1.erase a n, h.2.2⟩

theorem otherAccepts_inv {s : State} (h : s.Inv) (k : Nat) (w : Word) (src dst : Region) :
    (otherAccepts k w src dst s).Inv := by
  unfold otherAccepts
  split
  · have hnote := noteFor_accesses s (.engine k) (note := fun x => x.meet (s.otherWindow k w src dst)) fun _ => rfl
    exact (hnote.trans (.ofOthers _ _)).inv h
  · exact h

theorem otherEnds_inv {s : State} (h : s.Inv) (k : Nat) : (otherEnds k s).Inv := by
  have hmem := otherEnds_wf k h.1
  rw [otherEnds_eq]
  exact ⟨hmem, h.2⟩

/-- Every input keeps the invariant. -/
theorem handle_inv {s t : State} (h : s.Inv) (e : Event) (hnext : handle e s = .next t) : t.Inv := by
  cases e with
  | hostWrite addr width v => exact hostWrite_inv h hnext
  | hostRead addr width => exact hostRead_inv h hnext
  | command w => exact command_inv h hnext
  | wait =>
    cases hnext
    have hread := readReg_inv h .status
    unfold waitIdle
    dsimp only
    split
    · exact hread
    · exact hread
  | progress => exact progress_inv h hnext
  | reset => cases hnext; exact resetEngine_inv h
  | masterWrite who a bs => exact masterWrite_inv h hnext
  | masterRead who a n => exact masterRead_inv h hnext
  | otherAccepts k w src dst => cases hnext; exact otherAccepts_inv h k w src dst
  | otherEnds k => cases hnext; exact otherEnds_inv h k
  | hostStore a bs => exact hostStore_inv h hnext
  | hostLoad a n => exact hostLoad_inv h hnext
  | hostCache op a n => exact hostCacheOp_inv h hnext
  | programCipher c => cases hnext; exact programCipher_inv h c
  | staleCipherResponse b => cases hnext; exact h
  | cipherError => cases hnext

theorem State.Inv.withEvents {s : State} (h : s.Inv) (es : List Event) : State.Inv { s with events := es } := h

/-- Settles O54. A step is an input or a move of the engine side, and each of them keeps the invariant. -/
theorem stepKeepsInvariant : Obligations.StepKeepsInvariant := by
  intro s t h hnext
  cases hevents : s.events with
  | nil =>
    rw [step, hevents] at hnext
    exact progress_inv h hnext
  | cons e rest =>
    rw [step_of_events_cons hevents] at hnext
    exact handle_inv (h.withEvents rest) e hnext

/-- Settles O53. Reset leaves memory, caches and windows empty and every flag 0. -/
theorem resetMeetsInvariant : Obligations.ResetMeetsInvariant :=
  .of_idle ⟨.nil, nofun⟩ ⟨⟨.nil, nofun⟩, ⟨.nil, nofun⟩⟩ (by simp [Status.Consistent, State.reset]) rfl rfl

/-- Settles O58. Without an input the step is the engine's move, and an idle engine has none. -/
theorem idleEngineDoesNothing : Obligations.IdleEngineDoesNothing := by
  intro s _ hevents hidle
  simp only [step, hevents, progress, hidle]

/-- Settles O55. An idle engine stays, and a running one stands at a legal position. -/
theorem engineMoveNeverFaults : Obligations.EngineMoveNeverFaults := by
  intro s h
  cases hphase : s.phase with
  | idle => exact .inl ⟨s, by simp only [engineMove, hphase]⟩
  | busy r =>
    obtain ⟨-, -, hlegal, -⟩ := (State.phaseOk_of_busy hphase).1 h.2.2.2
    have hmoves := engineMove_moves hphase hlegal
    generalize engineMove s = o at hmoves ⊢
    cases hmoves with
    | goesOn hchange hword hlegal' hless => exact .inl ⟨_, rfl⟩
    | ends hend => exact .inl ⟨_, rfl⟩
    | refused => exact .inr rfl

end Sys2Proof.Machine

/-! Proofs about the opcode map in both directions (R101, R103), acceptance (R130), and register accesses while idle or
busy (R33 to R52, R80). -/

namespace Sys2Proof

/-! ## Encoding and decoding (R101, R103, R106) -/

/-- Settles O1. Ten closed words, computed. -/
theorem opcodeMapWordsDecode : Obligations.OpcodeMapWordsDecode := by
  unfold Obligations.OpcodeMapWordsDecode
  decide

theorem decodeWord_encode (i : Instr) : decodeWord (encode i) = .ok i := by
  cases i <;> decide

theorem encode_of_decodeWord {w : Word} {i : Instr} (h : decodeWord w = .ok i) : encode i = w := by
  obtain ⟨hreserved, hopcode⟩ := (decodeWord_eq_ok_iff w i).1 h
  rw [encode, ← hreserved, ← hopcode]
  exact (BitVec.extractLsb'_append_extractLsb'_eq_extractLsb' rfl).trans BitVec.extractLsb'_eq_self

/-- The bytes of a word give it back, least significant first (R77). -/
theorem wordOfBytes_extractLsb' (w : Word) :
    wordOfBytes (w.extractLsb' 0 8) (w.extractLsb' 8 8) (w.extractLsb' 16 8) (w.extractLsb' 24 8) = w := by
  have hthree : w.extractLsb' 24 8 ++ w.extractLsb' 16 8 ++ w.extractLsb' 8 8 = w.extractLsb' 8 24 := by
    rw [BitVec.extractLsb'_append_extractLsb'_eq_extractLsb' (by decide)]
    exact BitVec.extractLsb'_append_extractLsb'_eq_extractLsb' (by decide)
  rw [wordOfBytes, hthree]
  exact (BitVec.extractLsb'_append_extractLsb'_eq_extractLsb' (by decide)).trans BitVec.extractLsb'_eq_self

theorem decode_bytesOfWord (w : Word) (rest : List Byte) :
    decode (bytesOfWord w ++ rest) = (decodeWord w).map fun i => (i, rest) := by
  simp only [bytesOfWord, List.cons_append, List.nil_append, decode, wordOfBytes_extractLsb']
  cases decodeWord w <;> rfl

/-- Settles O3. A command's word decodes to it, and the map leaves a decoded word no bit of freedom. -/
theorem decodeAndEncodeAgree : Obligations.DecodeAndEncodeAgree := by
  refine ⟨fun i rest => ?_, fun w i => encode_of_decodeWord⟩
  rw [decode_bytesOfWord, decodeWord_encode]
  rfl

end Sys2Proof

namespace Sys2Proof.Machine

/-! ## Acceptance (R130, R135) -/

/-- Settles O4. The engine is idle, so the word is accepted and the command it decodes to runs. -/
theorem stepRunsDecodedCommand : Obligations.StepRunsDecodedCommand := by
  intro s w i rest hevents hidle hdecode opened
  have hopened : State.newWindow { s with events := rest } w = opened := by
    rw [State.newWindow, hdecode]
    cases i <;> rfl
  refine (step_command hevents).trans ((command_of_idle w (s := { s with events := rest }) hidle).trans ?_)
  simp only [runAccepted, hdecode, State.accept, hopened]
  rfl

/-- Settles O5. CMD stands at offset 0x08, and a write to it while idle is an acceptance. -/
theorem cmdWriteWhileIdleIsAccepted : Obligations.CmdWriteWhileIdleIsAccepted := by
  intro s w rest hevents hidle
  exact (step_hostWrite hevents (by decide) (by decide)).trans
    (congrArg Host.Outcome.next (writeReg_cmd_of_idle w (s := { s with events := rest }) hidle))

/-! ## Writes to the other registers (R33 to R45) -/

/-- A write to a register other than STATUS and CMD while idle is done. -/
theorem step_hostWrite_of_idle {s : State} (hidle : s.phase = .idle) (v : Word) (rest : List Event) {offset : Nat}
    (haligned : offset % 4 = 0) (hinside : offset < 256) (hstatus : regAt (offset / 4) ≠ .status)
    (hcmd : regAt (offset / 4) ≠ .cmd) :
    step { s with events := .hostWrite (s.platform.regBase + offset) 4 v :: rest } =
      .next (State.setReg { s with events := rest } v (regAt (offset / 4))) :=
  (step_hostWrite rfl haligned hinside).trans
    (congrArg Host.Outcome.next (writeReg_of_idle v (s := { s with events := rest }) hidle hstatus hcmd))

/-- Settles O9. Each offset holds its register, which takes the value. -/
theorem operandWritesWhileIdleAreDone : Obligations.OperandWritesWhileIdleAreDone := by
  intro s v rest hidle write
  have hwrite (offset : Nat) := step_hostWrite_of_idle hidle v rest (offset := offset)
  refine ⟨?_, ?_, ?_, ?_, ?_, ?_, ?_, ?_, ?_, ?_, ?_⟩ <;>
    exact hwrite _ (by decide) (by decide) (by decide) (by decide)

/-- Settles O10. STATUS is not guarded, and its write clears flag by flag. -/
theorem statusWriteClearsWrittenOnes : Obligations.StatusWriteClearsWrittenOnes := by
  intro s v rest hevents
  exact ⟨_, step_hostWrite hevents (by decide) (by decide), rfl, by simp [regAt], by simp [regAt], by simp [regAt], rfl⟩

/-! ## Accesses of another form (R80; log 6) -/

theorem State.access_elsewhere {s : State} {addr width : Nat}
    (h : s.platform.regBase + 256 ≤ addr ∨ (addr < s.platform.regBase ∧ addr + width ≤ s.platform.regBase)) :
    s.access addr width = .elsewhere := by
  simp only [State.access]
  rw [if_pos (by simpa using h)]

theorem State.access_refusedForm {s : State} {addr width : Nat} (hbelow : addr < s.platform.regBase + 256)
    (htouch : addr < s.platform.regBase → s.platform.regBase < addr + width)
    (hform : addr < s.platform.regBase ∨ width ≠ 4 ∨ (addr - s.platform.regBase) % 4 ≠ 0) :
    s.access addr width = .refusedForm := by
  have hinside : ¬(s.platform.regBase + 256 ≤ addr ∨
      (addr < s.platform.regBase ∧ addr + width ≤ s.platform.regBase)) := by omega
  simp only [State.access]
  rw [if_neg (by simpa using hinside)]
  split
  · rfl
  · rename_i hbase
    have hbad : wellFormedTransaction (addr - s.platform.regBase) width = false := by
      simp only [wellFormedTransaction, Bool.and_eq_false_iff, beq_eq_false_iff_ne]
      omega
    rw [hbad]
    rfl

/-- Settles O13. The access's form is decided from its address and width alone, for a read and a write alike. -/
theorem malformedRegisterAccessIsRefused : Obligations.MalformedRegisterAccessIsRefused := by
  intro s addr width v rest hevents
  have hstep {o : Host.Outcome State Fault Refusal} (hwrite : hostWrite addr width v { s with events := rest } = o)
      (hread : hostRead addr width { s with events := rest } = o) : step s = o := by
    rcases hevents with hevents | hevents
    · rw [step_of_events_cons hevents, handle, hwrite]
    · rw [step_of_events_cons hevents, handle, hread]
  refine ⟨fun hbelow htouch hform => ?_, fun houtside => ?_⟩
  · have haccess := State.access_refusedForm (s := { s with events := rest }) hbelow htouch hform
    exact hstep (by rw [hostWrite, haccess]) (by rw [hostRead, haccess])
  · have haccess := State.access_elsewhere (s := { s with events := rest }) houtside
    exact hstep (by rw [hostWrite, haccess]) (by rw [hostRead, haccess])

end Sys2Proof.Machine

namespace Sys2Proof.Machine

/-! ## Register reads (R33 to R52) -/

theorem State.statusWord_errcode (s : State) : s.statusWord.extractLsb' 8 4 = s.status.errcode := by
  rw [s.statusWord_extractLsb'_above_flags (by decide), BitVec.extractLsb'_append_eq_of_le (by decide)]
  exact BitVec.extractLsb'_append_eq_right

theorem State.statusWord_flags (s : State) :
    s.statusWord.getLsbD 0 = decide (s.phase ≠ .idle) ∧ s.statusWord.getLsbD 1 = s.status.done ∧
      s.statusWord.getLsbD 2 = s.status.err ∧ s.statusWord.getLsbD 3 = s.status.ovr := by
  simp only [State.statusWord, BitVec.getLsbD_append]
  simp [State.busy]

theorem readReg_status (s : State) : readReg .status s =
    { s with response := some s.statusWord, windows := if s.phase = .idle then [] else s.windows } := by
  by_cases hidle : s.phase = .idle
  · simp [readReg, State.unread, Reg.intermediate, State.busy, hidle]
  · simp [readReg, State.unread, Reg.intermediate, State.busy, hidle, State.regValue]

/-- Settles O11. STATUS is never unread, and its word is laid out field by field. -/
theorem statusReadShowsTheFlags : Obligations.StatusReadShowsTheFlags := by
  intro s rest hevents
  obtain ⟨hbusy, hdone, herr, hovr⟩ := s.statusWord_flags
  exact ⟨s.statusWord, (step_hostRead hevents (by decide) (by decide)).trans (congrArg _ (readReg_status _)), hbusy,
    hdone, herr, hovr, s.statusWord_reserved_low, s.statusWord_errcode, s.statusWord_reserved_high⟩

theorem readReg_of_unread {s : State} {g : Reg} (h : s.unread g = true) :
    readReg g s = { s with response := some (Config.freeWord s.draws), draws := s.draws + 1 } := by
  rw [readReg, if_pos h]

/-- A register whose read is specified now answers with its value and draws nothing. -/
theorem readReg_of_read {s : State} {g : Reg} (h : s.unread g = false) :
    (readReg g s).response = some (s.regValue g) ∧ (readReg g s).draws = s.draws := by
  by_cases hstatus : g = .status
  · rw [hstatus, readReg_status]
    exact ⟨rfl, rfl⟩
  · simp [readReg, h, hstatus]

theorem unread_of_no_windows {s : State} (hidle : s.phase = .idle) (hwindows : s.windows = []) (g : Reg) :
    s.unread g = false := by
  simp [State.unread, State.busy, hidle, hwindows]

theorem unread_of_idxWritten {s : State} (hidle : s.phase = .idle) (hwritten : s.idxWritten = true) :
    s.unread .idx = false := by
  simp [State.unread, State.busy, hidle, hwritten]

theorem readReg_response_ne_none (g : Reg) (s : State) : (readReg g s).response ≠ none := by
  cases h : s.unread g with
  | true => rw [readReg_of_unread h]; simp
  | false => rw [(readReg_of_read h).1]; simp

theorem State.nonceRnd_of_word (s : State) : (s.regValue .nonceRnd).extractLsb' 0 16 = s.nonceRnd := by
  simp [State.regValue, ← BitVec.setWidth_eq_extractLsb']

theorem State.ctrlWord_flags (s : State) :
    s.ctrlWord.getLsbD 0 = s.ctrl.seqPresent ∧ s.ctrlWord.getLsbD 1 = s.ctrl.ie := by
  simp only [State.ctrlWord, BitVec.getLsbD_append]
  simp

/-- A read whose answer is specified now, at any offset but STATUS. -/
theorem step_hostRead_of_read {s : State} (rest : List Event) {offset : Nat} (haligned : offset % 4 = 0)
    (hinside : offset < 256) (hstatus : regAt (offset / 4) ≠ .status) (hread : s.unread (regAt (offset / 4)) = false) :
    step { s with events := .hostRead (s.platform.regBase + offset) 4 :: rest } =
      .next { s with events := rest, response := some (s.regValue (regAt (offset / 4))) } := by
  have hvalue : readReg (regAt (offset / 4)) { s with events := rest } =
      { s with events := rest, response := some (s.regValue (regAt (offset / 4))) } := by
    have hread' : State.unread { s with events := rest } (regAt (offset / 4)) = false := hread
    simp only [readReg, hread', hstatus, Bool.false_eq_true, if_false, decide_false, Bool.false_and]
    generalize regAt (offset / 4) = g
    cases g <;> rfl
  exact (step_hostRead rfl haligned hinside).trans (congrArg _ hvalue)

/-- The words CB0 to CB3 and KS0 to KS3 stand at the offsets from 0x40 on (10_state.md section 2). -/
theorem regAt_buffers (i : Fin 4) :
    regAt ((0x40 + 4 * i.val) / 4) = .cb i ∧ regAt ((0x50 + 4 * i.val) / 4) = .ks i := by
  fin_cases i <;> exact ⟨rfl, rfl⟩

/-- Settles O14. A read is specified unless R52 or R261 leaves it open, and then answers with the register's value; what
is left open is answered with a free word. -/
theorem registerReadHasNoSideEffect : Obligations.RegisterReadHasNoSideEffect := by
  refine ⟨fun s k rest hk hevents => ?_, ?_⟩
  · have hstep := step_hostRead hevents (by omega) (by omega)
    rw [Nat.mul_div_cancel_left k (by decide)] at hstep
    refine ⟨_, hstep, readReg_response_ne_none _ _, ?_, fun hkeep => ?_, fun hidle hwindows => ?_,
      fun hidle hwritten hidx => ?_⟩
    · rw [readReg_frame]
    · exact readReg_of_read (State.unread_of_not_intermediate _ hkeep)
    · exact readReg_of_read (unread_of_no_windows hidle hwindows _)
    · obtain rfl : k = 14 := by omega
      exact (readReg_of_read (s := { s with events := rest }) (unread_of_idxWritten hidle hwritten)).1
  · intro s rest reads
    have hkept (offset : Nat) (h : offset % 4 = 0 ∧ offset < 256 ∧ regAt (offset / 4) ≠ .status ∧
        (regAt (offset / 4)).intermediate = false) :=
      step_hostRead_of_read (s := s) rest h.1 h.2.1 h.2.2.1 (s.unread_of_not_intermediate h.2.2.2)
    refine ⟨⟨s.ctrlWord, hkept 0x00 (by decide), s.ctrlWord_flags.1, s.ctrlWord_flags.2, s.ctrlWord_reserved⟩,
      hkept 0x08 (by decide), hkept 0x0C (by decide), hkept 0x10 (by decide), hkept 0x14 (by decide),
      hkept 0x18 (by decide), hkept 0x20 (by decide), hkept 0x24 (by decide),
      ⟨s.regValue .nonceRnd, hkept 0x28 (by decide), s.nonceRnd_of_word, extractLsb'_setWidth_high s.nonceRnd⟩,
      hkept 0x2C (by decide), hkept 0x30 (by decide), fun hidle hwindows => ?_⟩
    have hread (offset : Nat) (haligned : offset % 4 = 0) (hinside : offset < 256)
        (hstatus : regAt (offset / 4) ≠ .status) :=
      step_hostRead_of_read rest haligned hinside hstatus (unread_of_no_windows hidle hwindows _)
    refine ⟨hread 0x1C (by decide) (by decide) (by decide), hread 0x38 (by decide) (by decide) (by decide), fun i => ?_⟩
    obtain ⟨hcb, hks⟩ := regAt_buffers i
    have hcbRead := hread (0x40 + 4 * i.val) (by omega) (by omega) (by rw [hcb]; nofun)
    have hksRead := hread (0x50 + 4 * i.val) (by omega) (by omega) (by rw [hks]; nofun)
    rw [hcb] at hcbRead
    rw [hks] at hksRead
    exact ⟨hcbRead, hksRead⟩

/-! ## The words of CB and KS (R46, R47, R77) -/

theorem toNat_le32val (b : Bytes 4) :
    (le32val b).toNat = b[0].toNat + 256 * b[1].toNat + 65536 * b[2].toNat + 16777216 * b[3].toNat := by
  have h0 := b[0].isLt
  have h1 := b[1].isLt
  have h2 := b[2].isLt
  simp only [le32val, wordOfBytes, BitVec.toNat_append]
  rw [← Nat.shiftLeft_add_eq_or_of_lt h2, ← Nat.shiftLeft_add_eq_or_of_lt h1, ← Nat.shiftLeft_add_eq_or_of_lt h0]
  simp only [Nat.shiftLeft_eq]
  omega

/-- Byte k of the word of a block at place i is byte 4 i + k of the block (R77). -/
theorem blockWord_getElem (b : Block) (i : Fin 4) (k : Nat) (hk : k < 4) :
    (blockWord b i)[k] = b.toList.getD (4 * i.val + k) 0 := by
  have hlength : 4 * i.val + k < b.toList.length := by simp; omega
  rw [List.getD_eq_getElem _ _ hlength, Vector.getElem_toList]
  have hk' : k = 0 ∨ k = 1 ∨ k = 2 ∨ k = 3 := by omega
  fin_cases i <;> rcases hk' with rfl | rfl | rfl | rfl <;> rfl

theorem toNat_blockWord (b : Block) (i : Fin 4) : (le32val (blockWord b i)).toNat =
    (b.toList.getD (4 * i.val) 0).toNat + 256 * (b.toList.getD (4 * i.val + 1) 0).toNat +
      65536 * (b.toList.getD (4 * i.val + 2) 0).toNat + 16777216 * (b.toList.getD (4 * i.val + 3) 0).toNat := by
  simp only [toNat_le32val, blockWord_getElem, Nat.add_zero]

/-- Settles O16. Both views are words of a block. -/
theorem bufferViewsAreLittleEndian : Obligations.BufferViewsAreLittleEndian := fun s i =>
  ⟨toNat_blockWord s.cb.bytes i, toNat_blockWord s.ks i⟩

/-- CB's first eight bytes are its header (R49). -/
theorem CounterBlock.bytes_getD (cb : CounterBlock) {k : Nat} (hk : k < 8) :
    cb.bytes.toList.getD k 0 = cb.header[k] := by
  have hlength : k < cb.header.toList.length := by simpa using hk
  rw [CounterBlock.bytes, toList_joinBytes, List.getD_eq_getElem _ _ (by simp; omega),
    List.getElem_append_left hlength, Vector.getElem_toList]

/-- Settles O20. CB0 and CB1 are the words of the packed nonce, whose fields `noncePackingByteByByte` gives. -/
theorem headerReadsBackThroughCb : Obligations.HeaderReadsBackThroughCb := by
  intro s t h
  cases h
  obtain ⟨hms, -, hrnd, hsec⟩ := noncePackingByteByByte (s.nonceHi ++ s.nonceLo) s.nonceRnd
  have hbytes (k : Nat) (hk : k < 8) : (CounterBlock.bytes ⟨s.packedNonce, s.cb.counter⟩).toList.getD k 0 =
      (packNonce (s.nonceHi ++ s.nonceLo) s.nonceRnd)[k] := CounterBlock.bytes_getD _ hk
  refine ⟨(toNat_blockWord (CounterBlock.bytes ⟨s.packedNonce, s.cb.counter⟩) 0).trans ?_,
    (toNat_blockWord (CounterBlock.bytes ⟨s.packedNonce, s.cb.counter⟩) 1).trans ?_⟩
  · simp (disch := decide) only [hbytes]
    rw [← hms, ← hrnd]
    change (packNonce _ _)[0].toNat + 256 * (packNonce _ _)[1].toNat + 65536 * (packNonce _ _)[2].toNat +
      16777216 * (packNonce _ _)[3].toNat = (packNonce _ _)[0].toNat + 256 * (packNonce _ _)[1].toNat +
        65536 * ((packNonce _ _)[2].toNat + 256 * (packNonce _ _)[3].toNat)
    omega
  · simp (disch := decide) only [hbytes]
    exact hsec

end Sys2Proof.Machine

/-! Proofs about the commands of one exchange (R171, R201, R202), the checks of the stream commands (R229), and buffers
on device registers (R79). -/

namespace Sys2Proof.Machine

/-! ## What an access meets (R74, R75, R79; log 8, log 19) -/

theorem State.verdict_eq_busError_iff {s : State} {a n : Nat} :
    s.verdict a n = .busError ↔ a + n ≤ dataSpaceBytes ∧ (∀ i < n, s.isDevice (a + i) = false) ∧
      ∃ i < n, s.busOk (a + i) = false := by
  have hdevice : allInRange a n (fun x => !s.isDevice x) = true ↔ ∀ i < n, s.isDevice (a + i) = false := by
    simp [allInRange_iff]
  have hsilent : ¬allInRange a n s.busOk = true ↔ ∃ i < n, s.busOk (a + i) = false := by
    simp [allInRange_iff]
  rw [← hdevice, ← hsilent, ← Nat.not_lt, State.verdict]
  split
  · simp_all
  · cases allInRange a n (fun x => !s.isDevice x) <;> cases allInRange a n s.busOk <;> simp_all

theorem State.verdict_eq_device_iff {s : State} {a n : Nat} :
    s.verdict a n = .device ↔ a + n ≤ dataSpaceBytes ∧ ∃ i < n, s.isDevice (a + i) = true := by
  have hdevice : ¬allInRange a n (fun x => !s.isDevice x) = true ↔ ∃ i < n, s.isDevice (a + i) = true := by
    simp [allInRange_iff]
  rw [← hdevice, ← Nat.not_lt, State.verdict]
  split
  · simp_all
  · cases allInRange a n (fun x => !s.isDevice x) <;> cases allInRange a n s.busOk <;> simp_all

/-! ## GEN_KS (R171) -/

theorem legalKeyBits_iff {kb : Word} : legalKeyBits kb = true ↔ kb = 128 ∨ kb = 192 ∨ kb = 256 := by
  simp [legalKeyBits, or_assoc]

theorem not_legalKeyBits {kb : Word} (h : ¬(kb = 128 ∨ kb = 192 ∨ kb = 256)) : legalKeyBits kb = false := by
  rwa [← Bool.not_eq_true, legalKeyBits_iff]

@[simp] theorem firstError_cons_true (c : ErrCode) (rest : List (Bool × ErrCode)) :
    firstError ((true, c) :: rest) = firstError rest := rfl

@[simp] theorem firstError_cons_false (c : ErrCode) (rest : List (Bool × ErrCode)) :
    firstError ((false, c) :: rest) = some c := rfl

/-- Settles O28. GEN_KS has one check and one exchange. -/
theorem genKsAsksTheCipher : Obligations.GenKsAsksTheCipher := by
  intro s
  refine ⟨fun hlegal => ?_, fun h128 h192 h256 => ?_⟩
  · have hcheck : genKsCheck s = none := genKsCheck_eq_none.2 (legalKeyBits_iff.2 hlegal)
    simp only [exec, execGenKs, hcheck]
    rfl
  · have hlegal : legalKeyBits s.keyBits = false := not_legalKeyBits fun h => by tauto
    have hcheck : genKsCheck s = some .keysize := by rw [genKsCheck, hlegal, firstError_cons_false]
    simp only [exec, execGenKs, hcheck]
    rfl

/-! ## HDR_LOAD and HDR_STORE (R201, R202) -/

theorem validRange_eq_true {a n : Nat} (h : a + n ≤ 2 ^ 32) : validRange a n = true := decide_eq_true h

theorem validRange_eq_false {a n : Nat} (h : 2 ^ 32 < a + n) : validRange a n = false :=
  decide_eq_false (Nat.not_le.2 h)

theorem hdrLoadCheck_eq_range {s : State} (h : 2 ^ 32 < s.src + 8) : hdrLoadCheck s = some .range := by
  rw [hdrLoadCheck, validRange_eq_false h, firstError_cons_false]

theorem hdrStoreCheck_eq_range {s : State} (h : 2 ^ 32 < s.dst + 8) : hdrStoreCheck s = some .range := by
  rw [hdrStoreCheck, validRange_eq_false h, firstError_cons_false]

/-- Settles O29. The read succeeds and gives eight bytes, which the header takes as they are. -/
theorem hdrLoadCopiesTheHeader : Obligations.HdrLoadCopiesTheHeader := by
  intro s hspace hreach
  have hcheck : hdrLoadCheck s = none := hdrLoadCheck_eq_none.2 hspace
  have hverdict : s.verdict s.src 8 = .ok := State.verdict_ok_iff.2 ⟨hspace, hreach⟩
  refine ⟨halfOfList (Memory.bytes s.mem s.src 8), ?_, fun i => ?_⟩
  · simp only [exec, execHdrLoad, hcheck, State.readThen, hverdict]
    rfl
  · have hlist := toList_halfOfList (Memory.length_bytes s.mem s.src 8)
    have hbyte : (halfOfList (Memory.bytes s.mem s.src 8)).toList[i.val]'(by simp) = Memory.byte s.mem (s.src + i) := by
      simp only [hlist, Memory.getElem_bytes]
    rwa [Vector.getElem_toList] at hbyte

/-- Settles O30. Both errors come before HDR_LOAD has changed anything. -/
theorem hdrLoadErrorsChangeOnlyStatus : Obligations.HdrLoadErrorsChangeOnlyStatus := by
  intro s
  refine ⟨fun hpast => ?_, fun hspace hplain hsilent => ?_⟩
  · simp only [exec, execHdrLoad, hdrLoadCheck_eq_range hpast]
    rfl
  · have hcheck : hdrLoadCheck s = none := hdrLoadCheck_eq_none.2 hspace
    have hverdict : s.verdict s.src 8 = .busError := State.verdict_eq_busError_iff.2 ⟨hspace, hplain, hsilent⟩
    simp only [exec, execHdrLoad, hcheck, State.readThen, hverdict]
    rfl

theorem length_header (h : Half) : h.toList.length = 8 := by simp

/-- Settles O31. The write succeeds, and memory reads back what was written and is kept elsewhere. -/
theorem hdrStoreWritesTheHeader : Obligations.HdrStoreWritesTheHeader := by
  intro s hspace hreach
  have hcheck : hdrStoreCheck s = none := hdrStoreCheck_eq_none.2 hspace
  have hverdict : s.verdict s.dst s.cb.header.toList.length = .ok := by
    rw [length_header]
    exact State.verdict_ok_iff.2 ⟨hspace, hreach⟩
  refine ⟨Memory.storeBytes s.mem s.dst s.cb.header.toList, ?_, fun i => ?_, fun a ha => ?_⟩
  · simp only [exec, execHdrStore, hcheck, State.writeThen, hverdict]
    rfl
  · have hinside := Memory.byte_storeBytes_inside s.mem s.dst s.cb.header.toList (i := i.val) (by simp)
    rwa [Vector.getElem_toList] at hinside
  · refine Memory.byte_storeBytes_outside s.mem ?_
    rwa [length_header]

/-- Settles O32. A check that fails changes STATUS alone, and a bus error scrambles the eight bytes. -/
theorem hdrStoreErrorsKeepOtherMemory : Obligations.HdrStoreErrorsKeepOtherMemory := by
  intro s
  refine ⟨fun hpast => ?_, fun hspace hplain hsilent => ?_⟩
  · simp only [exec, execHdrStore, hdrStoreCheck_eq_range hpast]
    rfl
  · have hcheck : hdrStoreCheck s = none := hdrStoreCheck_eq_none.2 hspace
    have hverdict : s.verdict s.dst 8 = .busError := State.verdict_eq_busError_iff.2 ⟨hspace, hplain, hsilent⟩
    refine ⟨(State.scramble (addresses s.dst 8) s).raiseError .bus, ?_, ?_, fun a ha => ?_⟩
    · simp only [exec, execHdrStore, hcheck, State.writeThen, length_header, hverdict]
      rfl
    · rw [State.scramble_eq]
      rfl
    · refine State.scramble_byte_outside s ?_
      rw [mem_addresses]
      exact fun hin => by simp only [State.dst] at hin; omega

/-! ## The checks of the stream commands (R223 to R226, R229) -/

theorem execEncrypt_of_check {s : State} {c : ErrCode} (h : encryptCheck s = some c) :
    execEncrypt s = .next (s.failStream c) := by
  simp only [execEncrypt, h]

theorem execDecrypt_of_check {s : State} {c : ErrCode} (h : decryptCheck s = some c) :
    execDecrypt s = .next (s.failStream c) := by
  simp only [execDecrypt, h]

theorem overlap_eq_true {a n c m : Nat} (hn : 0 < n) (hm : 0 < m) (h1 : a < c + m) (h2 : c < a + n) :
    overlap a n c m = true := by
  simp [overlap, *]

/-- Settles O36. Each clause passes the checks before its own and fails that one. -/
theorem encryptChecksInOrder : Obligations.EncryptChecksInOrder := by
  intro s legal ends
  have hends {c : ErrCode} (h : encryptCheck s = some c) : ends (errNumber c) := execEncrypt_of_check h
  have hlegal (h : legal) : legalKeyBits s.keyBits = true := legalKeyBits_iff.2 h
  refine ⟨fun h => hends (c := .keysize) ?_, fun h hsrc => hends (c := .range) ?_,
    fun h hsrc hdst => hends (c := .range) ?_, fun h hsrc hdst hn h1 h2 => hends (c := .overlap) ?_⟩
  · have hkey : legalKeyBits s.keyBits = false := not_legalKeyBits h
    simp only [encryptCheck, hkey, firstError_cons_false]
  · have hin : validRange s.src s.length = false := validRange_eq_false hsrc
    simp only [encryptCheck, hlegal h, hin, firstError_cons_true, firstError_cons_false]
  · have hin : validRange s.src s.length = true := validRange_eq_true hsrc
    have hout : validRange s.dst (s.length + 8) = false := validRange_eq_false hdst
    simp only [encryptCheck, hlegal h, hin, hout, firstError_cons_true, firstError_cons_false]
  · have hin : validRange s.src s.length = true := validRange_eq_true hsrc
    have hout : validRange s.dst (s.length + 8) = true := validRange_eq_true hdst
    have hover : overlap s.src s.length s.dst (s.length + 8) = true := overlap_eq_true hn (Nat.succ_pos _) h1 h2
    simp only [encryptCheck, hlegal h, hin, hout, hover, Bool.not_true, firstError_cons_true, firstError_cons_false]

/-- Settles O37. Each clause passes the checks before its own and fails that one. -/
theorem decryptChecksInOrder : Obligations.DecryptChecksInOrder := by
  intro s legal ends
  have hends {c : ErrCode} (h : decryptCheck s = some c) : ends (errNumber c) := execDecrypt_of_check h
  have hlegal (h : legal) : legalKeyBits s.keyBits = true := legalKeyBits_iff.2 h
  have hlong (h : 8 ≤ s.len.toNat) : decide (8 ≤ s.length) = true := decide_eq_true h
  refine ⟨fun h => hends (c := .keysize) ?_, fun h hlen => hends (c := .short) ?_,
    fun h hlen hsrc => hends (c := .range) ?_, fun h hlen hsrc hdst => hends (c := .range) ?_,
    fun h hlen hsrc hdst h1 h2 => hends (c := .overlap) ?_⟩
  · have hkey : legalKeyBits s.keyBits = false := not_legalKeyBits h
    simp only [decryptCheck, hkey, firstError_cons_false]
  · have hshort : decide (8 ≤ s.length) = false := decide_eq_false (Nat.not_le.2 hlen)
    simp only [decryptCheck, hlegal h, hshort, firstError_cons_true, firstError_cons_false]
  · have hin : validRange s.src s.length = false := validRange_eq_false hsrc
    simp only [decryptCheck, hlegal h, hlong hlen, hin, firstError_cons_true, firstError_cons_false]
  · have hin : validRange s.src s.length = true := validRange_eq_true hsrc
    have hout : validRange s.dst (s.length - 8) = false := validRange_eq_false hdst
    simp only [decryptCheck, hlegal h, hlong hlen, hin, hout, firstError_cons_true, firstError_cons_false]
  · have hin : validRange s.src s.length = true := validRange_eq_true hsrc
    have hout : validRange s.dst (s.length - 8) = true := validRange_eq_true hdst
    have hover : overlap s.src s.length s.dst (s.length - 8) = true :=
      overlap_eq_true (Nat.zero_lt_of_lt hlen) (Nat.sub_pos_of_lt hlen) h1 h2
    simp only [decryptCheck, hlegal h, hlong (Nat.le_of_lt hlen), hin, hout, hover, Bool.not_true,
      firstError_cons_true, firstError_cons_false]

end Sys2Proof.Machine

/-! Proofs about the stream commands (R172 to R180): the body transform, what a run of blocks leaves, and how ENCRYPT
and DECRYPT go as long as every access is answered and at the first that is not. -/

namespace Sys2Proof.Machine

/-! ## The body transform (R172, R177, R178, R180) -/

/-- Settles O44. Sixteen bytes to a block, rounded up. -/
theorem blocksCoverTheBody : Obligations.BlocksCoverTheBody := by
  intro m b hb
  simp only [blockCount, blockLen] at hb ⊢
  omega

section

variable (c : Collaborator) (kb : Word) (h : Half) (p : Bool) (seq : BitVec 64)

@[simp] theorem length_ctrBody (x : List Byte) : (ctrBody c kb h x p seq).length = x.length := by
  simp [ctrBody_eq_map]

theorem getElem_ctrBody (x : List Byte) {i : Nat} (hi : i < (ctrBody c kb h x p seq).length) :
    (ctrBody c kb h x p seq)[i] =
      x[i]'(by simpa using hi) ^^^ (keystream c kb h p seq (i / 16)).toList.getD (i % 16) 0 := by
  have hx : i < x.length := by simpa using hi
  simp only [ctrBody_eq_map, List.getElem_map, List.getElem_range, bodyByte, List.getD_eq_getElem _ _ hx]

theorem ctrBody_ctrBody (x : List Byte) : ctrBody c kb h (ctrBody c kb h x p seq) p seq = x := by
  refine List.ext_getElem (by simp) fun i h1 h2 => ?_
  simp [getElem_ctrBody]

theorem ctrBody_xorBytes (x d : List Byte) :
    ctrBody c kb h (xorBytes x d) p seq = xorBytes (ctrBody c kb h x p seq) d := by
  refine List.ext_getElem (by simp) fun i h1 h2 => ?_
  simp only [getElem_ctrBody, xorBytes, List.getElem_zipWith, BitVec.xor_assoc]
  exact congrArg _ (BitVec.xor_comm _ _)

end

/-- Settles O42. Every byte is XORed with the same keystream byte both times. -/
theorem bodyTransformIsItsOwnInverse : Obligations.BodyTransformIsItsOwnInverse := fun c kb h x p s =>
  ⟨length_ctrBody c kb h p s x, ctrBody_ctrBody c kb h p s x⟩

/-- Settles O43. The flipped bits and the keystream commute. -/
theorem bodyTransformIsMalleable : Obligations.BodyTransformIsMalleable := fun c kb h x d p s _ =>
  ctrBody_xorBytes c kb h p s x d

/-! ## What a run of blocks leaves (R173, R175) -/

/-- The first `k` blocks of a job are done: their bytes are the transformed ones, no other byte has changed, CB is the
last of these blocks'. -/
structure Transformed (j : StreamJob) (k : Nat) (s t : State) : Prop where
  frame : t = { s with idx := t.idx, cb := ⟨s.cb.header, t.cb.counter⟩, ks := t.ks, mem := t.mem }
  counter : t.cb.counter = if k = 0 then s.cb.counter else encodeCounter (k - 1) s.ctrl.seqPresent s.seq
  body : Memory.bytes t.mem j.outBase (min j.bodyLen (16 * k)) = ctrBody s.cipher s.keyBits s.cb.header
    (Memory.bytes s.mem j.inBase (min j.bodyLen (16 * k))) s.ctrl.seqPresent s.seq
  outside : ∀ x, x < j.outBase ∨ j.outBase + min j.bodyLen (16 * k) ≤ x → Memory.byte t.mem x = Memory.byte s.mem x

/-- The body and the place it goes to share no byte (R226). -/
def StreamJob.Apart (j : StreamJob) : Prop :=
  j.bodyLen = 0 ∨ j.inBase + j.bodyLen ≤ j.outBase ∨ j.outBase + j.bodyLen ≤ j.inBase

theorem streamBlocks_transformed {j : StreamJob} {k : Nat} {s t : State} (h : streamBlocks j k 0 s = .cont t)
    (hk : k ≤ blockCount j.bodyLen) (hapart : j.Apart) : Transformed j k s t := by
  obtain ⟨hframe, hcounter, hbyte⟩ := streamBlocks_cont k 0 h (by omega) hapart
  simp only [Nat.zero_add, Nat.mul_zero, Nat.add_zero] at hcounter hbyte
  refine ⟨hframe, hcounter, List.ext_getElem (by simp) fun i h1 h2 => ?_, fun x hx => ?_⟩
  · have hi : i < min j.bodyLen (16 * k) := by simpa using h1
    rw [getElem_ctrBody, Memory.getElem_bytes, Memory.getElem_bytes, hbyte, if_pos (by omega), Nat.add_sub_cancel_left]
  · rw [hbyte, if_neg (by omega)]

/-- Blocks that go on have met answering plain memory alone. -/
theorem streamBlocks_reachable {j : StreamJob} (todo b : Nat) {s t : State} (h : streamBlocks j todo b s = .cont t)
    (hb : b + todo = blockCount j.bodyLen) :
    s.Reachable (j.inBase + 16 * b) (j.bodyLen - 16 * b) ∧ s.Reachable (j.outBase + 16 * b) (j.bodyLen - 16 * b) := by
  induction todo generalizing b s with
  | zero =>
    have hempty : j.bodyLen - 16 * b = 0 := by simp only [blockCount] at hb; omega
    rw [hempty]
    exact ⟨fun i hi => absurd hi (Nat.not_lt_zero i), fun i hi => absurd hi (Nat.not_lt_zero i)⟩
  | succ todo ih =>
    rw [streamBlocks] at h
    split at h
    case h_2 => cases h
    rename_i s' hs'
    obtain ⟨hin, hout, rfl⟩ := streamBlock_cont hs'
    obtain ⟨hin', hout'⟩ := ih (b + 1) h (by omega)
    have hjoin {a : Nat} (h1 : s.Reachable (a + 16 * b) (blockLen j.bodyLen b))
        (h2 : s.Reachable (a + 16 * (b + 1)) (j.bodyLen - 16 * (b + 1))) :
        s.Reachable (a + 16 * b) (j.bodyLen - 16 * b) := fun i hi => by
      by_cases hfirst : i < blockLen j.bodyLen b
      · exact h1 i hfirst
      · have hlen : blockLen j.bodyLen b = 16 := by simp only [blockLen] at hfirst ⊢; omega
        have hrest := h2 (i - 16) (by omega)
        rwa [show a + 16 * (b + 1) + (i - 16) = a + 16 * b + i by omega] at hrest
    exact ⟨hjoin (State.verdict_ok_iff.1 hin).2 (hin'.congr rfl),
      hjoin (State.verdict_ok_iff.1 hout).2 (hout'.congr rfl)⟩

/-! ## The two stream commands alike (R173 to R177) -/

/-- Where a stream command makes its header access (R173, R175). -/
def State.headerAddr (s : State) : Instr → Nat
  | .decrypt => s.src
  | _ => s.dst

/-- The state in which a stream command ends when its header access meets a bus error, before the error is raised. -/
def State.headerBroken (s : State) : Instr → State
  | .decrypt => { s with idx := 0 }
  | _ => State.scramble (addresses s.dst 8) s.encryptStart

/-- The state in which a stream command begins its block loop. -/
def State.headerDone (s : State) : Instr → State
  | .decrypt => State.setHeader { s with idx := 0 } (halfOfList (Memory.bytes s.mem s.src 8))
  | _ => s.withHeaderWritten

section

variable {i : Instr} {s t : State}

theorem mem_streamInstrs : i ∈ streamInstrs ↔ i = .encrypt ∨ i = .decrypt := by
  simp [streamInstrs]

@[simp] theorem State.headerDone_platform (s : State) (i : Instr) : (s.headerDone i).platform = s.platform := by
  unfold State.headerDone
  split <;> rfl

theorem State.job_apart (hcheck : s.streamCheck i = none) : (s.job i).Apart := by
  have hencrypt (h : encryptCheck s = none) : s.encryptJob.Apart := by
    obtain ⟨-, -, -, hover⟩ := encryptCheck_eq_none.1 h
    have hover := overlap_eq_false.1 hover
    simp only [StreamJob.Apart, State.encryptJob]
    omega
  cases i with
  | decrypt =>
    obtain ⟨-, -, -, -, hover⟩ := decryptCheck_eq_none.1 hcheck
    have hover := overlap_eq_false.1 hover
    simp only [StreamJob.Apart, State.job, State.decryptJob]
    omega
  | _ => exact hencrypt hcheck

/-- A stream command whose checks pass makes its header access and then, if that is done, its block loop. -/
theorem exec_stream_cases (hi : i ∈ streamInstrs) (hcheck : s.streamCheck i = none) :
    (s.verdict (s.headerAddr i) 8 = .busError ∧ exec i s = .next ((s.headerBroken i).failStream .bus)) ∨
    (s.verdict (s.headerAddr i) 8 = .device ∧ exec i s = .refused .deviceBuffer) ∨
    (s.verdict (s.headerAddr i) 8 = .ok ∧ exec i s =
      (streamBlocks (s.job i) (blockCount (s.job i).bodyLen) 0 (s.headerDone i)).andThen
        fun u => .next (u.finishStream (s.job i).bodyLen (s.outLength i))) := by
  rcases mem_streamInstrs.1 hi with rfl | rfl
  · have hverdict : s.encryptStart.verdict s.dst 8 = s.verdict s.dst 8 := State.verdict_congr rfl ..
    have hinside := State.verdict_ne_outside (s := s) (a := s.dst) (n := 8) (by
      obtain ⟨-, -, hdst, -⟩ := encryptCheck_eq_none.1 hcheck
      omega)
    have hcheck : encryptCheck s = none := hcheck
    simp only [exec, execEncrypt, hcheck, State.headerAddr, State.headerBroken, State.writeThen, length_header,
      hverdict]
    cases hv : s.verdict s.dst 8 with
    | ok => exact .inr (.inr ⟨rfl, rfl⟩)
    | busError => exact .inl ⟨rfl, rfl⟩
    | device => exact .inr (.inl ⟨rfl, rfl⟩)
    | outside => exact absurd hv hinside
  · have hverdict : State.verdict { s with idx := 0 } s.src 8 = s.verdict s.src 8 := State.verdict_congr rfl ..
    have hinside := State.verdict_ne_outside (s := s) (a := s.src) (n := 8) (by
      obtain ⟨-, hlen, hsrc, -⟩ := decryptCheck_eq_none.1 hcheck
      omega)
    have hcheck : decryptCheck s = none := hcheck
    simp only [exec, execDecrypt, hcheck, State.headerAddr, State.headerBroken, State.readThen, hverdict]
    cases hv : s.verdict s.src 8 with
    | ok => exact .inr (.inr ⟨rfl, rfl⟩)
    | busError => exact .inl ⟨rfl, rfl⟩
    | device => exact .inr (.inl ⟨rfl, rfl⟩)
    | outside => exact absurd hv hinside

/-- The loop of a stream command whose header access is done: it goes on to its end, or is over at some block. -/
theorem exec_stream_loop (hi : i ∈ streamInstrs) (hcheck : s.streamCheck i = none)
    (hheader : s.verdict (s.headerAddr i) 8 = .ok) :
    (∃ u, streamBlocks (s.job i) (blockCount (s.job i).bodyLen) 0 (s.headerDone i) = .cont u ∧
      exec i s = .next (u.finishStream (s.job i).bodyLen (s.outLength i))) ∨
    ∃ k < blockCount (s.job i).bodyLen, ∃ u o, streamBlocks (s.job i) k 0 (s.headerDone i) = .cont u ∧
      streamBlock (s.job i) k u = .stop o ∧ exec i s = o := by
  rcases exec_stream_cases hi hcheck with ⟨hv, -⟩ | ⟨hv, -⟩ | ⟨-, hexec⟩
  · rw [hheader] at hv; cases hv
  · rw [hheader] at hv; cases hv
  · cases hloop : streamBlocks (s.job i) (blockCount (s.job i).bodyLen) 0 (s.headerDone i) with
    | cont u =>
      rw [hloop] at hexec
      exact .inl ⟨u, rfl, hexec⟩
    | stop o =>
      rw [hloop] at hexec
      obtain ⟨k, hk, u, hu, hblock⟩ := streamBlocks_stop _ _ hloop
      rw [Nat.zero_add] at hblock
      exact .inr ⟨k, hk, u, o, hu, hblock, hexec⟩

/-- Some address of the ranges of the command (R225), its source or its destination, is as said. -/
def State.SomeInRanges (s : State) (i : Instr) (P : Nat → Prop) : Prop :=
  (∃ j < s.length, P (s.src + j)) ∨ ∃ j < s.outLength i, P (s.dst + j)

/-- The engine's accesses lie in the command's ranges: its header's, its body's and its output's (R225). -/
theorem State.someInRanges (hi : i ∈ streamInstrs) (hcheck : s.streamCheck i = none) {P : Nat → Prop} {x : Nat}
    (hP : P x) (hx : (s.headerAddr i ≤ x ∧ x < s.headerAddr i + 8) ∨
      ((s.job i).inBase ≤ x ∧ x < (s.job i).inBase + (s.job i).bodyLen) ∨
      ((s.job i).outBase ≤ x ∧ x < (s.job i).outBase + (s.job i).bodyLen)) : s.SomeInRanges i P := by
  have hsrc (h : s.src ≤ x ∧ x < s.src + s.length) : s.SomeInRanges i P :=
    .inl ⟨x - s.src, by omega, by rwa [Nat.add_sub_cancel' h.1]⟩
  have hdst (h : s.dst ≤ x ∧ x < s.dst + s.outLength i) : s.SomeInRanges i P :=
    .inr ⟨x - s.dst, by omega, by rwa [Nat.add_sub_cancel' h.1]⟩
  rcases mem_streamInstrs.1 hi with rfl | rfl
  · simp only [State.headerAddr, State.job, State.encryptJob, State.outLength] at hx hdst
    rcases hx with hx | hx | hx
    · exact hdst (by omega)
    · exact hsrc (by omega)
    · exact hdst (by omega)
  · obtain ⟨-, hlen, -⟩ := decryptCheck_eq_none.1 hcheck
    simp only [State.headerAddr, State.job, State.decryptJob, State.outLength] at hx hdst
    rcases hx with hx | hx | hx
    · exact hsrc (by omega)
    · exact hsrc (by omega)
    · exact hdst (by omega)

/-- Where the engine's accesses are answered by plain memory, the command's ranges are. -/
theorem State.ranges_reachable (hi : i ∈ streamInstrs) (hcheck : s.streamCheck i = none)
    (hheader : s.Reachable (s.headerAddr i) 8) (hin : s.Reachable (s.job i).inBase (s.job i).bodyLen)
    (hout : s.Reachable (s.job i).outBase (s.job i).bodyLen) :
    s.Reachable s.src s.length ∧ s.Reachable s.dst (s.outLength i) := by
  have hjoin {a n : Nat} (h1 : s.Reachable a 8) (h2 : s.Reachable (a + 8) (n - 8)) : s.Reachable a n := fun j hj => by
    by_cases hfirst : j < 8
    · exact h1 j hfirst
    · have hrest := h2 (j - 8) (by omega)
      rwa [show a + 8 + (j - 8) = a + j by omega] at hrest
  rcases mem_streamInstrs.1 hi with rfl | rfl
  · exact ⟨hin, hjoin hheader hout⟩
  · exact ⟨hjoin hheader hin, hout⟩

/-- Everything the end of a stream command with BUS can be (R227, R231): the header access meets a byte that does not
answer, or the read or the write of block `k` does after the blocks before it. -/
inductive BusEnd (i : Instr) (s : State) : State → Prop
  | header (hv : s.verdict (s.headerAddr i) 8 = .busError) : BusEnd i s ((s.headerBroken i).failStream .bus)
  | read {k : Nat} {u : State} (hk : k < blockCount (s.job i).bodyLen)
      (hbefore : Transformed (s.job i) k (s.headerDone i) u)
      (hin : s.verdict ((s.job i).inBase + 16 * k) (blockLen (s.job i).bodyLen k) = .busError) :
      BusEnd i s ((u.startBlock k).cipherExchange.failStream .bus)
  | write {k : Nat} {u : State} (hk : k < blockCount (s.job i).bodyLen)
      (hbefore : Transformed (s.job i) k (s.headerDone i) u)
      (hin : s.verdict ((s.job i).inBase + 16 * k) (blockLen (s.job i).bodyLen k) = .ok)
      (hout : s.verdict ((s.job i).outBase + 16 * k) (blockLen (s.job i).bodyLen k) = .busError) :
      BusEnd i s ((State.scramble (addresses ((s.job i).outBase + 16 * k) (blockLen (s.job i).bodyLen k))
        (u.startBlock k).cipherExchange).failStream .bus)

/-- How a stream command whose checks pass goes: it completes where all its ranges are answering plain memory, and ends
with BUS, or is refused, at the first access that is not. -/
theorem exec_stream_outcome (hi : i ∈ streamInstrs) (hcheck : s.streamCheck i = none) :
    (s.Reachable s.src s.length ∧ s.Reachable s.dst (s.outLength i) ∧
      ∃ u, Transformed (s.job i) (blockCount (s.job i).bodyLen) (s.headerDone i) u ∧
        exec i s = .next (u.finishStream (s.job i).bodyLen (s.outLength i))) ∨
    (∃ t, BusEnd i s t ∧ exec i s = .next t) ∨
    (s.SomeInRanges i (fun x => s.isDevice x = true) ∧ exec i s = .refused .deviceBuffer) := by
  have hdevice {a n : Nat} (hv : s.verdict a n = .device)
      (hx : ∀ x, a ≤ x → x < a + n → (s.headerAddr i ≤ x ∧ x < s.headerAddr i + 8) ∨
        ((s.job i).inBase ≤ x ∧ x < (s.job i).inBase + (s.job i).bodyLen) ∨
        ((s.job i).outBase ≤ x ∧ x < (s.job i).outBase + (s.job i).bodyLen)) :
      s.SomeInRanges i (fun x => s.isDevice x = true) := by
    obtain ⟨-, m, hm, hdev⟩ := State.verdict_eq_device_iff.1 hv
    exact s.someInRanges hi hcheck hdev (hx _ (by omega) (by omega))
  rcases exec_stream_cases hi hcheck with ⟨hv, hexec⟩ | ⟨hv, hexec⟩ | ⟨hv, -⟩
  · exact .inr (.inl ⟨_, .header hv, hexec⟩)
  · exact .inr (.inr ⟨hdevice hv fun x h1 h2 => .inl ⟨h1, h2⟩, hexec⟩)
  have hapart := State.job_apart hcheck
  rcases exec_stream_loop hi hcheck hv with ⟨u, hloop, hexec⟩ | ⟨k, hk, u, o, hloop, hblock, rfl⟩
  · obtain ⟨hin, hout⟩ := streamBlocks_reachable _ 0 hloop (Nat.zero_add _)
    obtain ⟨hsrc, hdst⟩ := State.ranges_reachable hi hcheck (State.verdict_ok_iff.1 hv).2
      (hin.congr (State.headerDone_platform s i).symm) (hout.congr (State.headerDone_platform s i).symm)
    exact .inl ⟨hsrc, hdst, u, streamBlocks_transformed hloop (Nat.le_refl _) hapart, hexec⟩
  · have hbefore := streamBlocks_transformed hloop (Nat.le_of_lt hk) hapart
    have hsame (a n : Nat) : u.verdict a n = s.verdict a n :=
      State.verdict_congr (by rw [hbefore.frame]; exact s.headerDone_platform i) a n
    obtain ⟨hinSpace, houtSpace⟩ := State.job_inSpace hcheck
    have hinside := block_inside hk
    rcases streamBlock_cases (s.job i) k u with
      ⟨-, -, he⟩ | ⟨hin, he⟩ | ⟨hin, hout, he⟩ | ⟨hin | hout, he⟩ | ⟨hin | hout, he⟩ <;> rw [hblock] at he
    · cases he
    · rw [hsame] at hin
      exact .inr (.inl ⟨_, .read hk hbefore hin, by injection he⟩)
    · rw [hsame] at hin hout
      exact .inr (.inl ⟨_, .write hk hbefore hin hout, by injection he⟩)
    · rw [hsame] at hin
      exact .inr (.inr ⟨hdevice hin fun x h1 h2 => .inr (.inl (by omega)), by injection he⟩)
    · rw [hsame] at hout
      exact .inr (.inr ⟨hdevice hout fun x h1 h2 => .inr (.inr (by omega)), by injection he⟩)
    · exact absurd hin (State.verdict_ne_outside (by omega))
    · exact absurd hout (State.verdict_ne_outside (by omega))

/-- An end with BUS has met a byte that does not answer. -/
theorem BusEnd.silent (hi : i ∈ streamInstrs) (hcheck : s.streamCheck i = none) (h : BusEnd i s t) :
    s.SomeInRanges i (fun x => s.busOk x = false) := by
  cases h with
  | header hv =>
    obtain ⟨-, -, m, hm, hsilent⟩ := State.verdict_eq_busError_iff.1 hv
    exact s.someInRanges hi hcheck hsilent (.inl (by omega))
  | read hk hbefore hin =>
    have hinside := block_inside hk
    obtain ⟨-, -, m, hm, hsilent⟩ := State.verdict_eq_busError_iff.1 hin
    exact s.someInRanges hi hcheck hsilent (.inr (.inl (by omega)))
  | write hk hbefore hin hout =>
    have hinside := block_inside hk
    obtain ⟨-, -, m, hm, hsilent⟩ := State.verdict_eq_busError_iff.1 hout
    exact s.someInRanges hi hcheck hsilent (.inr (.inr (by omega)))

theorem BusEnd.status (h : BusEnd i s t) : t.status.err = true ∧ t.status.errcode = 6 := by
  cases h <;> exact ⟨rfl, rfl⟩

/-- A stream command whose ranges are answering plain memory completes. -/
theorem exec_stream_of_reachable (hi : i ∈ streamInstrs) (hcheck : s.streamCheck i = none)
    (hsrc : s.Reachable s.src s.length) (hdst : s.Reachable s.dst (s.outLength i)) :
    ∃ u, Transformed (s.job i) (blockCount (s.job i).bodyLen) (s.headerDone i) u ∧
      exec i s = .next (u.finishStream (s.job i).bodyLen (s.outLength i)) := by
  rcases exec_stream_outcome hi hcheck with ⟨-, -, hdone⟩ | ⟨t, hbus, -⟩ | ⟨hdevice, -⟩
  · exact hdone
  · rcases hbus.silent hi hcheck with ⟨j, hj, hsilent⟩ | ⟨j, hj, hsilent⟩
    · simp [(hsrc j hj).1] at hsilent
    · simp [(hdst j hj).1] at hsilent
  · rcases hdevice with ⟨j, hj, hdev⟩ | ⟨j, hj, hdev⟩
    · simp [(hsrc j hj).2] at hdev
    · simp [(hdst j hj).2] at hdev

/-- A stream command without device registers in its ranges, but with a byte that does not answer, ends with BUS. -/
theorem exec_stream_of_silent (hi : i ∈ streamInstrs) (hcheck : s.streamCheck i = none)
    (hsrc : ∀ j < s.length, s.isDevice (s.src + j) = false)
    (hdst : ∀ j < s.outLength i, s.isDevice (s.dst + j) = false)
    (hsilent : s.SomeInRanges i fun x => s.busOk x = false) : ∃ t, BusEnd i s t ∧ exec i s = .next t := by
  rcases exec_stream_outcome hi hcheck with ⟨hin, hout, -⟩ | hbus | ⟨hdevice, -⟩
  · rcases hsilent with ⟨j, hj, hbad⟩ | ⟨j, hj, hbad⟩
    · simp [(hin j hj).1] at hbad
    · simp [(hout j hj).1] at hbad
  · exact hbus
  · rcases hdevice with ⟨j, hj, hdev⟩ | ⟨j, hj, hdev⟩
    · simp [hsrc j hj] at hdev
    · simp [hdst j hj] at hdev

/-- A stream command all of whose bytes answer, with a device register in its ranges, is refused. -/
theorem exec_stream_of_device (hi : i ∈ streamInstrs) (hcheck : s.streamCheck i = none)
    (hsrc : ∀ j < s.length, s.busOk (s.src + j) = true) (hdst : ∀ j < s.outLength i, s.busOk (s.dst + j) = true)
    (hdevice : s.SomeInRanges i fun x => s.isDevice x = true) : exec i s = .refused .deviceBuffer := by
  rcases exec_stream_outcome hi hcheck with ⟨hin, hout, -⟩ | ⟨t, hbus, -⟩ | ⟨-, hrefused⟩
  · rcases hdevice with ⟨j, hj, hbad⟩ | ⟨j, hj, hbad⟩
    · simp [(hin j hj).2] at hbad
    · simp [(hout j hj).2] at hbad
  · rcases hbus.silent hi hcheck with ⟨j, hj, hsilent⟩ | ⟨j, hj, hsilent⟩
    · simp [hsrc j hj] at hsilent
    · simp [hdst j hj] at hsilent
  · exact hrefused

end

/-- Settles O33. The one access of HDR_LOAD and HDR_STORE is refused, and of a stream command's accesses the first that
meets a device register. -/
theorem deviceBuffersAreRefused : Obligations.DeviceBuffersAreRefused := by
  intro s
  refine ⟨fun hspace hdevice => ?_, fun hspace hdevice => ?_, fun hcheck hsrc hdst hdevice => ?_,
    fun hcheck hsrc hdst hdevice => ?_⟩
  · have hcheck : hdrLoadCheck s = none := hdrLoadCheck_eq_none.2 hspace
    have hverdict : s.verdict s.src 8 = .device := State.verdict_eq_device_iff.2 ⟨hspace, hdevice⟩
    simp only [exec, execHdrLoad, hcheck, State.readThen, hverdict, Flow.andThen]
  · have hcheck : hdrStoreCheck s = none := hdrStoreCheck_eq_none.2 hspace
    have hverdict : s.verdict s.dst 8 = .device := State.verdict_eq_device_iff.2 ⟨hspace, hdevice⟩
    simp only [exec, execHdrStore, hcheck, State.writeThen, length_header, hverdict, Flow.andThen]
  · exact exec_stream_of_device (i := .encrypt) (by decide) hcheck hsrc hdst hdevice
  · exact exec_stream_of_device (i := .decrypt) (by decide) hcheck hsrc hdst hdevice

end Sys2Proof.Machine

/-! Proofs about what ENCRYPT and DECRYPT leave when they complete, when a bus error ends them, and after each other
(R173, R175, R178, R227, R231). -/

namespace Sys2Proof.Machine

section

variable {s u : State}

theorem State.withHeaderWritten_outside (s : State) {x : Nat} (hx : x < s.dst ∨ s.dst + 8 ≤ x) :
    Memory.byte s.withHeaderWritten.mem x = Memory.byte s.mem x :=
  Memory.byte_storeBytes_outside s.mem (by rwa [length_header])

/-! ## The bytes of a run of blocks (R173, R175) -/

theorem Transformed.encrypt_outside {k : Nat} (h : Transformed s.encryptJob k s.withHeaderWritten u) {x : Nat}
    (hx : x < s.dst ∨ s.dst + (min s.length (16 * k) + 8) ≤ x) : Memory.byte u.mem x = Memory.byte s.mem x := by
  have hjob : s.encryptJob.outBase = s.dst + 8 ∧ s.encryptJob.bodyLen = s.length := ⟨rfl, rfl⟩
  exact (h.outside x (by rw [hjob.1, hjob.2]; omega)).trans (s.withHeaderWritten_outside (by omega))

/-- ENCRYPT's output so far: the packed nonce and the transformed blocks. -/
theorem Transformed.encrypt_bytes {k : Nat} (h : Transformed s.encryptJob k s.withHeaderWritten u)
    (hcheck : encryptCheck s = none) :
    Memory.bytes u.mem s.dst (min s.length (16 * k) + 8) = s.packedNonce.toList ++
      ctrBody s.cipher s.keyBits s.packedNonce (Memory.bytes s.mem s.src (min s.length (16 * k))) s.ctrl.seqPresent
        s.seq := by
  have hapart : s.encryptJob.Apart := State.job_apart (i := .encrypt) hcheck
  have hheader : Memory.bytes u.mem s.dst 8 = s.packedNonce.toList := by
    rw [← s.bytes_withHeaderWritten]
    exact Memory.bytes_congr fun i hi => h.outside _ (.inl (by simp only [State.encryptJob]; omega))
  have hsource : Memory.bytes s.withHeaderWritten.mem s.src (min s.length (16 * k)) =
      Memory.bytes s.mem s.src (min s.length (16 * k)) := by
    obtain ⟨-, -, -, hover⟩ := encryptCheck_eq_none.1 hcheck
    have hover := overlap_eq_false.1 hover
    exact Memory.bytes_congr fun i hi => s.withHeaderWritten_outside (by omega)
  rw [Nat.add_comm, Memory.bytes_add, hheader, ← hsource]
  exact congrArg _ h.body

theorem min_blocks (m : Nat) : min m (16 * blockCount m) = m := by
  simp only [blockCount]
  omega

theorem blockCount_eq_zero_iff {m : Nat} : blockCount m = 0 ↔ m = 0 := by
  rw [blockCount]
  omega

theorem toNat_blockCount (w : Nat) (hw : w < 2 ^ 32) : (BitVec.ofNat 32 (blockCount w)).toNat = blockCount w := by
  rw [BitVec.toNat_ofNat, Nat.mod_eq_of_lt]
  rw [blockCount]
  omega

end

/-! ## Completion (R173, R175) -/

/-- Settles O34. The checks pass and every access is answered, so the whole loop runs behind the header. -/
theorem encryptWritesHeaderAndBody : Obligations.EncryptWritesHeaderAndBody := by
  intro s hlegal hsrc hdst hapart hin hout
  have hcheck : encryptCheck s = none := encryptCheck_eq_none.2 ⟨legalKeyBits_iff.2 hlegal, hsrc, hdst,
    overlap_eq_false.2 (by simp only [State.length, State.src, State.dst]; omega)⟩
  obtain ⟨u, hdone, hexec⟩ := exec_stream_of_reachable (i := .encrypt) (by decide) hcheck hin hout
  replace hdone : Transformed s.encryptJob (blockCount s.length) s.withHeaderWritten u := hdone
  have hbytes := hdone.encrypt_bytes hcheck
  have houtside := fun x => hdone.encrypt_outside (x := x)
  rw [min_blocks] at hbytes houtside
  refine ⟨_, hexec, ?_, hbytes, fun a ha => houtside a ha, toNat_blockCount s.length s.len.isLt, ?_, ?_, ?_⟩
  · rw [hdone.frame]
    rfl
  · exact (BitVec.toNat_ofNat ..).trans (Nat.mod_eq_of_lt (encryptCheck_length hcheck))
  · rw [hdone.frame]
    rfl
  · exact hdone.counter.trans (if_congr blockCount_eq_zero_iff rfl rfl)

/-- Settles O35. The checks pass and every access is answered, so the header is taken and the whole loop runs. -/
theorem decryptReadsHeaderAndWritesBody : Obligations.DecryptReadsHeaderAndWritesBody := by
  intro s hlegal hlen hsrc hdst hapart hin hout
  have hcheck : decryptCheck s = none := decryptCheck_eq_none.2 ⟨legalKeyBits_iff.2 hlegal, hlen, hsrc, hdst,
    overlap_eq_false.2 (by simp only [State.length, State.src, State.dst]; omega)⟩
  obtain ⟨u, hdone, hexec⟩ := exec_stream_of_reachable (i := .decrypt) (by decide) hcheck hin hout
  have hheader : u.cb.header = halfOfList (Memory.bytes s.mem s.src 8) := by
    rw [hdone.frame]
    rfl
  have hbytes := hdone.body
  have houtside := hdone.outside
  rw [min_blocks] at hbytes houtside
  have hlength : s.length - 8 < 2 ^ 32 := Nat.lt_of_le_of_lt (Nat.sub_le ..) s.len.isLt
  refine ⟨_, hexec, ?_, ?_, ?_, fun a ha => houtside a ha, toNat_blockCount _ hlength, ?_, ?_⟩
  · rw [hdone.frame]
    rfl
  · rw [State.finishStream_cb, hheader]
    exact toList_halfOfList (Memory.length_bytes ..)
  · rw [State.finishStream_cb, hheader]
    exact hbytes
  · exact (BitVec.toNat_ofNat ..).trans (Nat.mod_eq_of_lt hlength)
  · refine hdone.counter.trans (if_congr (blockCount_eq_zero_iff.trans ?_) rfl rfl)
    simp only [State.job, State.decryptJob, State.length]
    omega

/-! ## An end with BUS (R227, R231) -/

/-- In the states after the first `k` blocks a block index is a number of 32 bits. -/
theorem toNat_block {m k : Nat} (hm : m < 2 ^ 32) (hk : k < blockCount m) : (BitVec.ofNat 32 k).toNat = k := by
  rw [BitVec.toNat_ofNat, Nat.mod_eq_of_lt (lt_two_pow_of_lt_blockCount hm hk)]

/-- Blocks before the last are whole. -/
theorem min_blocks_before {m k : Nat} (hk : k < blockCount m) : min m (16 * k) = 16 * k := by
  rw [blockCount] at hk
  omega

/-- A read or write of a block that was answered met answering bytes alone, and one that was not met one that is
silent. -/
theorem State.exists_silent {s : State} {a n : Nat} (h : s.verdict a n = .busError) :
    ∃ j < n, s.busOk (a + j) = false :=
  (State.verdict_eq_busError_iff.1 h).2.2

theorem State.all_answer {s : State} {a n : Nat} (h : s.verdict a n = .ok) : ∀ j < n, s.busOk (a + j) = true :=
  fun j hj => ((State.verdict_ok_iff.1 h).2 j hj).1

/-- A command that ends with BUS, where it did not start with an error, has not completed. -/
theorem exec_stream_error {i : Instr} {s t : State} (hi : i ∈ streamInstrs) (hcheck : s.streamCheck i = none)
    (h : exec i s = .next t) (hstart : s.status.err = false) (herr : t.status.err = true) : BusEnd i s t := by
  rcases exec_stream_outcome hi hcheck with ⟨-, -, u, hdone, hexec⟩ | ⟨t', hbus, hexec⟩ | ⟨-, hexec⟩ <;>
    rw [h] at hexec <;> cases hexec
  · have hstatus : u.status = s.status := by
      rw [hdone.frame]
      rcases mem_streamInstrs.1 hi with rfl | rfl <;> rfl
    rw [State.finishStream_status, Status.completed_err, hstatus, hstart] at herr
    cases herr
  · exact hbus

theorem State.job_bodyLen_lt {i : Instr} (hi : i ∈ streamInstrs) (s : State) : (s.job i).bodyLen < 2 ^ 32 := by
  rcases mem_streamInstrs.1 hi with rfl | rfl
  · exact s.len.isLt
  · exact Nat.lt_of_le_of_lt (Nat.sub_le ..) s.len.isLt

/-- The engine's settings are as the command found them when its block loop begins. -/
theorem State.headerDone_frame {i : Instr} (hi : i ∈ streamInstrs) (s : State) : s.headerDone i = { s with
    idx := 0, cb := ⟨(s.headerDone i).cb.header, s.cb.counter⟩, mem := (s.headerDone i).mem } := by
  rcases mem_streamInstrs.1 hi with rfl | rfl <;> rfl

/-- An end with BUS in the block loop: IDX names the block `k` whose access was not answered, CB is its counter block,
and memory is as after the blocks before `k`, but for the bytes of the write that was not answered. -/
theorem BusEnd.block {i : Instr} {s t : State} (hi : i ∈ streamInstrs) (h : BusEnd i s t) :
    (s.verdict (s.headerAddr i) 8 = .busError ∧ t = (s.headerBroken i).failStream .bus) ∨
    ∃ k u, k < blockCount (s.job i).bodyLen ∧ Transformed (s.job i) k (s.headerDone i) u ∧ t.idx.toNat = k ∧
      t.cb = ⟨(s.headerDone i).cb.header, encodeCounter k s.ctrl.seqPresent s.seq⟩ ∧
      (((∃ m < blockLen (s.job i).bodyLen k, s.busOk ((s.job i).inBase + 16 * k + m) = false) ∧ t.mem = u.mem) ∨
       ((∀ m < blockLen (s.job i).bodyLen k, s.busOk ((s.job i).inBase + 16 * k + m) = true) ∧
        (∃ m < blockLen (s.job i).bodyLen k, s.busOk ((s.job i).outBase + 16 * k + m) = false) ∧
        ∀ x, x < (s.job i).outBase + 16 * k ∨ (s.job i).outBase + 16 * k + blockLen (s.job i).bodyLen k ≤ x →
          Memory.byte t.mem x = Memory.byte u.mem x)) := by
  have hcb {k : Nat} {u : State} (hbefore : Transformed (s.job i) k (s.headerDone i) u) : (u.startBlock k).cb =
      ⟨(s.headerDone i).cb.header, encodeCounter k s.ctrl.seqPresent s.seq⟩ := by
    rw [hbefore.frame, State.headerDone_frame hi]
    rfl
  cases h with
  | header hv => exact .inl ⟨hv, rfl⟩
  | @read k u hk hbefore hin =>
    exact .inr ⟨k, u, hk, hbefore, toNat_block (s.job_bodyLen_lt hi) hk, hcb hbefore,
      .inl ⟨State.exists_silent hin, rfl⟩⟩
  | @write k u hk hbefore hin hout =>
    refine .inr ⟨k, u, hk, hbefore, ?_, ?_, .inr ⟨State.all_answer hin, State.exists_silent hout, fun x hx => ?_⟩⟩
    · rw [State.scramble_eq]
      exact toNat_block (s.job_bodyLen_lt hi) hk
    · rw [State.scramble_eq]
      exact hcb hbefore
    · refine State.scramble_byte_outside (u.startBlock k).cipherExchange ?_
      rw [mem_addresses]
      omega

theorem BusEnd.zeroed {i : Instr} {s t : State} (h : BusEnd i s t) : t.ks = zeroBytes 16 ∧ t.outLen = 0 := by
  cases h <;> exact ⟨rfl, rfl⟩

/-- Settles O38. The block loop is over at the block whose access met the silent byte, and everything it has done is
that of the blocks before. -/
theorem encryptBusErrorKeepsEarlierBlocks : Obligations.EncryptBusErrorKeepsEarlierBlocks := by
  have hi : Instr.encrypt ∈ streamInstrs := by decide
  refine ⟨fun s hcheck hsrc hdst hsilent => ?_, fun s t hcheck h hstart herr => ?_⟩
  · obtain ⟨t, hbus, hexec⟩ := exec_stream_of_silent hi hcheck hsrc hdst hsilent
    exact ⟨t, hexec, hbus.status⟩
  have hbus := exec_stream_error hi hcheck h hstart herr
  obtain ⟨hks, hout⟩ := hbus.zeroed
  refine ⟨hbus.status.2, hks, hout, ?_⟩
  rcases hbus.block hi with ⟨hv, ht⟩ | ⟨k, u, hk, hbefore, hidx, hcb, hend⟩
  · have hframe : t = { s.encryptStart.failStream .bus with mem := t.mem, draws := t.draws } := by
      rw [ht, show s.headerBroken .encrypt = State.scramble (addresses s.dst 8) s.encryptStart from rfl,
        State.scramble_eq]
      rfl
    refine ⟨by rw [hframe]; rfl, .inl ⟨by rw [hframe]; rfl, by rw [hframe]; rfl, State.exists_silent hv, fun a ha => ?_⟩⟩
    rw [ht]
    refine State.scramble_byte_outside s.encryptStart ?_
    rw [mem_addresses]
    simp only [State.dst]
    omega
  · replace hbefore : Transformed s.encryptJob k s.withHeaderWritten u := hbefore
    replace hk : k < blockCount s.length := hk
    have hbytes := hbefore.encrypt_bytes hcheck
    have houtside := fun x => hbefore.encrypt_outside (x := x)
    rw [min_blocks_before hk] at hbytes houtside
    have hkept : ∀ x < s.dst + 8 + 16 * k, Memory.byte t.mem x = Memory.byte u.mem x := fun x hx => by
      rcases hend with ⟨-, hmem⟩ | ⟨-, -, hmem⟩
      · rw [hmem]
      · exact hmem x (.inl hx)
    rw [hcb, hidx]
    refine ⟨rfl, .inr ⟨hk, rfl, ?_, ?_⟩⟩
    · rw [Nat.add_comm 8]
      exact (Memory.bytes_congr fun m hm => hkept _ (by simp only [State.dst]; omega)).trans hbytes
    · rcases hend with ⟨hsilent, hmem⟩ | ⟨hanswer, hsilent, hmem⟩
      · refine .inl ⟨hsilent, fun a ha => ?_⟩
        rw [hmem]
        exact houtside a (by simp only [State.dst]; omega)
      · refine .inr ⟨hanswer, hsilent, fun a ha => ?_⟩
        refine (hmem a ?_).trans (houtside a ?_)
        · simp only [State.job, State.encryptJob, State.dst, State.length, blockLen]
          omega
        · simp only [State.dst]
          omega

/-- Settles O39. As for ENCRYPT, but for the header, which DECRYPT reads and keeps in CB. -/
theorem decryptBusErrorKeepsEarlierBlocks : Obligations.DecryptBusErrorKeepsEarlierBlocks := by
  have hi : Instr.decrypt ∈ streamInstrs := by decide
  refine ⟨fun s hcheck hsrc hdst hsilent => ?_, fun s t hcheck h hstart herr => ?_⟩
  · obtain ⟨t, hbus, hexec⟩ := exec_stream_of_silent hi hcheck hsrc hdst hsilent
    exact ⟨t, hexec, hbus.status⟩
  have hbus := exec_stream_error hi hcheck h hstart herr
  obtain ⟨hks, hout⟩ := hbus.zeroed
  refine ⟨hbus.status.2, hks, hout, ?_⟩
  rcases hbus.block hi with ⟨hv, rfl⟩ | ⟨k, u, hk, hbefore, hidx, hcb, hend⟩
  · exact .inl ⟨rfl, rfl, rfl, State.exists_silent hv⟩
  · replace hk : k < blockCount (s.length - 8) := hk
    have hbytes := hbefore.body
    have houtside := hbefore.outside
    have hblocks : min (s.job .decrypt).bodyLen (16 * k) = 16 * k := min_blocks_before hk
    rw [hblocks] at hbytes houtside
    have hkept : ∀ x < s.dst + 16 * k, Memory.byte t.mem x = Memory.byte u.mem x := fun x hx => by
      rcases hend with ⟨-, hmem⟩ | ⟨-, -, hmem⟩
      · rw [hmem]
      · exact hmem x (.inl hx)
    rw [hcb, hidx]
    refine .inr ⟨hk, toList_halfOfList (Memory.length_bytes ..), rfl, ?_, ?_⟩
    · exact (Memory.bytes_congr fun m hm => hkept _ (by simp only [State.dst]; omega)).trans hbytes
    · rcases hend with ⟨hsilent, hmem⟩ | ⟨hanswer, hsilent, hmem⟩
      · refine .inl ⟨hsilent, fun a ha => ?_⟩
        rw [hmem]
        exact houtside a ha
      · refine .inr ⟨hanswer, hsilent, fun a ha => ?_⟩
        refine (hmem a ?_).trans (houtside a ?_)
        · simp only [State.job, State.decryptJob, State.dst, State.length, blockLen]
          omega
        · simp only [State.job, State.decryptJob, State.dst]
          omega

/-! ## The round trip (R178) -/

/-- What a successful ENCRYPT leaves at its destination: its header and the transformed body. -/
theorem encrypt_bytes {s t : State} (h : exec .encrypt s = .next t) (hok : t.status.err = false) :
    encryptCheck s = none ∧ Memory.bytes t.mem s.dst (s.length + 8) = s.packedNonce.toList ++
      ctrBody s.cipher s.keyBits s.packedNonce (Memory.bytes s.mem s.src s.length) s.ctrl.seqPresent s.seq := by
  cases hcheck : encryptCheck s with
  | some c =>
    rw [exec, execEncrypt_of_check hcheck] at h
    cases h
    cases hok
  | none =>
    refine ⟨rfl, ?_⟩
    rcases exec_stream_outcome (i := .encrypt) (by decide) hcheck with
      ⟨-, -, u, hdone, hexec⟩ | ⟨t', hbus, hexec⟩ | ⟨-, hexec⟩ <;> rw [h] at hexec <;> cases hexec
    · have hbytes := Transformed.encrypt_bytes (k := blockCount s.length) hdone hcheck
      rwa [min_blocks] at hbytes
    · rw [hbus.status.1] at hok
      cases hok

/-- Settles O45. DECRYPT finds ENCRYPT's header, so its keystream is ENCRYPT's, and the body transform is its own
inverse. -/
theorem decryptUndoesEncrypt : Obligations.DecryptUndoesEncrypt := by
  intro s t u h _ hok hkey hcipher hpresent hseq hsrc hlen hmem hdst hapart hin hout
  obtain ⟨hcheck, hbytes⟩ := encrypt_bytes h hok
  obtain ⟨hlegal, -, hspace, -⟩ := encryptCheck_eq_none.1 hcheck
  have hbody : u.len.toNat - 8 = s.len.toNat := by omega
  obtain ⟨v, hexec, hframe, hheader, hplain, -, -, houtLen, -⟩ := decryptReadsHeaderAndWritesBody u
    (by rw [hkey]; exact legalKeyBits_iff.1 hlegal) (by omega) (by rw [hsrc, hlen]; exact hspace) (by omega)
    (by rw [hsrc]; omega) (by rwa [hsrc, hlen]) (by rwa [hbody])
  replace hbytes : Memory.bytes u.mem s.dst (s.length + 8) = _ := hmem.trans hbytes
  rw [Nat.add_comm, Memory.bytes_add] at hbytes
  obtain ⟨hnonce, hcipherText⟩ := List.append_inj hbytes (by simp)
  have hheader : v.cb.header = s.packedNonce := by
    rw [← Vector.toList_inj, hheader, hsrc]
    exact hnonce
  rw [hbody, hheader, hsrc, hkey, hcipher, hpresent, hseq] at hplain
  refine ⟨v, hexec, by rw [hframe], by rw [hframe], BitVec.eq_of_toNat_eq (houtLen.trans hbody), hplain.trans ?_⟩
  exact (congrArg (fun x => ctrBody s.cipher s.keyBits s.packedNonce x s.ctrl.seqPresent s.seq) hcipherText).trans
    (ctrBody_ctrBody ..)

end Sys2Proof.Machine

/-! Proofs about reset (R250, R251) and about the accesses of other agents where no command watches (R84, R88, R90). -/

namespace Sys2Proof.Machine

/-! ## Reset (R250, R251; log 15) -/

theorem step_reset {s : State} {rest : List Event} (h : s.events = .reset :: rest) :
    step s = .next (resetEngine { s with events := rest }) :=
  step_of_events_cons h

/-- Reset keeps what lies outside the engine, and memory but for what `breakWrite` and the races do to it. -/
theorem resetEngine_frame (s : State) : resetEngine s = { State.reset with
    mem := (resetEngine s).mem, platform := s.platform, cipher := s.cipher, others := s.others, hostCache := s.hostCache
    response := s.response, dataResponse := s.dataResponse, events := s.events, draws := (resetEngine s).draws } := by
  have hsettles := ((breakWrite_settles s).trans (recordAbandoned_settles _)).trans (settle_settles _)
  unfold resetEngine
  rw [hsettles.frame]

/-- Where no race was noted, reset settles nothing. -/
theorem resetEngine_mem_of_quiet {s : State} (h : s.windows.all Window.quiet = true) :
    (resetEngine s).mem = s.breakWrite.mem := by
  have hquiet : s.breakWrite.recordAbandoned.windows.all Window.quiet = true := by
    rw [recordAbandoned_quiet, breakWrite_eq]
    exact h
  have hmem : s.breakWrite.recordAbandoned.mem = s.breakWrite.mem := by
    simp only [State.recordAbandoned, State.record]
    split
    · split <;> rfl
    · rfl
  exact (congrArg State.mem (settle_of_quiet hquiet)).trans hmem

/-- A write in progress is broken off in its own bytes (R251). -/
theorem breakWrite_byte_outside {s : State} {x : Nat}
    (h : ∀ r b bs, s.phase = .busy r → r.outstanding = some (.write b bs) → x < b ∨ b + bs.length ≤ x) :
    Memory.byte s.breakWrite.mem x = Memory.byte s.mem x := by
  unfold State.breakWrite
  split
  · rename_i b bs hphase
    refine State.scramble_byte_outside s fun hx => ?_
    have houtside := h _ b bs hphase rfl
    rw [List.mem_filter, mem_addresses] at hx
    omega
  · rfl

theorem breakWrite_of_no_write {s : State}
    (h : ∀ r a bs, s.phase = .busy r → r.outstanding ≠ some (.write a bs)) : s.breakWrite = s := by
  unfold State.breakWrite
  split
  · rename_i hphase
    exact absurd rfl (h _ _ _ hphase)
  · rfl

/-- Settles O51. Every register of the engine is the reset state's; memory is as `breakWrite` left it. -/
theorem resetLeavesZeros : Obligations.ResetLeavesZeros := by
  unfold Obligations.ResetLeavesZeros
  intro zeros
  have hreset : zeros State.reset := by
    simp only [zeros]
    decide
  refine ⟨hreset, fun s rest hevents => ⟨_, step_reset hevents, ?_, ?_, fun hquiet hwrite => ?_⟩⟩
  · rw [resetEngine_frame]
    exact hreset
  · rw [resetEngine_frame]
  · have hbroken := breakWrite_of_no_write (s := { s with events := rest }) hwrite
    exact (resetEngine_mem_of_quiet (s := { s with events := rest }) hquiet).trans (by rw [hbroken])

/-- Settles O52. Without races reset changes memory in the bytes of a write in progress alone. -/
theorem resetInputRestoresTheEngine : Obligations.ResetInputRestoresTheEngine := by
  intro s rest hevents hquiet
  refine ⟨_, step_reset hevents, ?_, fun a ha => ?_⟩
  · rw [resetEngine_frame]
  · have hmem := resetEngine_mem_of_quiet (s := { s with events := rest }) hquiet
    rw [hmem]
    exact breakWrite_byte_outside (s := { s with events := rest }) ha

/-! ## Unwatched accesses of another master (R84, R90) -/

theorem watched_addresses {s : State} {who : Master} {a n : Nat} (h : ∀ i < n, s.watched who (a + i) = false) :
    ∀ x ∈ addresses a n, s.watched who x = false := by
  intro x hx
  rw [mem_addresses] at hx
  have hi := h (x - a) (by omega)
  rwa [Nat.add_sub_cancel' hx.1] at hi

theorem inSpace_of_le {a n : Nat} (h : a + n ≤ dataSpaceBytes) (s : State) : inSpace a n s = .next s :=
  inSpace_eq_next.2 ⟨h, rfl⟩

theorem masterWrite_of_unwatched {s : State} (hinv : s.Inv) {who : Master} (hmaster : s.hasMaster who = true) {a : Nat}
    {bs : List Byte} (hspace : a + bs.length ≤ dataSpaceBytes)
    (hwatch : ∀ i < bs.length, s.watched who (a + i) = false) :
    masterWrite who a bs s = .next { s with mem := Memory.storeBytes s.mem a bs } := by
  have hwrites := afterWrites_of_unwatched (t := { s with mem := Memory.storeBytes s.mem a bs }) hinv rfl rfl
    (watched_addresses hwatch)
  rw [masterWrite, if_pos hmaster, inSpace_of_le hspace, hwrites]

/-- Reads of unwatched addresses note nothing and settle nothing, whatever they answer. -/
theorem settled_read_of_unwatched {s t : State} (hinv : s.Inv) {who : Master} {as : List Nat}
    (hphase : t.phase = s.phase) (hwindows : t.windows = s.windows) (hwatch : ∀ x ∈ as, t.watched who x = false) :
    (t.noteReads who as).settleIfIdle = t := by
  rw [noteReads_of_unwatched hwatch, settleIfIdle_of_inv hinv hphase hwindows]

theorem masterRead_of_unwatched {s : State} (hinv : s.Inv) {who : Master} (hmaster : s.hasMaster who = true) {a n : Nat}
    (hspace : a + n ≤ dataSpaceBytes) (hwatch : ∀ i < n, s.watched who (a + i) = false) :
    masterRead who a n s = .next { s with dataResponse := Memory.bytes s.mem a n } := by
  have hread : readEach (State.observe who) (addresses a n) s = (Memory.bytes s.mem a n, s) := by
    rw [readEach_observe_of_unwatched (watched_addresses hwatch), addresses, List.map_map]
    rfl
  have hsettled := settled_read_of_unwatched (t := { s with dataResponse := Memory.bytes s.mem a n }) (who := who) hinv
    rfl rfl (watched_addresses hwatch)
  rw [masterRead, if_pos hmaster, inSpace_of_le hspace, hread, hsettled]

/-- A string written at an address is there byte by byte, and the other bytes are as they were (R75). -/
theorem Memory.storeBytes_wrote (m : Memory) (a : Nat) (bs : List Byte) :
    (∀ i (h : i < bs.length), Memory.byte (Memory.storeBytes m a bs) (a + i) = bs[i]) ∧
      ∀ x, x < a ∨ a + bs.length ≤ x → Memory.byte (Memory.storeBytes m a bs) x = Memory.byte m x :=
  ⟨fun _ h => Memory.byte_storeBytes_inside m a bs h, fun _ hx => Memory.byte_storeBytes_outside m hx⟩

/-- Settles O59. No window notes an unwatched access, so nothing is left to settle. -/
theorem unwatchedMasterAccessIsPlain : Obligations.UnwatchedMasterAccessIsPlain := by
  refine ⟨fun s who a bs rest hinv hmaster hevents hspace hwatch => ?_,
    fun s who a n rest hinv hmaster hevents hspace hwatch => ?_⟩
  · obtain ⟨hinside, houtside⟩ := Memory.storeBytes_wrote s.mem a bs
    exact ⟨_, (step_of_events_cons hevents).trans
      (masterWrite_of_unwatched (hinv.withEvents rest) hmaster hspace hwatch), rfl, hinside, houtside⟩
  · exact (step_of_events_cons hevents).trans (masterRead_of_unwatched (hinv.withEvents rest) hmaster hspace hwatch)

/-! ## The host and its caches (R88; log 10) -/

section

variable {s : State} {a n : Nat} {bs : List Byte}

theorem hostStore_of_incoherent (hinv : s.Inv) (hcoherent : s.platform.coherent = false)
    (hspace : a + bs.length ≤ dataSpaceBytes) (hwatch : ∀ i < bs.length, s.watched .bus (a + i) = false) :
    hostStore a bs s = .next { s with hostCache :=
      ⟨Memory.erase s.hostCache.clean a bs.length, Memory.storeBytes s.hostCache.dirty a bs⟩ } := by
  have hwrites := afterWrites_of_unwatched (who := .bus) (t := { s with hostCache :=
    ⟨Memory.erase s.hostCache.clean a bs.length, Memory.storeBytes s.hostCache.dirty a bs⟩ }) hinv rfl rfl
    (watched_addresses hwatch)
  simp only [hostStore, hcoherent, Bool.false_eq_true, if_false]
  rw [inSpace_of_le hspace, hwrites]

theorem hostWriteBack_of_unwatched (hinv : s.Inv) (hcoherent : s.platform.coherent = false)
    (hspace : a + n ≤ dataSpaceBytes) (hwatch : ∀ i < n, s.watched .bus (a + i) = false) :
    hostCacheOp .writeBack a n s = .next (State.writeBack (addresses a n) s) := by
  have hframe := writeBack_frame (addresses a n) s
  have hwrites : (State.writeBack (addresses a n) s).afterWrites .bus
      ((addresses a n).filter fun x => (Memory.find s.hostCache.dirty x).isSome) = State.writeBack (addresses a n) s := by
    refine afterWrites_of_unwatched hinv (by rw [hframe]) (by rw [hframe]) fun x hx => ?_
    rw [hframe]
    exact watched_addresses hwatch x (List.mem_filter.1 hx).1
  simp only [hostCacheOp, hcoherent, Bool.false_eq_true, if_false]
  rw [inSpace_of_le hspace, hwrites]

theorem hostLoad_of_incoherent (hinv : s.Inv) (hcoherent : s.platform.coherent = false) (hspace : a + n ≤ dataSpaceBytes)
    (hwatch : ∀ i < n, s.watched .bus (a + i) = false) :
    ∃ t, hostLoad a n s = .next t ∧ t = { s with dataResponse := t.dataResponse, hostCache := t.hostCache } ∧
      t.dataResponse = (List.range n).map fun i =>
        (s.hostCache.find (a + i)).getD (Memory.byte s.mem (a + i)) := by
  obtain ⟨hbytes, hframe⟩ := readEach_load_of_unwatched (addresses_nodup a n) (watched_addresses hwatch)
  generalize hread : readEach State.load (addresses a n) s = read at hbytes hframe
  have hsettled := settled_read_of_unwatched (who := .bus)
    (t := { s with dataResponse := read.1, hostCache := read.2.hostCache }) hinv rfl rfl (watched_addresses hwatch)
  refine ⟨{ s with dataResponse := read.1, hostCache := read.2.hostCache }, ?_, rfl, ?_⟩
  · simp only [hostLoad, hcoherent, Bool.false_eq_true, if_false]
    rw [inSpace_of_le hspace, hread, hframe, hsettled]
  · rw [hbytes, addresses, List.map_map]
    rfl

theorem hostInvalidate (hcoherent : s.platform.coherent = false) (hspace : a + n ≤ dataSpaceBytes) :
    hostCacheOp .invalidate a n s = .next { s with hostCache :=
      ⟨Memory.erase s.hostCache.clean a n, Memory.erase s.hostCache.dirty a n⟩ } := by
  simp only [hostCacheOp, hcoherent, Bool.false_eq_true, if_false]
  rw [inSpace_of_le hspace]

theorem find_erased (c : HostCache) {i : Nat} (hi : i < n) :
    HostCache.find ⟨Memory.erase c.clean a n, Memory.erase c.dirty a n⟩ (a + i) = none := by
  have hin : a ≤ a + i ∧ a + i < a + n := by omega
  simp only [HostCache.find, Memory.find_erase, if_pos hin]

end

/-- Settles O60. On a coherent platform the host is a bus master; on another its store waits in the cache until the write
back finds it there. -/
theorem hostAccessesFollowCoherence : Obligations.HostAccessesFollowCoherence := by
  rintro s a _ bs rest hinv rfl hspace hwatch input wrote
  have hstep (t : State) (e : Event) : input t e = handle e { t with events := rest } := step_of_events_cons rfl
  simp only [hstep, handle]
  have hinv := hinv.withEvents rest
  refine ⟨fun hcoherent => ⟨?_, ?_⟩, fun hcoherent => ⟨?_, ?_, ?_⟩⟩
  · refine ⟨{ s with events := rest, mem := Memory.storeBytes s.mem a bs }, ?_, rfl, Memory.storeBytes_wrote s.mem a bs⟩
    simp only [hostStore, hcoherent, if_true]
    exact masterWrite_of_unwatched hinv rfl hspace hwatch
  · simp only [hostLoad, hcoherent, if_true]
    exact masterRead_of_unwatched hinv rfl hspace hwatch
  · have hstore := hostStore_of_incoherent hinv hcoherent hspace hwatch
    have hback := hostWriteBack_of_unwatched (n := bs.length) (hostStore_inv hinv hstore) hcoherent hspace hwatch
    refine ⟨_, hstore, rfl, _, hback, writeBack_frame _ _, fun i hi => ?_, fun x hx => ?_⟩
    · rw [byte_writeBack (addresses_nodup _ _), if_pos (mem_addresses.2 (by omega)), Memory.find_storeBytes,
        dif_pos (by omega)]
      simp
    · rw [byte_writeBack (addresses_nodup _ _), if_neg (mt mem_addresses.1 (by omega))]
  · exact hostLoad_of_incoherent hinv hcoherent hspace hwatch
  · exact ⟨_, hostInvalidate hcoherent hspace, rfl, fun i hi => find_erased s.hostCache hi⟩

end Sys2Proof.Machine

/-! Proofs about runs of the engine alone (R134, R135, R263): every move keeps what the one-step reading makes of
the rest of the command, so that an accepted command ends as in one step, after a bounded number of moves. -/

namespace Sys2Proof.Machine

/-! ## The rest of a command -/

/-- The header access of a stream command, in the one-step reading (R173, R175). -/
def State.headerExchange (s : State) : Instr → Flow
  | .decrypt => s.readThen s.src 8 (State.failStream .bus) fun h => .cont (s.setHeader (halfOfList h))
  | _ => s.writeThen s.dst s.cb.header.toList (State.failStream .bus) .cont

/-- Action B4 of a block whose bytes have been read, in the one-step reading (R174, R176). -/
def State.writeBlock (s : State) (j : StreamJob) (b : Nat) (x : List Byte) : Flow :=
  s.writeThen (j.outBase + 16 * b) (xorBytes x (s.ks.toList.take (blockLen j.bodyLen b))) (State.failStream .bus) .cont

/-- Actions B3 and B4 of a block, in the one-step reading (R174, R176). -/
def State.readBlock (s : State) (j : StreamJob) (b : Nat) : Flow :=
  s.readThen (j.inBase + 16 * b) (blockLen j.bodyLen b) (State.failStream .bus) (s.writeBlock j b)

/-- A stream command from block `b` on, in the one-step reading. -/
def StreamJob.restFrom (j : StreamJob) (outLen b : Nat) (s : State) : Host.Outcome State Fault Refusal :=
  (streamBlocks j (blockCount j.bodyLen - b) b s).andThen fun u => .next (u.finishStream j.bodyLen outLen)

/-- The exchange of a command that makes one, in the one-step reading (R171, R201, R202). -/
def State.exchanged (s : State) : Instr → Flow
  | .genKs => .cont s.cipherExchange
  | .hdrLoad => s.readThen s.src 8 (State.raiseError .bus) fun h => .cont (s.setHeader (halfOfList h))
  | _ => s.writeThen s.dst s.cb.header.toList (State.raiseError .bus) .cont

/-- What the one-step reading makes of the rest of a stream command from a position of its action list on. -/
def State.restOfStream (s : State) (i : Instr) (r : Running) : Host.Outcome State Fault Refusal :=
  match r.action with
  | .a0 | .a1 => exec i s
  | .a2 => (s.headerExchange i).andThen ((s.job i).restFrom (s.outLength i) 0)
  | .b1 => (s.job i).restFrom (s.outLength i) r.block s
  | .b2 => (s.cipherExchange.readBlock (s.job i) r.block).andThen ((s.job i).restFrom (s.outLength i) (r.block + 1))
  | .b3 => (s.readBlock (s.job i) r.block).andThen ((s.job i).restFrom (s.outLength i) (r.block + 1))
  | .b4 => (s.writeBlock (s.job i) r.block r.latch).andThen ((s.job i).restFrom (s.outLength i) (r.block + 1))
  | .a3 => .next (s.finishStream (s.job i).bodyLen (s.outLength i))

/-- What the one-step reading makes of the rest of a command of one exchange. -/
def State.restOfExchange (s : State) (i : Instr) (r : Running) : Host.Outcome State Fault Refusal :=
  match r.action with
  | .a0 => exec i s
  | .a3 => .next s.complete
  | _ => (s.exchanged i).andThen fun u => .next u.complete

/-- What the one-step reading makes of the rest of a command from a position of its action list on. -/
def State.rest (s : State) (r : Running) : Host.Outcome State Fault Refusal :=
  match decodeWord r.word with
  | .ok i =>
    if i ∈ streamInstrs then s.restOfStream i r else if i ∈ exchangeInstrs then s.restOfExchange i r else exec i s
  | .error _ => execIllegal s

/-- The same state with the sequencer elsewhere. -/
def State.withPhase (s : State) (p : Phase) : State := { s with phase := p }

/-- Where a command running in a state ends in the one-step reading. That reading does not move the sequencer, which is
put at a position `p` that all states of the run share. -/
def State.outcome (p : Phase) (s : State) : Host.Outcome State Fault Refusal :=
  match s.phase with
  | .idle => .next s
  | .busy r => (s.withPhase p).rest r

/-- Where a command ends after one move. -/
def outcomeAfter (p : Phase) : Host.Outcome State Fault Refusal → Host.Outcome State Fault Refusal
  | .next s => s.outcome p
  | .fault f => .fault f
  | .refused f => .refused f

section

variable {p : Phase} {s u : State} {r : Running} {i : Instr} {k : State → Host.Outcome State Fault Refusal}

theorem outcome_of_busy (hphase : s.phase = .busy r) : s.outcome p = (s.withPhase p).rest r := by
  simp only [State.outcome, hphase]

theorem outcome_of_idle (hphase : s.phase = .idle) : s.outcome p = .next s := by
  simp only [State.outcome, hphase]

@[simp] theorem State.job_withPhase (s : State) (p : Phase) (i : Instr) : (s.withPhase p).job i = s.job i := rfl

@[simp] theorem State.outLength_withPhase (s : State) (p : Phase) (i : Instr) :
    (s.withPhase p).outLength i = s.outLength i := rfl

theorem State.scramble_withPhase (as : List Nat) (s : State) (p : Phase) :
    State.scramble as (s.withPhase p) = (State.scramble as s).withPhase p := by
  induction as generalizing s with
  | nil => rfl
  | cons a as ih => exact ih { s with mem := Memory.store s.mem a (Config.freeByte s.draws), draws := s.draws + 1 }

theorem State.rest_of_stream (hi : i ∈ streamInstrs) (hword : decodeWord r.word = .ok i) :
    s.rest r = s.restOfStream i r := by
  simp only [State.rest, hword, if_pos hi]

theorem State.rest_of_exchange (hi : i ∈ exchangeInstrs) (hword : decodeWord r.word = .ok i) :
    s.rest r = s.restOfExchange i r := by
  have hnot : i ∉ streamInstrs := by
    simp only [exchangeInstrs, List.mem_cons, List.not_mem_nil, or_false] at hi
    rcases hi with rfl | rfl | rfl <;> decide
  simp only [State.rest, hword, if_neg hnot, if_pos hi]

theorem State.rest_a0 (ha : r.action = .a0) : s.rest r = runAccepted r.word s := by
  cases hdecode : decodeWord r.word with
  | error e => simp only [State.rest, runAccepted, hdecode]
  | ok i => simp only [State.rest, runAccepted, hdecode, State.restOfStream, State.restOfExchange, ha, ite_self]

/-- What goes on after a write can be put behind it. -/
theorem State.writeThen_andThen (s : State) (a : Nat) (bs : List Byte) (bus : State → State) (g : State → Flow) :
    (s.writeThen a bs bus g).andThen k = (s.writeThen a bs bus .cont).andThen fun u => (g u).andThen k := by
  unfold State.writeThen
  cases s.verdict a bs.length <;> rfl

/-- What goes on after a read, but for the use of its bytes, can be put behind it. -/
theorem State.readThen_andThen (s : State) (a n : Nat) (bus : State → State) (f : List Byte → State)
    (g : State → Flow) : (s.readThen a n bus fun x => g (f x)).andThen k =
      (s.readThen a n bus fun x => .cont (f x)).andThen fun u => (g u).andThen k := by
  unfold State.readThen
  cases s.verdict a n <;> rfl

/-- The answer of data memory to a read, against the read of the one-step reading. -/
theorem outcomeAfter_readMove {a n : Nat} {bus : State → State} {cont : List Byte → Flow}
    (hafter : outcomeAfter p (afterRead r (Memory.bytes s.mem a n) s) = (cont (Memory.bytes s.mem a n)).andThen k)
    (hbus : (s.busError r).outcome p = .next (bus (s.withPhase p))) :
    outcomeAfter p (readMove r a n s) = ((s.withPhase p).readThen a n bus cont).andThen k := by
  have hverdict : (s.withPhase p).verdict a n = s.verdict a n := rfl
  simp only [readMove, State.readThen, hverdict]
  cases s.verdict a n with
  | ok => exact hafter
  | busError => exact hbus
  | device | outside => rfl

/-- The answer of data memory to a write, against the write of the one-step reading. -/
theorem outcomeAfter_writeMove {a : Nat} {bs : List Byte} {bus : State → State} {cont : State → Flow}
    (hafter : outcomeAfter p (afterWrite r { s with mem := Memory.storeBytes s.mem a bs }) =
      (cont (State.withPhase { s with mem := Memory.storeBytes s.mem a bs } p)).andThen k)
    (hbus : ∀ u : State, (u.busError r).outcome p = .next (bus (u.withPhase p))) :
    outcomeAfter p (writeMove r a bs s) = ((s.withPhase p).writeThen a bs bus cont).andThen k := by
  have hverdict : (s.withPhase p).verdict a bs.length = s.verdict a bs.length := rfl
  simp only [writeMove, State.writeThen, hverdict]
  cases s.verdict a bs.length with
  | ok => exact hafter
  | busError =>
    rw [State.scramble_withPhase]
    exact hbus _
  | device | outside => rfl

/-! ## The stream commands -/

theorem StreamJob.restFrom_of_le {j : StreamJob} {outLen b : Nat} (h : blockCount j.bodyLen ≤ b) :
    j.restFrom outLen b s = .next (s.finishStream j.bodyLen outLen) := by
  rw [StreamJob.restFrom, Nat.sub_eq_zero_of_le h]
  rfl

theorem StreamJob.restFrom_of_lt {j : StreamJob} {outLen b : Nat} (h : b < blockCount j.bodyLen) :
    j.restFrom outLen b s = ((s.startBlock b).cipherExchange.readBlock j b).andThen (j.restFrom outLen (b + 1)) := by
  have hblock : (s.startBlock b).cipherExchange.readBlock j b = streamBlock j b s := rfl
  have hcount : blockCount j.bodyLen - b = blockCount j.bodyLen - (b + 1) + 1 := by omega
  rw [StreamJob.restFrom, hcount, streamBlocks, hblock]
  cases streamBlock j b s <;> rfl

section

variable (hi : i ∈ streamInstrs) (hword : decodeWord r.word = .ok i)
include hi hword

theorem outcome_goTo_of_stream (a : Action) : (u.goTo r a).outcome p =
    (u.withPhase p).restOfStream i { r with action := a, outstanding := none } :=
  State.rest_of_stream (r := { r with action := a, outstanding := none }) hi hword

theorem outcome_busError_of_stream (u : State) : (u.busError r).outcome p =
    .next ((u.withPhase p).failStream .bus) := by
  rcases mem_streamInstrs.1 hi with rfl | rfl <;> simp only [State.busError, hword] <;> rfl

theorem outcome_nextBlock (b : Nat) : (u.nextBlock r (u.job i) b).outcome p =
    (u.job i).restFrom (u.outLength i) b (u.withPhase p) := by
  unfold State.nextBlock
  split
  · exact outcome_goTo_of_stream (r := { r with block := b }) hi hword .b1
  · rw [outcome_goTo_of_stream hi hword, StreamJob.restFrom_of_le (by omega)]
    rfl

/-- Sending a request changes nothing that the one-step reading sees. -/
theorem outcome_request_of_stream (q : Request) : (u.request r q).outcome p = (u.withPhase p).restOfStream i r :=
  State.rest_of_stream (r := { r with outstanding := some q }) hi hword

theorem outcomeAfter_streamMove (hlegal : r.streamLegal s (s.job i)) :
    outcomeAfter p (streamMove (s.job i) (s.outLength i) r s) = (s.withPhase p).restOfStream i r := by
  have hrequest (q : Request) := outcome_request_of_stream (p := p) (u := s) hi hword q
  rcases hlegal with ⟨hb, ⟨ha, -⟩ | ⟨ha, -⟩ | ⟨ha, -⟩ | ⟨ha, -⟩⟩ | ⟨ha, -⟩ <;> simp only [streamMove, ha]
  · refine (outcome_goTo_of_stream hi hword .b2).trans ?_
    rw [State.restOfStream, State.restOfStream, ha]
    exact (StreamJob.restFrom_of_lt (j := s.job i) (s := s.withPhase p) hb).symm
  · exact hrequest _
  · exact hrequest _
  · exact hrequest _
  · rw [State.restOfStream, ha]
    rfl

/-- A move in the block loop, or at A3. -/
theorem outcomeAfter_engineMove_of_stream (hphase : s.phase = .busy r) (hlegal : r.streamLegal s (s.job i)) :
    outcomeAfter p (engineMove s) = (s.withPhase p).restOfStream i r := by
  have hsequencer (hnone : r.outstanding = none) :
      outcomeAfter p (engineMove s) = (s.withPhase p).restOfStream i r := by
    rw [engineMove_of_none hphase hnone, sequencerMove_of_stream hi hword hlegal]
    exact outcomeAfter_streamMove hi hword hlegal
  rcases id hlegal with
    ⟨hb, ⟨-, hnone⟩ | ⟨ha, hnone | hsome⟩ | ⟨ha, hnone | hsome⟩ | ⟨ha, -, hnone | hsome⟩⟩ | ⟨-, hnone⟩
  · exact hsequencer hnone
  · exact hsequencer hnone
  · simp only [engineMove, hphase, hsome, cipherMove_of_stream hi hword]
    refine (outcome_goTo_of_stream hi hword .b3).trans ?_
    rw [State.restOfStream, State.restOfStream, ha]
    rfl
  · exact hsequencer hnone
  · simp only [engineMove, hphase, hsome, State.restOfStream, ha, State.job_withPhase, State.outLength_withPhase,
      State.readBlock]
    refine outcomeAfter_readMove ?_ (outcome_busError_of_stream hi hword s)
    rw [afterRead_of_stream hi hword ha]
    refine (outcome_goTo_of_stream (r := { r with latch := Memory.bytes s.mem _ _ }) hi hword .b4).trans ?_
    simp only [State.restOfStream, State.job_withPhase, State.outLength_withPhase]
  · exact hsequencer hnone
  · simp only [engineMove, hphase, hsome, State.restOfStream, ha, State.job_withPhase, State.outLength_withPhase,
      State.writeBlock]
    refine outcomeAfter_writeMove ?_ (outcome_busError_of_stream hi hword)
    rw [afterWrite_of_stream hi hword ha]
    exact outcome_nextBlock (r := { r with latch := [] }) (u := { s with mem := _ }) hi hword _
  · exact hsequencer hnone

/-- The answer to the header access. -/
theorem outcomeAfter_header_answer (hphase : s.phase = .busy r) (ha : r.action = .a2)
    (hsome : r.outstanding = some (s.headerAccess i)) :
    outcomeAfter p (engineMove s) = (s.withPhase p).restOfStream i r := by
  have hbus (u : State) := outcome_busError_of_stream (p := p) hi hword u
  simp only [State.restOfStream, ha, State.job_withPhase, State.outLength_withPhase]
  rcases mem_streamInstrs.1 hi with rfl | rfl <;>
    simp only [engineMove, hphase, hsome, State.headerAccess, State.headerExchange]
  · refine outcomeAfter_writeMove ?_ hbus
    simp only [afterWrite, hword, ha]
    exact outcome_nextBlock (u := { s with mem := _ }) hi hword 0
  · refine outcomeAfter_readMove ?_ (hbus s)
    simp only [afterRead, hword, ha]
    exact outcome_nextBlock (u := s.setHeader _) hi hword 0

omit hword in
/-- A stream command whose checks pass is A1 and the header access, and then the block loop. -/
theorem exec_eq_headerExchange (hcheck : s.streamCheck i = none) : exec i s =
    ((s.start i).headerExchange i).andThen ((s.job i).restFrom (s.outLength i) 0) := by
  rcases mem_streamInstrs.1 hi with rfl | rfl
  · have hcheck : encryptCheck s = none := hcheck
    simp only [exec, execEncrypt, hcheck]
    exact State.writeThen_andThen ..
  · have hcheck : decryptCheck s = none := hcheck
    simp only [exec, execDecrypt, hcheck]
    exact State.readThen_andThen (s := { s with idx := 0 })
      (f := fun h => State.setHeader { s with idx := 0 } (halfOfList h))
      (g := streamBlocks s.decryptJob (blockCount s.decryptJob.bodyLen) 0) ..

theorem outcomeAfter_stream (hphase : s.phase = .busy r) (hlegal : r.Legal s) :
    outcomeAfter p (engineMove s) = (s.withPhase p).restOfStream i r := by
  rcases (Running.legal_stream_iff hi hword).1 hlegal with
    ⟨ha, hnone⟩ | ⟨hcheck, ⟨ha, hnone⟩ | ⟨ha, hnone | hsome⟩ | hstream⟩
  · rw [engineMove_of_none hphase hnone, sequencerMove_a0_of_stream hi hword ha, State.restOfStream, ha]
    cases hcheck : s.streamCheck i with
    | none => exact outcome_goTo_of_stream hi hword .a1
    | some c =>
      rcases mem_streamInstrs.1 hi with rfl | rfl
      · exact (execEncrypt_of_check (s := s.withPhase p) hcheck).symm
      · exact (execDecrypt_of_check (s := s.withPhase p) hcheck).symm
  · rw [engineMove_of_none hphase hnone, sequencerMove_a1_of_stream hi hword ha, State.restOfStream, ha]
    refine (outcome_goTo_of_stream hi hword .a2).trans ?_
    refine .trans ?_ (exec_eq_headerExchange (s := s.withPhase p) hi hcheck).symm
    rcases mem_streamInstrs.1 hi with rfl | rfl <;> rfl
  · rw [engineMove_of_none hphase hnone, sequencerMove_a2_of_stream hi hword ha]
    exact outcome_request_of_stream hi hword _
  · exact outcomeAfter_header_answer hi hword hphase ha hsome
  · exact outcomeAfter_engineMove_of_stream hi hword hphase hstream

end

/-! ## The commands of one exchange -/

section

variable (hi : i ∈ exchangeInstrs) (hword : decodeWord r.word = .ok i)
include hi hword

theorem outcome_goTo_of_exchange (a : Action) : (u.goTo r a).outcome p =
    (u.withPhase p).restOfExchange i { r with action := a, outstanding := none } :=
  State.rest_of_exchange (r := { r with action := a, outstanding := none }) hi hword

theorem outcome_busError_of_exchange (u : State) : (u.busError r).outcome p =
    .next ((u.withPhase p).raiseError .bus) := by
  simp only [exchangeInstrs, List.mem_cons, List.not_mem_nil, or_false] at hi
  rcases hi with rfl | rfl | rfl <;> simp only [State.busError, hword] <;> rfl

omit hword in
/-- A command of one exchange is its check, the exchange and the completion. -/
theorem exec_eq_exchanged : exec i s = match s.exchangeCheck i with
    | some c => .next (s.raiseError c)
    | none => (s.exchanged i).andThen fun u => .next u.complete := by
  simp only [exchangeInstrs, List.mem_cons, List.not_mem_nil, or_false] at hi
  rcases hi with rfl | rfl | rfl <;> rfl

omit hword in
theorem State.restOfExchange_of_exchangeAction (ha : r.action = exchangeAction i) :
    s.restOfExchange i r = (s.exchanged i).andThen fun u => .next u.complete := by
  simp only [exchangeInstrs, List.mem_cons, List.not_mem_nil, or_false] at hi
  rcases hi with rfl | rfl | rfl <;> simp only [exchangeAction] at ha <;> simp only [State.restOfExchange, ha]

/-- The answer to the exchange. -/
theorem outcomeAfter_exchange_answer (hphase : s.phase = .busy r) (ha : r.action = exchangeAction i)
    (hsome : r.outstanding = some (s.exchange i)) :
    outcomeAfter p (engineMove s) = ((s.withPhase p).exchanged i).andThen fun u => .next u.complete := by
  have hdone (u : State) := outcome_goTo_of_exchange (p := p) (u := u) hi hword .a3
  have hbus (u : State) := outcome_busError_of_exchange (p := p) hi hword u
  simp only [exchangeInstrs, List.mem_cons, List.not_mem_nil, or_false] at hi
  rcases hi with rfl | rfl | rfl <;> simp only [exchangeAction] at ha <;>
    simp only [engineMove, hphase, hsome, State.exchange, State.exchanged]
  · simp only [cipherMove, hword]
    exact hdone { s with ks := _ }
  · refine outcomeAfter_readMove ?_ (hbus s)
    simp only [afterRead, hword, ha]
    exact hdone (s.setHeader _)
  · refine outcomeAfter_writeMove ?_ hbus
    simp only [afterWrite, hword, ha]
    exact hdone { s with mem := _ }

theorem outcomeAfter_exchange (hphase : s.phase = .busy r) (hlegal : r.Legal s) :
    outcomeAfter p (engineMove s) = (s.withPhase p).restOfExchange i r := by
  rcases (Running.legal_exchange_iff hi hword).1 hlegal with
    ⟨ha, hnone⟩ | ⟨-, ⟨ha, hnone | hsome⟩ | ⟨ha, hnone⟩⟩
  · have hsame : (s.withPhase p).exchangeCheck i = s.exchangeCheck i := rfl
    rw [engineMove_of_none hphase hnone, sequencerMove_a0_of_exchange hi hword ha]
    simp only [State.restOfExchange, ha, exec_eq_exchanged hi, hsame]
    cases s.exchangeCheck i with
    | none =>
      refine (outcome_goTo_of_exchange hi hword _).trans ?_
      exact State.restOfExchange_of_exchangeAction hi rfl
    | some c => rfl
  · rw [engineMove_of_none hphase hnone, sequencerMove_request_of_exchange hi hword ha]
    exact State.rest_of_exchange (r := { r with outstanding := some _ }) hi hword
  · rw [State.restOfExchange_of_exchangeAction hi ha]
    exact outcomeAfter_exchange_answer hi hword hphase ha hsome
  · rw [engineMove_of_none hphase hnone, sequencerMove_a3_of_exchange hi hword ha]
    simp only [State.restOfExchange, ha]
    rfl

end

/-! ## Every command -/

/-- What the one-step reading gives is idle, so that the move of a command of one action ends it. -/
theorem outcomeAfter_oneAction (hword : ∀ i ∈ streamInstrs ++ exchangeInstrs, decodeWord r.word ≠ .ok i)
    (hphase : s.phase = .busy r) (hlegal : r.Legal s) :
    outcomeAfter p (engineMove s) = (s.withPhase p).rest r := by
  obtain ⟨ha, hnone⟩ := (Running.legal_oneAction_iff hword).1 hlegal
  rw [engineMove_of_none hphase hnone, State.rest_a0 ha]
  cases hdecode : decodeWord r.word with
  | error e => simp only [sequencerMove, runAccepted, hdecode]; rfl
  | ok i =>
    cases i with
    | nop | initCb | encodeIdx => simp only [sequencerMove, runAccepted, hdecode]; rfl
    | _ => exact absurd hdecode (hword _ (by decide))

/-- No move of the engine side changes where the command ends in the one-step reading. -/
theorem outcomeAfter_engineMove (p : Phase) (hphase : s.phase = .busy r) (hlegal : r.Legal s) :
    outcomeAfter p (engineMove s) = s.outcome p := by
  rw [outcome_of_busy hphase]
  rcases word_kinds r.word with ⟨i, hi, hword⟩ | ⟨i, hi, hword⟩ | hword
  · rw [State.rest_of_stream hi hword]
    exact outcomeAfter_stream hi hword hphase hlegal
  · rw [State.rest_of_exchange hi hword]
    exact outcomeAfter_exchange hi hword hphase hlegal
  · exact outcomeAfter_oneAction hword hphase hlegal

/-! ## Runs of the engine alone -/

theorem run_succ_of_next {k : Nat} {s u : State} (h : step s = .next u) :
    Host.Core.run Sys2Proof.core (k + 1) s = Host.Core.run Sys2Proof.core k u := by
  have hstep : Sys2Proof.core.step s = .next u := h
  simp only [Host.Core.run, hstep]

theorem run_succ_of_refused {k : Nat} {s : State} {f : Refusal} (h : step s = .refused f) :
    Host.Core.run Sys2Proof.core (k + 1) s = .refused f := by
  have hstep : Sys2Proof.core.step s = .refused f := h
  simp only [Host.Core.run, hstep]

theorem step_of_no_events {s : State} (h : s.events = []) : step s = progress s := by
  rw [step, h]

/-- From a legal position the engine alone ends its command as the one-step reading does, or stops at a device buffer as
that reading does, within the moves left. -/
theorem run_eq_outcome (p : Phase) (n : Nat) (hevents : s.events = []) (hphase : s.phase = .busy r)
    (hlegal : r.Legal s) (hn : r.movesLeft (s.blocks r.word) ≤ n) :
    ∃ k ≤ n, (∃ t, s.outcome p = .next t ∧ t.phase = .idle ∧ Host.Core.run Sys2Proof.core k s = .next t.endCommand) ∨
      (s.outcome p = .refused .deviceBuffer ∧ Host.Core.run Sys2Proof.core k s = .refused .deviceBuffer) := by
  have hpos := hlegal.movesLeft_pos
  induction n generalizing s r with
  | zero => omega
  | succ n ih =>
    have hstep := step_of_no_events hevents
    rw [← outcomeAfter_engineMove p hphase hlegal]
    have hmoves := engineMove_moves hphase hlegal
    simp only [progress, hphase] at hstep
    generalize engineMove s = o at hmoves hstep ⊢
    cases hmoves with
    | @goesOn u r' hchange hword hlegal' hless =>
      have hblocks : u.blocks r'.word = s.blocks r.word := by rw [hword, hchange.frame]; rfl
      obtain ⟨k, hk, hrun⟩ := ih (s := { u with phase := .busy r' }) (by rw [hchange.frame]; exact hevents) rfl hlegal'
        (show r'.movesLeft (u.blocks r'.word) ≤ n by rw [hblocks]; omega) hlegal'.movesLeft_pos
      exact ⟨k + 1, by omega, by rwa [run_succ_of_next hstep]⟩
    | ends hend =>
      simp only [hend.phase, if_true] at hstep
      exact ⟨1, by omega, .inl ⟨_, outcome_of_idle hend.phase, hend.phase, run_succ_of_next hstep⟩⟩
    | refused => exact ⟨1, by omega, .inr ⟨rfl, run_succ_of_refused hstep⟩⟩

end

/-- Settles O57. The moves left are at most 7 for each block and 5 more. -/
theorem everyCommandEnds : Obligations.EveryCommandEnds := by
  intro s r hinv hevents hphase bodyLen
  obtain ⟨-, -, hlegal, -⟩ := (State.phaseOk_of_busy hphase).1 hinv.2.2.2
  have hblocks : s.blocks r.word = (bodyLen + 15) / 16 := by
    simp only [State.blocks, bodyLen]
    cases decodeWord r.word with
    | error e => simp
    | ok i => cases i <;> simp [blockCount, State.length]
  obtain ⟨k, hk, hrun⟩ := run_eq_outcome s.phase _ hevents hphase hlegal
    (show _ ≤ 7 * ((bodyLen + 15) / 16) + 5 by rw [← hblocks]; exact r.movesLeft_le _)
  refine ⟨k, hk, hrun.imp (fun ⟨t, _, hidle, ht⟩ => ⟨_, ht, ?_⟩) fun ⟨_, hrefused⟩ => hrefused⟩
  rw [(endCommand_settles t).phase, hidle]

/-- Settles O56. Both readings accept the word, and the engine's moves keep the outcome of the one-step reading. -/
theorem oneStepAgreesWithActionList : Obligations.OneStepAgreesWithActionList := by
  intro s t w hinv hidle hcommand
  let a : State := State.accept { s with events := [] } w
  have hwrite : step { s with events := [.hostWrite (s.platform.regBase + 8) 4 w] } = .next a :=
    cmdWriteWhileIdleIsAccepted { s with events := _ } w [] rfl hidle
  have hrun : ended (runAccepted w a) = .next t :=
    (command_of_idle w (s := { s with events := [] }) hidle).symm.trans
      ((step_command (s := { s with events := _ }) rfl).symm.trans hcommand)
  obtain ⟨v, hv, rfl⟩ := ended_eq_next.1 hrun
  have houtcome : a.outcome a.phase = .next v :=
    (outcome_of_busy (r := ⟨w, .a0, 0, [], none⟩) rfl).trans ((State.rest_a0 rfl).trans hv)
  obtain ⟨k, -, ⟨u, hu, -, hk⟩ | ⟨hrefused, -⟩⟩ :=
    run_eq_outcome a.phase _ (s := a) rfl rfl (Running.legal_a0 rfl rfl) (Nat.le_refl _)
  · obtain rfl : v = u := by rw [houtcome] at hu; injection hu
    exact ⟨k + 1, (run_succ_of_next hwrite).trans hk⟩
  · rw [houtcome] at hrefused
    cases hrefused

end Sys2Proof.Machine
